-- ==== Sys2Proof/Word.lean ====
section
/-! DEFINITION. The words of the codec core: the byte, the 32-bit command word (spec/30_encoding.md R80) and the binary64 value
(spec/00_scope.md R7, R11). Their arithmetic is in Machine/Float.lean. -/

namespace Sys2Proof

/-- A byte: the STATUS code (30_encoding R80) and the bytes of the WAV container (46_wav_serializer R233). -/
abbrev Byte := BitVec 8

/-- A command word CMD (30_encoding R80, R81). -/
abbrev CmdWord := BitVec 32

/-- `F64` of 00_scope R11: an IEEE 754 binary64 value, held as its 64 bits (sign 63, exponent 62:52, fraction 51:0). It is a type
of its own so that no integer operation applies to it. Equality of `F64` is equality of the bits. -/
structure F64 where
  bits : BitVec 64
deriving DecidableEq, Repr, Inhabited

/-- The value +0.0. -/
def F64.zero : F64 := ⟨0#64⟩

/-- The value 1.0. -/
def F64.one : F64 := ⟨0x3FF0000000000000#64⟩

end Sys2Proof
end

