-- ==== Sys2Proof/Config.lean ====
section
/-! DEFINITION. The named model parameters of spec/00_scope.md R9, with their defaults, and the free values: constants with no
body that stand for what the spec leaves open. -/

namespace Sys2Proof

/-- NUM (00_scope R7, R9): the numeric domain of the datapath. `binary64` is the default, by R12 and R13; `implementation n` is some
other domain, a different unknown one for each `n`. What its operations make of two 64-bit values is free, so a claim for every
configuration assumes nothing of them. -/
inductive NumDomain where
  | binary64
  | implementation (n : Nat)
deriving DecidableEq, Repr

/-- The operations of 00_scope R12 and R13 that make one value from two. -/
inductive BinaryOp where
  | add
  | sub
  | mul
  | div
  | max
  | min
deriving DecidableEq, Repr

/-- The comparisons of two values (00_scope R13). -/
inductive TestOp where
  | lt
  | le
deriving DecidableEq, Repr

/-- The ways from a value to an integer (00_scope R13, 46_wav_serializer R232). -/
inductive IntegerOp where
  | floor
  | trunc
deriving DecidableEq, Repr

/-- PHASE_ORDER (00_scope R9, 43_phase_accumulator R174). -/
inductive PhaseOrder where
  | sampleThenAdvance
  | advanceThenSample
deriving DecidableEq, Repr

/-- PIXEL_QUANT (00_scope R9, 42_scanline_decoder R158). -/
inductive PixelQuant where
  | none
  | roundToByte
deriving DecidableEq, Repr

/-- SIN (00_scope R9, 43_phase_accumulator R175): the oscillator's sine is a configuration field. `correctlyRounded` is the default
of R9; `implementation n` is some total function, a different unknown one for each `n` (93_implementation_defined I3). A claim
for every configuration therefore assumes of SIN only what R175 lets it assume. -/
inductive SineSource where
  | correctlyRounded
  | implementation (n : Nat)
deriving DecidableEq, Repr

/-- The named model parameters of 00_scope R9. `srAdmit` is the set SR_ADMIT as a list of closed intervals of rates (every set of
binary64 values is a finite one, so every set is such a list). -/
structure Config where
  /-- NUM. -/
  num : NumDomain
  /-- SIN. -/
  sine : SineSource
  /-- PHASE_ORDER. -/
  phaseOrder : PhaseOrder
  /-- AMP, the oscillator's amplitude. -/
  amp : F64
  /-- PIXEL_QUANT. -/
  pixelQuant : PixelQuant
  /-- RESET_KEEPS_BUFFERS. -/
  resetKeepsBuffers : Bool
  /-- PROGRESS_PERIOD. -/
  progressPeriod : Nat
  /-- SR_ADMIT. -/
  srAdmit : List (F64 × F64)
deriving DecidableEq, Repr

/-- The defaults of 00_scope R9: binary64, the correctly rounded sine, sampleThenAdvance, AMP 1.0, no quantisation, buffers zeroed by
DEC_RESET, PROGRESS_PERIOD 10, and every rate with 1 ≤ sr ≤ 2^32 (bit patterns as in 95_test_vectors V10). -/
def Config.standard : Config where
  num := .binary64
  sine := .correctlyRounded
  phaseOrder := .sampleThenAdvance
  amp := F64.one
  pixelQuant := .none
  resetKeepsBuffers := false
  progressPeriod := 10
  srAdmit := [(⟨0x3FF0000000000000#64⟩, ⟨0x41F0000000000000#64⟩)]

/-! FREE VALUES (DESIGN CHOICE, notes/assumptions/5.md): the operations of the numeric domain `implementation n`, n being the first
argument of each. -/

/-- The operations that make one value from two. -/
opaque Config.domainBinary : Nat → BinaryOp → F64 → F64 → F64
/-- The comparisons of two values. -/
opaque Config.domainTest : Nat → TestOp → F64 → F64 → Bool
/-- `floor` and `trunc`. -/
opaque Config.domainInteger : Nat → IntegerOp → F64 → Int
/-- A Nat in that domain. -/
opaque Config.domainOfNat : Nat → Nat → F64
/-- Whether a Nat is above a value of that domain. -/
opaque Config.domainNatGt : Nat → Nat → F64 → Bool
/-- The integer nearest to a value, in that domain. -/
opaque Config.domainNearest : Nat → F64 → F64
/-- How many rounds of WRAP suffice from a phase of that domain. -/
opaque Config.domainWrapRounds : Nat → F64 → Nat

/-- FREE VALUE (DESIGN CHOICE, notes/assumptions/6.md): the sine of the implementation `n`, before it is held to [-1, 1]. -/
opaque Config.implementationSine : Nat → F64 → F64

/-- FREE VALUE (DESIGN CHOICE, notes/assumptions/7.md): the STATUS the host reads after a refused command (93 I2). -/
opaque Config.freeStatus : Nat → Byte

/-- FREE VALUE (DESIGN CHOICE, notes/assumptions/7.md): what result slot Q0, Q1 or Q2 (the second argument) shows where the
command does not define it (30_encoding R80, 93 I7). -/
opaque Config.freeResult : Nat → Nat → F64

/-- FREE VALUE (DESIGN CHOICE, notes/assumptions/7.md): what BQ shows where the command does not define it (93 I7). -/
opaque Config.freeBytes : Nat → List Byte

/-- FREE VALUE (DESIGN CHOICE, notes/assumptions/10.md): whether the maximum or minimum of two zeros of opposite sign is the first
one. 00_scope R13 gives `min` and `max` of exact values, which are equal here. -/
opaque Config.takesFirstZero : F64 → F64 → Bool

end Sys2Proof
end

