-- ==== Sys2Proof/Machine/Float.lean ====
section
/-! DEFINITION. IEEE 754 binary64 arithmetic, round to nearest, ties to even, no fused operation, subnormals kept (spec/00_scope.md
R7, R11 to R13).

Every finite binary64 value is an integer number of UNITS of 2^-1074. An operation converts its operands to units, computes
exactly over the integers, and rounds once at the end (`roundMag`). Powers of two are written as shifts, which evaluate at any size. NaN and infinities follow IEEE 754 so that every function is
total; admission keeps them out of every register (R11, 60 R258; notes/assumptions/9.md). -/

namespace Sys2Proof.F64

/-- The number of units in 1.0. -/
def unitsPerOne : Nat := 1 <<< 1074

/-- Bit 63. -/
def signBit (x : F64) : Bool := x.bits.msb

/-- Bits 62:0, which order the absolute values. -/
def magnitude (x : F64) : Nat := x.bits.toNat % 2 ^ 63

/-- The magnitude bits of infinity. -/
def infMagnitude : Nat := 2047 * 2 ^ 52

def isNaN (x : F64) : Bool := decide (infMagnitude < x.magnitude)

def isInf (x : F64) : Bool := decide (x.magnitude = infMagnitude)

def isFinite (x : F64) : Bool := decide (x.magnitude < infMagnitude)

/-- The absolute value in units that magnitude bits stand for: the fraction alone where the exponent field is 0 (subnormals and
zero), else the fraction with its hidden bit, scaled. Infinity's bits give 2^2098, above every finite value. -/
def magUnits (m : Nat) : Nat :=
  if m / 2 ^ 52 = 0 then m % 2 ^ 52 else (2 ^ 52 + m % 2 ^ 52) <<< (m / 2 ^ 52 - 1)

/-- The exact value in units. -/
def units (x : F64) : Int := if x.signBit then -(magUnits x.magnitude : Int) else magUnits x.magnitude

/-- `num / den` to the nearest natural number, ties to even. -/
def roundHalfEven (num den : Nat) : Nat :=
  if 2 * (num % den) > den ∨ (2 * (num % den) = den ∧ num / den % 2 = 1) then num / den + 1 else num / den

/-- How many low bits of the unit count `q` lie below a 53-bit significand. -/
def dropBits (q : Nat) : Nat := q.log2 - 52

/-- The magnitude bits of the binary64 value nearest to `num / den` units, ties to even; infinity above the largest. With k bits
dropped the 53-bit significand m has magnitude bits k·2^52 + m, the hidden bit of m adding one to the exponent field. (Irreducible: only the kernel
evaluates it, so that no tactic does by accident.) -/
@[irreducible] def roundMag (num den : Nat) : Nat :=
  let k := dropBits (num / den)
  min (k * 2 ^ 52 + roundHalfEven num (den <<< k)) infMagnitude

/-- The value with this sign and these magnitude bits. -/
def pack (negative : Bool) (m : Nat) : F64 := ⟨BitVec.ofNat 64 (if negative then 2 ^ 63 + m else m)⟩

/-- The one NaN that operations return. -/
def nan : F64 := ⟨0x7FF8000000000000#64⟩

/-- The binary64 value nearest to `num / den`, ties to even. -/
def ofRatio (negative : Bool) (num den : Nat) : F64 := pack negative (roundMag (num * unitsPerOne) den)

/-- The decimal literal with these digits after moving the point `places` to the left: `decimal 16 2` is 0.16 (R11: a decimal
literal denotes the nearest binary64 value). -/
def decimal (digits places : Nat) : F64 := ofRatio false digits (10 ^ places)

/-- A Nat as F64, rounded to nearest, ties to even where it is not exact (R12). -/
def ofNat (n : Nat) : F64 := ofRatio false n 1

/-- The sign changed. -/
def neg (x : F64) : F64 := pack (!x.signBit) x.magnitude

/-- The finite case of `add`. An exact sum of zero is +0.0 unless both operands are negative zeros. -/
def addFinite (x y : F64) : F64 :=
  let n := x.units + y.units
  if n = 0 then pack (x.signBit && y.signBit) 0
  else pack (decide (n < 0)) (roundMag n.natAbs 1)

/-- Binary64 `+` (R12). -/
def add (x y : F64) : F64 :=
  if x.isNaN || y.isNaN then nan
  else if x.isInf then (if y.isInf && x.signBit != y.signBit then nan else x)
  else if y.isInf then y
  else addFinite x y

/-- Binary64 `-` (R12). -/
def sub (x y : F64) : F64 := add x (neg y)

/-- The finite case of `mul`. -/
def mulFinite (x y : F64) : F64 :=
  pack (x.signBit != y.signBit) (roundMag (magUnits x.magnitude * magUnits y.magnitude) unitsPerOne)

/-- Binary64 `*` (R12). -/
def mul (x y : F64) : F64 :=
  if x.isNaN || y.isNaN then nan
  else if (x.isInf && decide (y.magnitude = 0)) || (y.isInf && decide (x.magnitude = 0)) then nan
  else if x.isInf || y.isInf then pack (x.signBit != y.signBit) infMagnitude
  else mulFinite x y

/-- The finite case of `div` with a divisor that is not zero. -/
def divFinite (x y : F64) : F64 :=
  pack (x.signBit != y.signBit) (roundMag (magUnits x.magnitude * unitsPerOne) (magUnits y.magnitude))

/-- Binary64 `/` (R12). -/
def div (x y : F64) : F64 :=
  if x.isNaN || y.isNaN then nan
  else if (x.isInf && y.isInf) || (decide (x.magnitude = 0) && decide (y.magnitude = 0)) then nan
  else if x.isInf || decide (y.magnitude = 0) then pack (x.signBit != y.signBit) infMagnitude
  else if y.isInf then pack (x.signBit != y.signBit) 0
  else divFinite x y

/-- `x < y` on exact values (R13); false on NaN. -/
def lt (x y : F64) : Bool := !x.isNaN && !y.isNaN && decide (x.units < y.units)

/-- `x <= y` on exact values (R13); false on NaN. -/
def le (x y : F64) : Bool := !x.isNaN && !y.isNaN && decide (x.units ≤ y.units)

/-- `n > v` for a Nat, compared exactly (R13); false on NaN. -/
def natGt (n : Nat) (v : F64) : Bool := !v.isNaN && decide (v.units < (n * unitsPerOne : Nat))

/-- `floor(v)`: the greatest integer not above the exact value (R13). -/
def floor (v : F64) : Int := v.units / (unitsPerOne : Int)

/-- `trunc(v)`: toward zero (46 R232). -/
def trunc (v : F64) : Int := v.units.tdiv (unitsPerOne : Int)

/-- The exact value is an integer. -/
def isInteger (v : F64) : Bool := v.isFinite && decide (v.units % (unitsPerOne : Int) = 0)

/-- The nearest integer as F64, ties to even (42 R158). -/
def roundToInteger (v : F64) : F64 :=
  if v.isFinite then ofRatio v.signBit (roundHalfEven (magUnits v.magnitude) unitsPerOne) 1 else v

/-- `max(a, b)` (R13). Which of two zeros of opposite sign it is, is a free value (notes/assumptions/10.md). -/
def fmax (a b : F64) : F64 :=
  if lt a b then b else if lt b a then a else if a = b || Config.takesFirstZero a b then a else b

/-- `min(a, b)` (R13), with the same free value. -/
def fmin (a b : F64) : F64 :=
  if lt a b then a else if lt b a then b else if a = b || Config.takesFirstZero a b then a else b

/-- `clamp(v, lo, hi) = min(max(v, lo), hi)` (R13). -/
def clamp (v lo hi : F64) : F64 := fmin (fmax v lo) hi

/-- lo ≤ v ≤ hi on exact values; false on NaN. -/
def within (lo hi v : F64) : Bool := le lo v && le v hi

end Sys2Proof.F64
end

