-- ==== Sys2Proof/Machine/Domain.lean ====
section
/-! DEFINITION. The numeric datapath by the parameter NUM (spec/00_scope.md R7, R9): the operations of R12 and R13 that every unit of
the core computes with. In the default domain each is the binary64 operation of Machine/Float.lean; in another domain each is a free
value (notes/assumptions/5.md). -/

namespace Sys2Proof.NumDomain

/-- `x + y` (R12). -/
def add (N : NumDomain) (x y : F64) : F64 :=
  match N with
  | .binary64 => F64.add x y
  | .implementation n => Config.domainBinary n .add x y

/-- `x - y` (R12). -/
def sub (N : NumDomain) (x y : F64) : F64 :=
  match N with
  | .binary64 => F64.sub x y
  | .implementation n => Config.domainBinary n .sub x y

/-- `x * y` (R12). -/
def mul (N : NumDomain) (x y : F64) : F64 :=
  match N with
  | .binary64 => F64.mul x y
  | .implementation n => Config.domainBinary n .mul x y

/-- `x / y` (R12). -/
def div (N : NumDomain) (x y : F64) : F64 :=
  match N with
  | .binary64 => F64.div x y
  | .implementation n => Config.domainBinary n .div x y

/-- A Nat operand converted to the domain (R12). -/
def ofNat (N : NumDomain) (k : Nat) : F64 :=
  match N with
  | .binary64 => F64.ofNat k
  | .implementation n => Config.domainOfNat n k

/-- `x < y` (R13). -/
def lt (N : NumDomain) (x y : F64) : Bool :=
  match N with
  | .binary64 => F64.lt x y
  | .implementation n => Config.domainTest n .lt x y

/-- `x <= y` (R13). -/
def le (N : NumDomain) (x y : F64) : Bool :=
  match N with
  | .binary64 => F64.le x y
  | .implementation n => Config.domainTest n .le x y

/-- `k > v` for a Nat k (R13). -/
def natGt (N : NumDomain) (k : Nat) (v : F64) : Bool :=
  match N with
  | .binary64 => F64.natGt k v
  | .implementation n => Config.domainNatGt n k v

/-- `floor(v)` (R13). -/
def floor (N : NumDomain) (v : F64) : Int :=
  match N with
  | .binary64 => F64.floor v
  | .implementation n => Config.domainInteger n .floor v

/-- `trunc(v)` (46_wav_serializer R232). -/
def trunc (N : NumDomain) (v : F64) : Int :=
  match N with
  | .binary64 => F64.trunc v
  | .implementation n => Config.domainInteger n .trunc v

/-- `max(a, b)` (R13). -/
def fmax (N : NumDomain) (a b : F64) : F64 :=
  match N with
  | .binary64 => F64.fmax a b
  | .implementation n => Config.domainBinary n .max a b

/-- `min(a, b)` (R13). -/
def fmin (N : NumDomain) (a b : F64) : F64 :=
  match N with
  | .binary64 => F64.fmin a b
  | .implementation n => Config.domainBinary n .min a b

/-- `clamp(v, lo, hi) = min(max(v, lo), hi)` (R13). -/
def clamp (N : NumDomain) (v lo hi : F64) : F64 := N.fmin (N.fmax v lo) hi

/-- The nearest integer, as a value of the domain (42_scanline_decoder R158). -/
def roundToInteger (N : NumDomain) (v : F64) : F64 :=
  match N with
  | .binary64 => F64.roundToInteger v
  | .implementation n => Config.domainNearest n v

/-- Rounds enough for the loop WRAP from the phase p (43_phase_accumulator R174): in binary64 each round takes more than 6 from the
phase. In another domain it is free how many suffice. -/
def wrapRounds (N : NumDomain) (p : F64) : Nat :=
  match N with
  | .binary64 => (F64.floor p).toNat / 6 + 1
  | .implementation n => Config.domainWrapRounds n p

end Sys2Proof.NumDomain
end

