-- ==== Sys2Proof/Machine/Constants.lean ====
section
/-! DEFINITION. The hardwired constants K of spec/10_state.md R42 to R47 and the constants of 43_phase_accumulator R174, as decimal
literals (00_scope R11). -/

namespace Sys2Proof.Machine

open Sys2Proof.F64

/-- WIDTH and HEIGHT (R44). -/
def width : Nat := 320
def height : Nat := 240

/-! R42: the estimator. -/
def kDcA : F64 := decimal 5 2
def kDcB : F64 := decimal 95 2
def kCycLo : Nat := 10
def kCycHi : Nat := 200
def kSmooth : F64 := decimal 5 1
def kBandLo : F64 := decimal 1100 0
def kBandHi : F64 := decimal 1300 0

/-! R43: the state machine. -/
def kStreakOn : Nat := 4
def kStreakOff : Nat := 2
def kWd : F64 := decimal 16 2
def kEr : F64 := decimal 14 2

/-! R44: the protocol timing descriptor, in seconds. -/
def tSync : F64 := decimal 9 3
def tPorch : F64 := decimal 3 3
def tSep : F64 := decimal 45 4
def tPorchUv : F64 := decimal 15 4
def tYScan : F64 := decimal 88 3
def tUvScan : F64 := decimal 44 3

/-! R45: the decoder's windows. The luma window's upper bound is the sum PORCH + Y_SCAN, one operation. -/
def kLumaHi (N : NumDomain) : F64 := N.add tPorch tYScan
def kUvLo : F64 := decimal 97 3
def kUvHi : F64 := decimal 141 3

/-! R46: colour to frequency. -/
def kF0 : F64 := decimal 1500 0
def kFspan : F64 := decimal 800 0
def kVmax : F64 := decimal 255 0

/-! R47: the encoder's tones (Hz) and the header's durations (s). -/
def fSync : F64 := decimal 1200 0
def fPorch : F64 := decimal 1500 0
def fSep : F64 := decimal 1500 0
def fPorchUv : F64 := decimal 1900 0
def fLeader : F64 := decimal 1900 0
def tLeader : F64 := decimal 3 1
def tBreak : F64 := decimal 1 2
def tStart : F64 := decimal 3 2

/-- The columns as an F64 factor (42 R153, R154; 44 R192). -/
def kWidth : F64 := decimal 320 0

/-- TWO_PI (43 R174): 2·PI with PI of 00_scope R14. -/
def twoPi : F64 := ⟨0x401921FB54442D18#64⟩

end Sys2Proof.Machine
end

