-- ==== Sys2Proof/Machine/Flags.lean ====
section
/-! DEFINITION. The status codes (spec/60_exceptions.md R250) and the one status predicate IN_BAND (spec/10_state.md R49). -/

namespace Sys2Proof.Machine

open Sys2Proof.F64

/-- The status codes that commands return (60 R250). -/
inductive Status where
  | ok
  | illegalCommand
  | configDimension
  | emptyBuffer
  | encBusyErr
deriving DecidableEq, Repr

/-- The 8-bit code of a status (60 R250). -/
def statusCode : Status → Byte
  | .ok => 0x00
  | .illegalCommand => 0x01
  | .configDimension => 0x02
  | .emptyBuffer => 0x03
  | .encBusyErr => 0x04

/-- IN_BAND (10_state R49): 1100 < currentFreq < 1300, both edges out. -/
def inBand (N : NumDomain) (freq : F64) : Bool := N.lt kBandLo freq && N.lt freq kBandHi

end Sys2Proof.Machine
end

