-- ==== Sys2Proof/Syntax.lean ====
section
/-! DEFINITION. What the host can send: the ten commands of spec/30_encoding.md R84, the operand slots of R80 and the moves of the
host and of the scheduler (20_memory R68, R70; 60_exceptions R252; 30_encoding R87). -/

namespace Sys2Proof

/-- The complete command set (30_encoding R84), one constructor for each row of spec/opcode_table.json. No constructor has
arguments, because no command takes an operand from its word (R83): operands stand in the slots of `Command`. -/
inductive Instr where
  /-- DEC_RESET (41 R140). -/
  | decReset
  /-- DEC_SET_RATE (41 R131). -/
  | decSetRate
  /-- DEC_SAMPLE (41 R120). -/
  | decSample
  /-- ENC_ENCODE (44 R190). -/
  | encEncode
  /-- ENC_CANCEL (44 R198). -/
  | encCancel
  /-- CVT_RGB2YUV (45 R214). -/
  | cvtRgb2yuv
  /-- CVT_YUV2RGB (45 R215). -/
  | cvtYuv2rgb
  /-- CVT_VAL2FREQ (45 R216). -/
  | cvtVal2freq
  /-- CVT_FREQ2VAL (45 R217). -/
  | cvtFreq2val
  /-- WAV_SERIALIZE (46 R231). -/
  | wavSerialize
deriving DecidableEq, Repr

/-- `RGB` of 00_scope R11: a triple of F64. -/
structure RGB where
  r : F64
  g : F64
  b : F64
deriving DecidableEq, Repr

/-- The bulk operand B0 (30_encoding R80): a raster (rows of triples; the components are any F64, since 60 R258 refuses those that
are no integer in 0..255) or a sample sequence. `none` is a slot that holds nothing. -/
inductive Bulk where
  | none
  | raster (rows : List (List RGB))
  | samples (s : List F64)
deriving DecidableEq, Repr

/-- One command as the host presents it: the word CMD and the operand slots A0, A1, A2, B0 (30_encoding R80). -/
structure Command where
  word : CmdWord
  a0 : F64
  a1 : F64
  a2 : F64
  b0 : Bulk
deriving DecidableEq, Repr

/-- What happens next at the codec core's boundary: the host issues a command (20_memory R68), the scheduler gives the encoder one
of its own steps (R70), the host removes the oldest event record (60 R252), or the host waits with `WAIT ENC_DONE` (30 R87). -/
inductive HostMove where
  | command (c : Command)
  | encStep
  | readEvent
  | waitEncDone
deriving DecidableEq, Repr

end Sys2Proof
end

