-- ==== Sys2Proof/Machine/State.lean ====
section
/-! DEFINITION. The state of the codec core (spec/10_state.md R20 to R41, 60_exceptions R252, R259), the reasons a step can stop, and
the power-on state (70_reset_and_hazards R280). Plain data throughout. -/

namespace Sys2Proof.Machine

/-- SyncState (10_state R27); the numeric encoding 0, 1, 2 is the order of the constructors. -/
inductive SyncState where
  | searchingSync
  | waitSyncEnd
  | scanning
deriving DecidableEq, Repr

/-- An index space (20_memory R60, R62) by its contents: (index, cell) pairs with indices strictly rising and no cell equal to what
an unlisted index reads as. That default is an argument of every operation (Machine/Ops.lean). -/
abbrev Cells (α : Type) := List (Nat × α)

/-- One cell of ENC_RASTER (10_state R36): a triple of Nat in 0..255. -/
structure Pixel where
  r : Nat
  g : Nat
  b : Nat
deriving DecidableEq, Repr

/-- The decoder's arrays (10_state R30 to R33): LUMA, CR and CB by column, IMG by row and then column. An unlisted column of LUMA, CR
or CB is 0.0, an unlisted row of IMG is black, an unlisted cell of a row is (0.0, 0.0, 0.0): the reset contents of 70 R280. -/
structure Memory where
  luma : Cells F64
  cr : Cells F64
  cb : Cells F64
  img : Cells (Cells RGB)
deriving DecidableEq, Repr

/-- The decoder agent's state: DR0..DR8 and the arrays (10_state R21 to R33). -/
structure Decoder where
  /-- DR0 DEC_SR; `none` is UNSET (R21). -/
  sr : Option F64
  /-- DR1 (R22). -/
  dcOffset : F64
  /-- DR2 (R23). -/
  previousValue : F64
  /-- DR3 (R24). -/
  samplesSinceCrossing : Nat
  /-- DR4 (R25). -/
  currentFreq : F64
  /-- DR5 (R26). -/
  syncStreak : Nat
  /-- DR6 (R27). -/
  syncState : SyncState
  /-- DR7 (R28). -/
  samplesSinceLineStart : Nat
  /-- DR8 (R29). -/
  currentLine : Nat
  /-- LUMA, CR, CB, IMG (R30 to R33). -/
  mem : Memory
deriving DecidableEq, Repr

/-- The encoder agent's state: ER0..ER7 (10_state R34 to R41). -/
structure Encoder where
  /-- ER0 ENC_BUSY (R34). -/
  busy : Bool
  /-- ER1 ENC_SR (R35). -/
  sr : F64
  /-- ER2 ENC_RASTER (R36), by row and then column; an unlisted row or cell is (0, 0, 0). -/
  raster : Cells (Cells Pixel)
  /-- ER3 currentSampleIndex (R37). -/
  sampleIndex : Nat
  /-- ER4 (R38). -/
  phase : F64
  /-- ER5 (R39). -/
  elapsed : F64
  /-- ER6 SEQ, first component (R40). -/
  segIndex : Nat
  /-- ER6 SEQ, second component (R40). -/
  segRemaining : Nat
  /-- ER7 ENC_OUT (R41), the newest sample first; the sequence itself is its reverse (`Encoder.out`). -/
  outRev : List F64
deriving DecidableEq, Repr

/-- ENC_OUT as the sequence of R41, the oldest sample first. -/
def Encoder.out (e : Encoder) : List F64 := e.outRev.reverse

/-- The event records (60_exceptions R252). -/
inductive Event where
  | lineStart (line : Nat)
  | pixel (x y : Nat) (c : RGB)
  | frameComplete (raster : Cells (Cells RGB))
  | progress (lineIndex height : Nat)
  | encDone (samples : List F64)
deriving DecidableEq, Repr

/-- The reasons of 60_exceptions R256 and R258 for which the spec gives a command no meaning; kept by the REFUSED mark (R259). -/
inductive RefusalReason where
  | refRate
  | refRateUnset
  | refSampleRange
  | refRasterValue
  | refCvtOperand
  | refWavRate
  | refWavSize
  | refWavSample
deriving DecidableEq, Repr

/-- The response channel (30_encoding R80). -/
structure Response where
  status : Byte
  q0 : F64
  q1 : F64
  q2 : F64
  bq : List Byte
deriving DecidableEq, Repr

/-- Why the machine stops. None of these is reached from a state that keeps the invariants of Safety.lean. -/
inductive Fault where
  /-- An index outside its array (20_memory R62, 60 R262): raised by the cell read and write of Machine/Ops.lean. Safe: the spec
  itself records a fault here that no later step clears. -/
  | indexOutOfRange (bound index : Nat)
  /-- The busy encoder's segIndex is past the last segment 154,563 (44 R192): raised by ENC_STEP. Safe: the table has no such row. -/
  | segmentOutOfRange (segIndex : Nat)
  /-- The loop WRAP of 43 R174 does not end, or not within the rounds that a domain other than binary64 takes
  (notes/assumptions/14.md): raised by OSC_STEP. Safe: the spec's own loop has no result where it does not end. -/
  | wrapDiverges
deriving DecidableEq, Repr

/-- Why the model gives an instruction no meaning. -/
inductive Refusal where
  /-- An instruction whose meaning is not written: raised by an arm of `exec` only. Safe. No arm raises it. -/
  | notModelled (mnemonic : String)
deriving DecidableEq, Repr

/-- The whole state (10_state R20), with the model's own fields last. -/
structure State where
  /-- The configuration (00_scope R9); no step changes it. -/
  cfg : Config
  /-- The decoder agent (R21 to R33). -/
  dec : Decoder
  /-- The encoder agent (R34 to R41). -/
  enc : Encoder
  /-- The event port, oldest record first (60 R252). -/
  events : List Event
  /-- REFUSED (60 R259). -/
  refused : Option RefusalReason
  /-- The model's own: what the host and the scheduler do next (notes/assumptions/1.md, 2.md). -/
  script : List HostMove
  /-- The model's own: the command channel as last presented (30_encoding R80). -/
  cmd : Command
  /-- The model's own: the response channel after the last command (30_encoding R80). -/
  resp : Option Response
  /-- The model's own: the ENC_CANCEL status that ends the last encode has been returned, which is what `WAIT ENC_DONE` waits for when
  no ENC_DONE is to come (30_encoding R87; DEDUCED, notes/assumptions/3.md). No command reads it. -/
  cancelled : Bool
  /-- The model's own: which free values the next response takes (notes/assumptions/7.md). -/
  freeIndex : Nat
deriving DecidableEq, Repr

/-- The arrays after power-on: every cell 0.0, every pixel (0.0, 0.0, 0.0) (70 R280). -/
def Memory.reset : Memory := { luma := [], cr := [], cb := [], img := [] }

/-- The decoder after power-on (70 R280). -/
def Decoder.reset : Decoder where
  sr := none
  dcOffset := F64.zero
  previousValue := F64.zero
  samplesSinceCrossing := 0
  currentFreq := F64.zero
  syncStreak := 0
  syncState := .searchingSync
  samplesSinceLineStart := 0
  currentLine := 0
  mem := Memory.reset

/-- The encoder after power-on (70 R280). ER1..ER6 are open there (93 I1): DESIGN CHOICE zero, notes/assumptions/8.md. -/
def Encoder.reset : Encoder where
  busy := false
  sr := F64.zero
  raster := []
  sampleIndex := 0
  phase := F64.zero
  elapsed := F64.zero
  segIndex := 0
  segRemaining := 0
  outRev := []

/-- An empty command channel: DESIGN CHOICE, notes/assumptions/1.md. -/
def emptyCommand : Command := { word := 0#32, a0 := F64.zero, a1 := F64.zero, a2 := F64.zero, b0 := .none }

/-- The power-on state (70 R280). No encode has been cancelled yet. -/
def State.reset : State where
  cfg := Config.standard
  dec := Decoder.reset
  enc := Encoder.reset
  events := []
  refused := none
  script := []
  cmd := emptyCommand
  resp := none
  cancelled := false
  freeIndex := 0

end Sys2Proof.Machine
end

