-- ==== Sys2Proof/Machine/Ops.lean ====
section
/-! DEFINITION. The named operations on the arrays, the event port and the response channel: cell reads and writes
(spec/20_memory.md R62), `emit` (00_scope R14, 60_exceptions R252), and the ends of a command: OK with results, an error status
(60 R250) and a refusal (60 R259). The codec core has no trap mechanism and so no exception entry or return (60 R257); an error
status is the whole of it. -/

namespace Sys2Proof.Machine

/-! ## Index spaces -/

/-- The cell at index `i`; an unlisted one reads as `dflt`. -/
def cellsGet {α : Type} (dflt : α) (c : Cells α) (i : Nat) : α :=
  match c with
  | [] => dflt
  | (j, v) :: rest => if i = j then v else cellsGet dflt rest i

/-- The entry for cell `i` put in front, unless it is the default one. -/
def cellsCons {α : Type} [DecidableEq α] (dflt : α) (i : Nat) (v : α) (rest : Cells α) : Cells α :=
  if v = dflt then rest else (i, v) :: rest

/-- Cell `i` set to `v`, in canonical form: the default value removes the entry. -/
def cellsSet {α : Type} [DecidableEq α] (dflt : α) (c : Cells α) (i : Nat) (v : α) : Cells α :=
  match c with
  | [] => cellsCons dflt i v []
  | (j, u) :: rest =>
    if i < j then cellsCons dflt i v ((j, u) :: rest)
    else if i = j then cellsCons dflt i v rest
    else (j, u) :: cellsSet dflt rest i v

/-- The canonical form with every index at least `lo` and below `bound`, and every value passing `ok`. -/
def cellsWf {α : Type} [DecidableEq α] (dflt : α) (bound : Nat) (ok : α → Bool) (lo : Nat) (c : Cells α) : Bool :=
  match c with
  | [] => true
  | (i, v) :: rest =>
    decide (lo ≤ i) && decide (i < bound) && decide (v ≠ dflt) && ok v && cellsWf dflt bound ok (i + 1) rest

/-- `MemRead(A, i)` on an array of `bound` cells (20_memory R62): an index outside faults. -/
def memRead {α : Type} (bound : Nat) (dflt : α) (c : Cells α) (i : Nat) : Except Fault α :=
  if i < bound then .ok (cellsGet dflt c i) else .error (.indexOutOfRange bound i)

/-- `MemWrite(A, i, v)` on an array of `bound` cells (20_memory R62): an index outside faults. -/
def memWrite {α : Type} [DecidableEq α] (bound : Nat) (dflt : α) (c : Cells α) (i : Nat) (v : α) : Except Fault (Cells α) :=
  if i < bound then .ok (cellsSet dflt c i v) else .error (.indexOutOfRange bound i)

/-- The pixel an unlisted cell of IMG holds (10_state R33). -/
def black : RGB := ⟨F64.zero, F64.zero, F64.zero⟩

/-- The pixel an unlisted cell of ENC_RASTER holds. -/
def blackPixel : Pixel := ⟨0, 0, 0⟩

/-- `IMG[y][x]` (10_state R33, 20_memory R60). -/
def readImg (img : Cells (Cells RGB)) (x y : Nat) : Except Fault RGB := do
  let row ← memRead height [] img y
  memRead width black row x

/-- `IMG[y][x] <- c` (42 R157, 20_memory R62): the three channels in one write (R65). -/
def writeImg (img : Cells (Cells RGB)) (x y : Nat) (c : RGB) : Except Fault (Cells (Cells RGB)) := do
  let row ← memRead height [] img y
  let row' ← memWrite width black row x c
  memWrite height [] img y row'

/-- `ENC_RASTER[y][x]` (10_state R36, 44 R193). -/
def readRaster (raster : Cells (Cells Pixel)) (x y : Nat) : Except Fault Pixel := do
  let row ← memRead height [] raster y
  memRead width blackPixel row x

/-- A row of cells from its list of values, the first at index `i`. -/
def cellsOfList {α : Type} [DecidableEq α] (dflt : α) (i : Nat) : List α → Cells α
  | [] => []
  | v :: rest => cellsCons dflt i v (cellsOfList dflt (i + 1) rest)

/-- The canonical form of a decoder's arrays, whatever the values: indices strictly rising and in bounds, no default listed. -/
def Memory.wf (m : Memory) : Bool :=
  cellsWf F64.zero width (fun _ => true) 0 m.luma && cellsWf F64.zero width (fun _ => true) 0 m.cr
    && cellsWf F64.zero width (fun _ => true) 0 m.cb
    && cellsWf [] height (cellsWf black width (fun _ => true) 0) 0 m.img

/-- The canonical form of ENC_RASTER with every component in 0..255 (10_state R36). -/
def rasterWf (raster : Cells (Cells Pixel)) : Bool :=
  cellsWf [] height
    (cellsWf blackPixel width (fun p => decide (p.r ≤ 255) && decide (p.g ≤ 255) && decide (p.b ≤ 255)) 0) 0 raster

/-! ## The event port -/

/-- `emit` (00_scope R14): the records go to the tail of the port, in order (60 R252). -/
def State.emit (s : State) (es : List Event) : State := { s with events := s.events ++ es }

/-! ## The ends of a command -/

/-- A response in which every slot is unspecified (93 I2, I7): the free values number `n`. -/
def freeResponse (n : Nat) : Response where
  status := Config.freeStatus n
  q0 := Config.freeResult n 0
  q1 := Config.freeResult n 1
  q2 := Config.freeResult n 2
  bq := Config.freeBytes n

/-- The command's response on the response channel (30_encoding R80): `fill` sets the slots the command defines and leaves the
others unspecified (93 I7). -/
def State.respond (s : State) (fill : Response → Response) : State :=
  { s with resp := some (fill (freeResponse s.freeIndex)), freeIndex := s.freeIndex + 1 }

/-- `status <- st` (00_scope R14) with no result slot defined. -/
def State.returns (s : State) (st : Status) : State := s.respond fun r => { r with status := statusCode st }

/-- `status <- OK` with Q0 defined (45 R216, R217). -/
def State.returnsQ0 (s : State) (q0 : F64) : State := s.respond fun r => { r with status := statusCode .ok, q0 := q0 }

/-- `status <- OK` with Q0, Q1, Q2 defined (45 R214, R215). -/
def State.returnsQ (s : State) (q0 q1 q2 : F64) : State :=
  s.respond fun r => { r with status := statusCode .ok, q0 := q0, q1 := q1, q2 := q2 }

/-- `status <- OK` with BQ defined (46 R231). -/
def State.returnsBytes (s : State) (bq : List Byte) : State :=
  s.respond fun r => { r with status := statusCode .ok, bq := bq }

/-- `raise st` (00_scope R14, 60 R250): the error status is returned and no other state changes. -/
def State.raise (s : State) (st : Status) : State := s.returns st

/-- The REFUSED mark after one more refusal: the first reason is kept (60 R259). -/
def markRefused (old : Option RefusalReason) (why : RefusalReason) : Option RefusalReason :=
  match old with
  | some r => some r
  | none => some why

/-- `refuse(why)` (00_scope R14, 60 R259): the mark, and a response in which even STATUS is unspecified (93 I2). -/
def State.refuse (s : State) (why : RefusalReason) : State :=
  { s.respond id with refused := markRefused s.refused why }

end Sys2Proof.Machine
end

