-- ==== Sys2Proof/Machine/Operands.lean ====
section
/-! DEFINITION. Operand forms: what the slots A0, A1, A2, B0 must hold for a command to be admitted (spec/60_exceptions.md R253,
R254, R258) and how a Nat or a raster is read from them (spec/30_encoding.md R83). -/

namespace Sys2Proof.Machine

open Sys2Proof.F64

/-- sr is an element of SR_ADMIT (00_scope R9, 60 R258). -/
def srAdmitted (cfg : Config) (sr : F64) : Bool := sr.isFinite && cfg.srAdmit.any fun i => within i.1 i.2 sr

/-- A finite F64 in [-1, 1] (60 R258: raw of DEC_SAMPLE, a sample of WAV_SERIALIZE). -/
def unitSample (v : F64) : Bool := v.isFinite && within (neg F64.one) F64.one v

/-- The bound 65536 of decision D44, by the bits that 95_test_vectors V10 gives it. -/
def kCvtMax : F64 := ⟨0x40F0000000000000#64⟩

/-- A finite F64 of magnitude at most 65536 (60 R258: CVT_*). -/
def cvtOperand (v : F64) : Bool := v.isFinite && within (neg kCvtMax) kCvtMax v

/-- The value of an F64 that holds a natural number (30 R83: the exact conversion). -/
def natOf (v : F64) : Option Nat :=
  if v.isInteger && decide (0 ≤ v.units) then some (v.units / (unitsPerOne : Int)).toNat else none

/-- The rate of WAV_SERIALIZE: an integer in 1..2147483647 (60 R258). -/
def wavRate (v : F64) : Option Nat :=
  match natOf v with
  | some n => if 1 ≤ n ∧ n ≤ 2147483647 then some n else none
  | none => none

/-- A raster component: an integer in 0..255 (60 R258). -/
def byteComponent (v : F64) : Option Nat :=
  match natOf v with
  | some n => if n ≤ 255 then some n else none
  | none => none

/-- A raster triple as the Nat triple ENC_RASTER holds (10_state R36); `none` where a component is not admitted. -/
def pixelOf (c : RGB) : Option Pixel :=
  match byteComponent c.r, byteComponent c.g, byteComponent c.b with
  | some r, some g, some b => some ⟨r, g, b⟩
  | _, _, _ => none

/-- Every element converted, or none where one of them is not admitted. -/
def convertAll {α β : Type} (f : α → Option β) : List α → Option (List β)
  | [] => some []
  | a :: rest =>
    match f a, convertAll f rest with
    | some b, some bs => some (b :: bs)
    | _, _ => none

/-- Exactly 240 rows of exactly 320 triples (60 R253). -/
def rasterShape (rows : List (List RGB)) : Bool :=
  decide (rows.length = height) && rows.all fun row => decide (row.length = width)

/-- `copy(raster)` of 44 R190, or none where a component is no integer in 0..255 (60 R258). -/
def rasterCells (rows : List (List RGB)) : Option (Cells (Cells Pixel)) :=
  match convertAll (convertAll pixelOf) rows with
  | some pixels => some (cellsOfList [] 0 (pixels.map (cellsOfList blackPixel 0)))
  | none => none

/-- B0 read as a raster. A B0 that holds no raster has no rows (DESIGN CHOICE, notes/assumptions/11.md). -/
def bulkRaster : Bulk → List (List RGB)
  | .raster rows => rows
  | .samples _ => []
  | .none => []

/-- B0 read as a sample sequence. A B0 that holds no samples is the empty sequence (DESIGN CHOICE, notes/assumptions/11.md). -/
def bulkSamples : Bulk → List F64
  | .samples s => s
  | .raster _ => []
  | .none => []

end Sys2Proof.Machine
end

