-- ==== Sys2Proof/Machine/Color.lean ====
section
/-! DEFINITION. The colour converter and the frequency maps (spec/45_color_converter.md R210 to R213) and their commands (R214 to
R217). -/

namespace Sys2Proof.Machine

open Sys2Proof.F64

/-- A luma or chroma triple, in the order (y, cb, cr) of R210. -/
structure YUV where
  y : F64
  cb : F64
  cr : F64
deriving DecidableEq, Repr

/-- The coefficient -37.797 of R210: the literal negated. -/
def kCbR : F64 := neg (decimal 37797 3)

/-- `y` of RGB2YUV (R210). -/
def lumaOf (N : NumDomain) (r g b : F64) : F64 :=
  N.add (decimal 16 0)
    (N.div (N.add (N.add (N.mul (decimal 65481 3) r) (N.mul (decimal 128553 3) g)) (N.mul (decimal 24966 3) b)) kVmax)

/-- `cb` of RGB2YUV (R210). -/
def cbOf (N : NumDomain) (r g b : F64) : F64 :=
  N.add (decimal 128 0)
    (N.div (N.add (N.sub (N.mul kCbR r) (N.mul (decimal 74203 3) g)) (N.mul (decimal 1120 1) b)) kVmax)

/-- `cr` of RGB2YUV (R210). -/
def crOf (N : NumDomain) (r g b : F64) : F64 :=
  N.add (decimal 128 0)
    (N.div (N.sub (N.sub (N.mul (decimal 1120 1) r) (N.mul (decimal 93786 3) g)) (N.mul (decimal 18214 3) b)) kVmax)

/-- `RGB2YUV(R, G, B)` (R210). -/
def rgb2yuv (N : NumDomain) (r g b : F64) : YUV := { y := lumaOf N r g b, cb := cbOf N r g b, cr := crOf N r g b }

/-- `clamp(v, 0, 255)` (00_scope R13). -/
def clampByte (N : NumDomain) (v : F64) : F64 := N.clamp v F64.zero kVmax

/-- `YUV2RGB(Y, Cb, Cr)` (R211). -/
def yuv2rgb (N : NumDomain) (y cb cr : F64) : RGB where
  r := clampByte N (N.add y (N.mul (decimal 1402 3) (N.sub cr (decimal 128 0))))
  g := clampByte N
    (N.sub (N.sub y (N.mul (decimal 344 3) (N.sub cb (decimal 128 0)))) (N.mul (decimal 714 3) (N.sub cr (decimal 128 0))))
  b := clampByte N (N.add y (N.mul (decimal 1772 3) (N.sub cb (decimal 128 0))))

/-- `VAL2FREQ(v) = 1500 + (v * (800 / 255))` (R212). -/
def val2freq (N : NumDomain) (v : F64) : F64 := N.add kF0 (N.mul v (N.div kFspan kVmax))

/-- `FREQ2VAL(f) = clamp(((f - 1500) / 800) * 255, 0, 255)` (R213). -/
def freq2val (N : NumDomain) (f : F64) : F64 := clampByte N (N.mul (N.div (N.sub f kF0) kFspan) kVmax)

/-- CVT_RGB2YUV (R214). -/
def execCvtRgb2yuv (s : State) : Host.Outcome State Fault Refusal :=
  if cvtOperand s.cmd.a0 && cvtOperand s.cmd.a1 && cvtOperand s.cmd.a2 then
    let c := rgb2yuv s.cfg.num s.cmd.a0 s.cmd.a1 s.cmd.a2
    .next (s.returnsQ c.y c.cb c.cr)
  else .next (s.refuse .refCvtOperand)

/-- CVT_YUV2RGB (R215). -/
def execCvtYuv2rgb (s : State) : Host.Outcome State Fault Refusal :=
  if cvtOperand s.cmd.a0 && cvtOperand s.cmd.a1 && cvtOperand s.cmd.a2 then
    let c := yuv2rgb s.cfg.num s.cmd.a0 s.cmd.a1 s.cmd.a2
    .next (s.returnsQ c.r c.g c.b)
  else .next (s.refuse .refCvtOperand)

/-- CVT_VAL2FREQ (R216); A1 and A2 are not checked (60 R258). -/
def execCvtVal2freq (s : State) : Host.Outcome State Fault Refusal :=
  if cvtOperand s.cmd.a0 then .next (s.returnsQ0 (val2freq s.cfg.num s.cmd.a0)) else .next (s.refuse .refCvtOperand)

/-- CVT_FREQ2VAL (R217); A1 and A2 are not checked (60 R258). -/
def execCvtFreq2val (s : State) : Host.Outcome State Fault Refusal :=
  if cvtOperand s.cmd.a0 then .next (s.returnsQ0 (freq2val s.cfg.num s.cmd.a0)) else .next (s.refuse .refCvtOperand)

end Sys2Proof.Machine
end

