-- ==== Sys2Proof/Machine/Estimator.lean ====
section
/-! DEFINITION. The FM frequency demodulator EST (spec/40_frequency_estimator.md R100 to R107). Each step reads what the step before
it wrote. -/

namespace Sys2Proof.Machine

open Sys2Proof.F64

/-- The new dcOffset of DC_BLOCK (R102): three operations of NUM, in this order. -/
def dcBlockOffset (N : NumDomain) (raw dcOffset : F64) : F64 := N.add (N.mul raw kDcA) (N.mul dcOffset kDcB)

/-- DC_BLOCK's write (R102). -/
def dcBlock (N : NumDomain) (raw : F64) (d : Decoder) : Decoder := { d with dcOffset := dcBlockOffset N raw d.dcOffset }

/-- DC_BLOCK's result `filtered`, from the NEW dcOffset (R102); a temporary of this tick. -/
def filteredValue (N : NumDomain) (raw : F64) (d : Decoder) : F64 := N.sub raw d.dcOffset

/-- COUNT (R103). -/
def countSample (d : Decoder) : Decoder := { d with samplesSinceCrossing := d.samplesSinceCrossing + 1 }

/-- The new currentFreq of FREQ_UPDATE for an accepted period (R105): one division, then the 0.5-smoothing. -/
def smoothedFreq (N : NumDomain) (sr currentFreq : F64) (cycles : Nat) : F64 :=
  N.add (N.mul currentFreq kSmooth) (N.mul (N.div sr (N.ofNat cycles)) kSmooth)

/-- FREQ_UPDATE (R105): both bounds are strict. -/
def freqUpdate (N : NumDomain) (sr : F64) (cycles : Nat) (d : Decoder) : Decoder :=
  if kCycLo < cycles ∧ cycles < kCycHi then { d with currentFreq := smoothedFreq N sr d.currentFreq cycles } else d

/-- The rising-crossing test (R104): filtered > 0 and previousValue <= 0. -/
def risingCrossing (N : NumDomain) (filtered previousValue : F64) : Bool := N.lt F64.zero filtered && N.le previousValue F64.zero

/-- The crossing branch of CROSS (R104): the frequency update, then the period counter to 0, accepted or not. -/
def crossed (N : NumDomain) (sr : F64) (d : Decoder) : Decoder :=
  { freqUpdate N sr d.samplesSinceCrossing d with samplesSinceCrossing := 0 }

/-- CROSS (R104): previousValue is written on every tick, after the test. -/
def cross (N : NumDomain) (sr filtered : F64) (d : Decoder) : Decoder :=
  { (if risingCrossing N filtered d.previousValue then crossed N sr d else d) with previousValue := filtered }

/-- BAND (R106). -/
def band (N : NumDomain) (d : Decoder) : Decoder := { d with syncStreak := if inBand N d.currentFreq then d.syncStreak + 1 else 0 }

/-- The estimator step EST (R100), with DEC_SR = sr. -/
def est (N : NumDomain) (sr raw : F64) (d : Decoder) : Decoder :=
  let d1 := dcBlock N raw d
  band N (cross N sr (filteredValue N raw d1) (countSample d1))

end Sys2Proof.Machine
end

