-- ==== Sys2Proof/Machine/Scanline.lean ====
section
/-! DEFINITION. The YUV colour decoder SCAN (spec/42_scanline_decoder.md R150 to R158). Its result is the new decoder and the events
it emits; an index out of an array's bounds faults (20_memory R62). -/

namespace Sys2Proof.Machine

open Sys2Proof.F64

/-- The luma window PORCH < t < PORCH + Y_SCAN (R152). -/
def inLumaWindow (N : NumDomain) (t : F64) : Bool := N.lt tPorch t && N.lt t (kLumaHi N)

/-- The chroma window 0.097 < t < 0.141 (R152). -/
def inChromaWindow (N : NumDomain) (t : F64) : Bool := N.lt kUvLo t && N.lt t kUvHi

/-- The luma column (R153): three operations, then floor. -/
def lumaColumn (N : NumDomain) (t : F64) : Int := N.floor (N.mul (N.div (N.sub t tPorch) tYScan) kWidth)

/-- The chroma column (R154). -/
def chromaColumn (N : NumDomain) (t : F64) : Int := N.floor (N.mul (N.div (N.sub t kUvLo) tUvScan) kWidth)

/-- The range test "if in range": 0 <= x < WIDTH (R153, R154). -/
def columnInRange (x : Int) : Bool := decide (0 ≤ x) && decide (x < (width : Int))

/-- Q (R158): the identity, or each channel to the nearest integer, ties to even. -/
def quantise (N : NumDomain) (q : PixelQuant) (c : RGB) : RGB :=
  match q with
  | .none => c
  | .roundToByte => ⟨N.roundToInteger c.r, N.roundToInteger c.g, N.roundToInteger c.b⟩

/-- The luma write (R153). -/
def lumaWrite (m : Memory) (x : Nat) (val : F64) : Except Fault Memory := do
  let luma ← memWrite width F64.zero m.luma x val
  .ok { m with luma := luma }

/-- The chroma write by line parity (R155): Cr on an even line, Cb on an odd one. -/
def chromaWrite (m : Memory) (line x : Nat) (val : F64) : Except Fault Memory :=
  if line % 2 = 0 then do
    let cr ← memWrite width F64.zero m.cr x val
    .ok { m with cr := cr }
  else do
    let cb ← memWrite width F64.zero m.cb x val
    .ok { m with cb := cb }

/-- Pixel reconstruction from the three buffers at column x (R156). -/
def reconstruct (N : NumDomain) (m : Memory) (x : Nat) : Except Fault RGB := do
  let y ← memRead width F64.zero m.luma x
  let cb ← memRead width F64.zero m.cb x
  let cr ← memRead width F64.zero m.cr x
  .ok (yuv2rgb N y cb cr)

/-- PIXEL_WRITE (R157): the raster cell and the event. -/
def pixelWrite (m : Memory) (x y : Nat) (c : RGB) : Except Fault (Memory × List Event) := do
  let img ← writeImg m.img x y c
  .ok ({ m with img := img }, [.pixel x y c])

/-- The chroma window's work at column x (R155 to R157). -/
def chromaPixel (cfg : Config) (m : Memory) (line x : Nat) (val : F64) : Except Fault (Memory × List Event) := do
  let m1 ← chromaWrite m line x val
  let c ← reconstruct cfg.num m1 x
  pixelWrite m1 x line (quantise cfg.num cfg.pixelQuant c)

/-- SCAN on the arrays (R150): the chroma window is tested only when the luma window fails. -/
def scanMemory (cfg : Config) (t freq : F64) (line : Nat) (m : Memory) : Except Fault (Memory × List Event) :=
  if inLumaWindow cfg.num t then
    if columnInRange (lumaColumn cfg.num t) then do
      let m' ← lumaWrite m (lumaColumn cfg.num t).toNat (freq2val cfg.num freq)
      .ok (m', [])
    else .ok (m, [])
  else if inChromaWindow cfg.num t then
    if columnInRange (chromaColumn cfg.num t) then chromaPixel cfg m line (chromaColumn cfg.num t).toNat (freq2val cfg.num freq)
    else .ok (m, [])
  else .ok (m, [])

/-- SCAN(t, freq) (R150). -/
def scan (cfg : Config) (t freq : F64) (d : Decoder) : Except Fault (Decoder × List Event) := do
  let (m, es) ← scanMemory cfg t freq d.currentLine d.mem
  .ok ({ d with mem := m }, es)

end Sys2Proof.Machine
end

