-- ==== Sys2Proof/Machine/SyncMachine.lean ====
section
/-! DEFINITION. The sync state machine FSM (spec/41_sync_state_machine.md R121 to R128) and the sample tick (R120). -/

namespace Sys2Proof.Machine

open Sys2Proof.F64

/-- ARM_SEARCH (R123). -/
def armSearch (d : Decoder) : Decoder := if d.syncStreak > kStreakOn then { d with syncState := .waitSyncEnd } else d

/-- ARM_WAIT (R124). -/
def armWait (d : Decoder) : Decoder × List Event :=
  if d.syncStreak < kStreakOff then
    ({ d with syncState := .scanning, samplesSinceLineStart := 0 }, [.lineStart d.currentLine])
  else (d, [])

/-- WATCHDOG (R127): FRAME_COMPLETE carries the raster as it is at this moment. -/
def watchdog (d : Decoder) : Decoder × List Event :=
  if d.currentLine + 1 ≥ height then
    ({ d with currentLine := 0, syncState := .searchingSync }, [.frameComplete d.mem.img])
  else ({ d with currentLine := d.currentLine + 1, syncState := .searchingSync }, [])

/-- EARLY_RESYNC (R128): no event, even when the line wraps. -/
def earlyResync (d : Decoder) : Decoder :=
  { d with syncState := .waitSyncEnd, currentLine := (d.currentLine + 1) % height }

/-- The watchdog condition (R125): one product, then an exact comparison. -/
def watchdogDue (N : NumDomain) (sr : F64) (sls : Nat) : Bool := N.natGt sls (N.mul kWd sr)

/-- The early-resync condition (R125), tested only when the watchdog condition is false. -/
def earlyResyncDue (N : NumDomain) (sr : F64) (sls streak : Nat) : Bool := N.natGt sls (N.mul kEr sr) && decide (streak > kStreakOn)

/-- The end of ARM_SCAN (R125): watchdog, else early resync, else nothing; with the events SCAN emitted before it. -/
def lineEnd (N : NumDomain) (sr : F64) (d : Decoder) : Decoder × List Event :=
  if watchdogDue N sr d.samplesSinceLineStart then watchdog d
  else if earlyResyncDue N sr d.samplesSinceLineStart d.syncStreak then (earlyResync d, [])
  else (d, [])

/-- The time since the line start (R126): one division. -/
def lineTime (N : NumDomain) (sr : F64) (sls : Nat) : F64 := N.div (N.ofNat sls) sr

/-- The counter step of ARM_SCAN (R126). -/
def countLine (d : Decoder) : Decoder := { d with samplesSinceLineStart := d.samplesSinceLineStart + 1 }

/-- ARM_SCAN (R125, R126). -/
def armScan (cfg : Config) (sr : F64) (d : Decoder) : Except Fault (Decoder × List Event) := do
  let d1 := countLine d
  let (d2, es) ← scan cfg (lineTime cfg.num sr d1.samplesSinceLineStart) d1.currentFreq d1
  let (d3, es') := lineEnd cfg.num sr d2
  .ok (d3, es ++ es')

/-- FSM (R122): exactly one arm, that of syncState when FSM begins. -/
def fsm (cfg : Config) (sr : F64) (d : Decoder) : Except Fault (Decoder × List Event) :=
  match d.syncState with
  | .searchingSync => .ok (armSearch d, [])
  | .waitSyncEnd => .ok (armWait d)
  | .scanning => armScan cfg sr d

/-- One sample tick of an admitted DEC_SAMPLE (R120): the estimator, then the state machine. -/
def sampleTick (cfg : Config) (sr raw : F64) (d : Decoder) : Except Fault (Decoder × List Event) := fsm cfg sr (est cfg.num sr raw d)

end Sys2Proof.Machine
end

