-- ==== Sys2Proof/Machine/Decoder.lean ====
section
/-! DEFINITION. The decoder's commands DEC_SAMPLE, DEC_SET_RATE and DEC_RESET (spec/41_sync_state_machine.md R120, R131, R140). -/

namespace Sys2Proof.Machine

/-- DEC_SAMPLE (R120), with the refusals in the order of 60 R256. -/
def execDecSample (s : State) : Host.Outcome State Fault Refusal :=
  match s.dec.sr with
  | none => .next (s.refuse .refRateUnset)
  | some sr =>
    if unitSample s.cmd.a0 then
      match sampleTick s.cfg sr s.cmd.a0 s.dec with
      | .ok (d, es) => .next ({ s.emit es with dec := d }.returns .ok)
      | .error f => .fault f
    else .next (s.refuse .refSampleRange)

/-- DEC_SET_RATE (R131): only DEC_SR is written. -/
def execDecSetRate (s : State) : Host.Outcome State Fault Refusal :=
  if srAdmitted s.cfg s.cmd.a0 then .next ({ s with dec := { s.dec with sr := some s.cmd.a0 } }.returns .ok)
  else .next (s.refuse .refRate)

/-- The decoder after DEC_RESET (R140, 70 R281): the power-on values but for DEC_SR, and but for LUMA, CR and CB where
RESET_KEEPS_BUFFERS holds. -/
def decoderReset (keepsBuffers : Bool) (d : Decoder) : Decoder where
  sr := d.sr
  dcOffset := F64.zero
  previousValue := F64.zero
  samplesSinceCrossing := 0
  currentFreq := F64.zero
  syncStreak := 0
  syncState := .searchingSync
  samplesSinceLineStart := 0
  currentLine := 0
  mem := if keepsBuffers then { d.mem with img := [] } else Memory.reset

/-- DEC_RESET (R140). -/
def execDecReset (s : State) : Host.Outcome State Fault Refusal :=
  .next ({ s with dec := decoderReset s.cfg.resetKeepsBuffers s.dec }.returns .ok)

end Sys2Proof.Machine
end

