-- ==== Sys2Proof/Machine/Sine.lean ====
section
/-! DEFINITION. The oscillator's sine SIN (spec/43_phase_accumulator.md R175, 93_implementation_defined.md I3): the correctly rounded
sine that spec/00_scope.md R9 names as the default, and the field SIN of the configuration.

The sine is computed in fixed point with 300 bits below the point: the argument is reduced by multiples of PI/2 with 1400 bits of
PI, the reduced argument's series is summed, and the sum is rounded once to binary64. Its error is far below the distance from
which a binary64 sine comes near a rounding boundary (notes/assumptions/6.md). -/

namespace Sys2Proof.Machine

open Sys2Proof.F64

/-- The bits below the point of the argument reduction, and floor(PI · 2^1400). -/
def piBits : Nat := 1400
def piScaled : Nat := 0x3243f6a8885a308d313198a2e03707344a4093822299f31d0082efa98ec4e6c89452821e638d01377be5466cf34e90c6cc0ac29b7c97c50dd3f84d5b5b54709179216d5d98979fb1bd1310ba698dfb5ac2ffd72dbd01adfb7b8e1afed6a267e96ba7c9045f12c7f9924a19947b3916cf70801f2e2858efc16636920d871574e69a458fea3f4933d7e0d95748f728eb658718bcd5882154aee7b54a41dc25a59b59c30d5392af26013c5d1b023286085

/-- The bits below the point of the series. -/
def seriesBits : Nat := 300

/-- t - t·r²/((n+1)(n+2)) + t·r⁴/((n+1)(n+2)(n+3)(n+4)) - ..., `fuel` terms, in fixed point: from t = r and n = 1 the sine of r, from
t = 1 and n = 0 its cosine. -/
def alternatingSeries (rSquared : Nat) : Nat → Nat → Nat → Int
  | 0, _, _ => 0
  | fuel + 1, n, t => (t : Int) - alternatingSeries rSquared fuel (n + 2) (t * rSquared / (1 <<< seriesBits) / ((n + 1) * (n + 2)))

/-- The square of a fixed-point number. -/
def squareScaled (r : Nat) : Nat := r * r / (1 <<< seriesBits)

/-- sin r and cos r for r in [0, PI/2), in fixed point. -/
def sinScaled (r : Nat) : Int := alternatingSeries (squareScaled r) 50 1 r
def cosScaled (r : Nat) : Int := alternatingSeries (squareScaled r) 50 0 (1 <<< seriesBits)

/-- The argument in 1400-bit fixed point from its units of 2^-1074. -/
def angleScaled (units : Nat) : Nat := units <<< (piBits - 1074)

/-- sin of a non-negative angle given in units, in 300-bit fixed point: by the quadrant of the angle. -/
def sinOfUnits (units : Nat) : Int :=
  let r := angleScaled units % (piScaled / 2) / (1 <<< (piBits - seriesBits))
  match angleScaled units / (piScaled / 2) % 4 with
  | 0 => sinScaled r
  | 1 => cosScaled r
  | 2 => -sinScaled r
  | _ => -cosScaled r

/-- 2^-27, below which the correctly rounded sine of v is v itself. -/
def kSineTiny : F64 := ofRatio false 1 134217728

/-- The correctly rounded sine of a finite v. -/
def sineRounded (v : F64) : F64 :=
  if lt v kSineTiny && lt (neg kSineTiny) v then v
  else
    let y := sinOfUnits (magUnits v.magnitude)
    pack (v.signBit != decide (y < 0)) (roundMag (y.natAbs * unitsPerOne) (1 <<< seriesBits))

/-- The sine of the configured source, as given. -/
def rawSine (source : SineSource) (v : F64) : F64 :=
  match source with
  | .correctlyRounded => if v.isFinite then sineRounded v else F64.zero
  | .implementation n => Config.implementationSine n v

/-- SIN(v), held to [-1, 1] (R175): every total function into [-1, 1] is SIN for some source, and nothing else is. -/
def sine (source : SineSource) (v : F64) : F64 :=
  if within (neg F64.one) F64.one (rawSine source v) then rawSine source v else F64.zero

end Sys2Proof.Machine
end

