-- ==== Sys2Proof/Machine/Oscillator.lean ====
section
/-! DEFINITION. The segment scheduler and the phase accumulator (spec/43_phase_accumulator.md R171, R174, R175). -/

namespace Sys2Proof.Machine

open Sys2Proof.F64

/-- The target sample of a segment (R171): one add, one multiply, then floor. -/
def targetSample (N : NumDomain) (elapsed d sr : F64) : Int := N.floor (N.mul (N.add elapsed d) sr)

/-- SEG_COUNT(d) (R171); a negative count is clamped to 0. -/
def segCount (N : NumDomain) (e : Encoder) (d : F64) : Nat := (targetSample N e.elapsed d e.sr - (e.sampleIndex : Int)).toNat

/-- INC(f) = (TWO_PI * f) / ENC_SR (R174). -/
def phaseIncrement (N : NumDomain) (sr f : F64) : F64 := N.div (N.mul twoPi f) sr

/-- The loop of WRAP (R174), at most `fuel` rounds; none where it has not ended by then or a round changes nothing. -/
def wrapLoop (N : NumDomain) : Nat → F64 → Option F64
  | 0, p => if N.le twoPi p then none else some p
  | fuel + 1, p =>
    if N.le twoPi p then (if N.sub p twoPi = p then none else wrapLoop N fuel (N.sub p twoPi)) else some p

/-- WRAP(p) (R174); a loop that never ends faults (notes/assumptions/14.md). -/
def wrapPhase (N : NumDomain) (p : F64) : Except Fault F64 :=
  match wrapLoop N (N.wrapRounds p) p with
  | some q => .ok q
  | none => .error .wrapDiverges

/-- The sample AMP * SIN(phase) (R175). -/
def oscSample (cfg : Config) (phase : F64) : F64 := cfg.num.mul cfg.amp (sine cfg.sine phase)

/-- OSC_STEP(f) (R174): the sample and the new phase. -/
def oscStep (cfg : Config) (sr f phase : F64) : Except Fault (F64 × F64) := do
  let next ← wrapPhase cfg.num (cfg.num.add phase (phaseIncrement cfg.num sr f))
  match cfg.phaseOrder with
  | .sampleThenAdvance => .ok (oscSample cfg phase, next)
  | .advanceThenSample => .ok (oscSample cfg next, next)

end Sys2Proof.Machine
end

