-- ==== Sys2Proof/Machine/Modulator.lean ====
section
/-! DEFINITION. The FM modulator (spec/44_modulator.md): the segment table (R192, R193), the waveform (R191), the encoder agent's step
(R194 to R196) and the commands ENC_ENCODE (R190) and ENC_CANCEL (R198). -/

namespace Sys2Proof.Machine

open Sys2Proof.F64

/-- The kinds of rows of R192's table, with the line L and the pixel x. -/
inductive Segment where
  | leader1
  | headerBreak
  | leader2
  | headerStart
  | sync (line : Nat)
  | porch (line : Nat)
  | yScan (line x : Nat)
  | sep (line : Nat)
  | porchUv (line : Nat)
  | uvScan (line x : Nat)
deriving DecidableEq, Repr

/-- The number of segments, 4 + 240·644 (R192). -/
def segmentTotal : Nat := 154564

/-- Segment `j` of the 644 segments of line L (R192, the index less 4 + 644·L). -/
def lineSegment (line j : Nat) : Segment :=
  if j = 0 then .sync line
  else if j = 1 then .porch line
  else if j < 322 then .yScan line (j - 2)
  else if j = 322 then .sep line
  else if j = 323 then .porchUv line
  else .uvScan line (j - 324)

/-- Row k of R192's table; none past its end. -/
def segmentAt (k : Nat) : Option Segment :=
  if k = 0 then some .leader1
  else if k = 1 then some .headerBreak
  else if k = 2 then some .leader2
  else if k = 3 then some .headerStart
  else if k < segmentTotal then some (lineSegment ((k - 4) / 644) ((k - 4) % 644))
  else none

/-- DUR (R192), in seconds; the pixel durations are quotients of NUM. -/
def segmentDur (N : NumDomain) : Segment → F64
  | .leader1 => tLeader
  | .headerBreak => tBreak
  | .leader2 => tLeader
  | .headerStart => tStart
  | .sync _ => tSync
  | .porch _ => tPorch
  | .yScan _ _ => N.div tYScan kWidth
  | .sep _ => tSep
  | .porchUv _ => tPorchUv
  | .uvScan _ _ => N.div tUvScan kWidth

/-- RGB2YUV of a raster pixel (R193): the Nat components as F64. -/
def pixelYuv (N : NumDomain) (p : Pixel) : YUV := rgb2yuv N (N.ofNat p.r) (N.ofNat p.g) (N.ofNat p.b)

/-- LUMA_F's frequency for a pixel (R193). -/
def lumaFreq (N : NumDomain) (p : Pixel) : F64 := val2freq N (pixelYuv N p).y

/-- CHROMA_F's frequency for a pixel of line L (R193): cr on even lines, cb on odd ones. -/
def chromaFreq (N : NumDomain) (line : Nat) (p : Pixel) : F64 :=
  if line % 2 = 0 then val2freq N (pixelYuv N p).cr else val2freq N (pixelYuv N p).cb

/-- FREQ (R192), in Hz. -/
def segmentFreq (N : NumDomain) (raster : Cells (Cells Pixel)) : Segment → Except Fault F64
  | .leader1 => .ok fLeader
  | .headerBreak => .ok fSync
  | .leader2 => .ok fLeader
  | .headerStart => .ok fSync
  | .sync _ => .ok fSync
  | .porch _ => .ok fPorch
  | .yScan line x => do
    let p ← readRaster raster x line
    .ok (lumaFreq N p)
  | .sep _ => .ok fSep
  | .porchUv _ => .ok fPorchUv
  | .uvScan line x => do
    let p ← readRaster raster x line
    .ok (chromaFreq N line p)

/-- Row k of the table, or the fault of a row that does not exist. -/
def fetchSegment (k : Nat) : Except Fault Segment :=
  match segmentAt k with
  | some g => .ok g
  | none => .error (.segmentOutOfRange k)

/-! ## The encoder agent (R194) -/

/-- The first half of ENC_STEP: one sample where the segment still has one to emit. -/
def emitSample (cfg : Config) (g : Segment) (e : Encoder) : Except Fault Encoder :=
  if e.segRemaining > 0 then do
    let f ← segmentFreq cfg.num e.raster g
    let (sample, phase) ← oscStep cfg e.sr f e.phase
    .ok { e with
      outRev := sample :: e.outRev
      sampleIndex := e.sampleIndex + 1
      phase := phase
      segRemaining := e.segRemaining - 1 }
  else .ok e

/-- The events at the start of segment k (R196): PROGRESS(L, 240) when it is line L's SYNC and L mod PROGRESS_PERIOD = 0. -/
def progressEvents (period k : Nat) : List Event :=
  match segmentAt k with
  | some (.sync line) => if line % period = 0 then [.progress line height] else []
  | _ => []

/-- COMPLETE (R195): the whole buffer leaves on the event port. -/
def complete (e : Encoder) : Encoder × List Event :=
  ({ e with outRev := [], busy := false }, [.encDone e.out])

/-- The second half of ENC_STEP, when segment g is done: elapsed moves on, and the next segment becomes current or the encode
completes. On completion SEQ is not written (R194 returns before it): it keeps `old`, the value it had when the step began. -/
def nextSegment (cfg : Config) (g : Segment) (old : Nat × Nat) (e : Encoder) : Except Fault (Encoder × List Event) :=
  let e1 := { e with elapsed := cfg.num.add e.elapsed (segmentDur cfg.num g) }
  let k := e1.segIndex + 1
  if k = segmentTotal then .ok (complete { e1 with segIndex := old.1, segRemaining := old.2 })
  else do
    let g' ← fetchSegment k
    .ok ({ e1 with segIndex := k, segRemaining := segCount cfg.num e1 (segmentDur cfg.num g') }, progressEvents cfg.progressPeriod k)

/-- ENC_STEP (R194), enabled when ENC_BUSY. -/
def encStep (cfg : Config) (e : Encoder) : Except Fault (Encoder × List Event) := do
  let g ← fetchSegment e.segIndex
  let e1 ← emitSample cfg g e
  if e1.segRemaining = 0 then nextSegment cfg g (e.segIndex, e.segRemaining) e1 else .ok (e1, [])

/-! ## The waveform as a pure function (R191) -/

/-- What the concatenation of R191 carries from segment to segment. -/
structure WaveState where
  sampleIndex : Nat
  phase : F64
  elapsed : F64
  samples : List F64
deriving DecidableEq, Repr

/-- `n` samples of frequency f, after the samples already there. -/
def waveSamples (cfg : Config) (sr f : F64) : Nat → WaveState → Except Fault WaveState
  | 0, w => .ok w
  | n + 1, w => do
    let (sample, phase) ← oscStep cfg sr f w.phase
    waveSamples cfg sr f n { w with sampleIndex := w.sampleIndex + 1, phase := phase, samples := w.samples ++ [sample] }

/-- SEG_COUNT (R171) at a point of the waveform. -/
def waveCount (N : NumDomain) (sr d : F64) (w : WaveState) : Nat := (targetSample N w.elapsed d sr - (w.sampleIndex : Int)).toNat

/-- The samples of one segment, then its duration into elapsed (R171 to R173). A segment with no sample needs no frequency. -/
def waveSegment (cfg : Config) (raster : Cells (Cells Pixel)) (sr : F64) (g : Segment) (w : WaveState) : Except Fault WaveState := do
  let n := waveCount cfg.num sr (segmentDur cfg.num g) w
  let w' ← if n = 0 then .ok w else do
    let f ← segmentFreq cfg.num raster g
    waveSamples cfg sr f n w
  .ok { w' with elapsed := cfg.num.add w'.elapsed (segmentDur cfg.num g) }

/-- The segments k, k+1, ..., `count` of them. -/
def waveFrom (cfg : Config) (raster : Cells (Cells Pixel)) (sr : F64) : Nat → Nat → WaveState → Except Fault WaveState
  | 0, _, w => .ok w
  | count + 1, k, w => do
    let g ← fetchSegment k
    let w' ← waveSegment cfg raster sr g w
    waveFrom cfg raster sr count (k + 1) w'

/-- `WAVE(raster, sr)` (R191). -/
def wave (cfg : Config) (raster : Cells (Cells Pixel)) (sr : F64) : Except Fault (List F64) := do
  let w ← waveFrom cfg raster sr segmentTotal 0 { sampleIndex := 0, phase := F64.zero, elapsed := F64.zero, samples := [] }
  .ok w.samples

/-! ## The commands -/

/-- The encoder at the start of an accepted encode (R190): SEQ is at segment 0 with its count. -/
def encodeStart (N : NumDomain) (sr : F64) (raster : Cells (Cells Pixel)) (e : Encoder) : Encoder :=
  let e1 := { e with
    sr := sr, raster := raster, sampleIndex := 0, phase := F64.zero, elapsed := F64.zero, outRev := [], segIndex := 0 }
  { e1 with segRemaining := segCount N e1 (segmentDur N .leader1), busy := true }

/-- ENC_ENCODE (R190), with the checks in the order of 60 R256. An accepted encode is one that no status has ended (30_encoding R87). -/
def execEncEncode (s : State) : Host.Outcome State Fault Refusal :=
  if srAdmitted s.cfg s.cmd.a0 then
    if s.enc.busy then .next (s.raise .encBusyErr)
    else if rasterShape (bulkRaster s.cmd.b0) then
      match rasterCells (bulkRaster s.cmd.b0) with
      | some raster => .next ({ s with enc := encodeStart s.cfg.num s.cmd.a0 raster s.enc, cancelled := false }.returns .ok)
      | none => .next (s.refuse .refRasterValue)
    else .next (s.raise .configDimension)
  else .next (s.refuse .refRate)

/-- ENC_CANCEL (R198): the buffer in flight is discarded; on an idle encoder nothing changes. -/
def encodeCancel (e : Encoder) : Encoder := if e.busy then { e with outRev := [], busy := false } else e

/-- ENC_CANCEL (R198). Its status ends the encode in progress (30_encoding R87). -/
def execEncCancel (s : State) : Host.Outcome State Fault Refusal :=
  .next ({ s with enc := encodeCancel s.enc, cancelled := s.cancelled || s.enc.busy }.returns .ok)

end Sys2Proof.Machine
end

