-- ==== Sys2Proof/Machine/Wav.lean ====
section
/-! DEFINITION. The WAV serializer (spec/46_wav_serializer.md R230 to R234). -/

namespace Sys2Proof.Machine

open Sys2Proof.F64

/-- PCM16(s) (R232): one product, then truncation toward zero. -/
def pcm16 (N : NumDomain) (s : F64) : Int := N.trunc (N.mul s (if N.lt s F64.zero then decimal 32768 0 else decimal 32767 0))

/-- `n` little-endian bytes of a natural number, the least significant at the lowest offset (R233). -/
def littleEndian : Nat → Nat → List Byte
  | 0, _ => []
  | n + 1, v => BitVec.ofNat 8 v :: littleEndian n (v / 256)

/-- A u32 field (R233). -/
def u32Bytes (v : Nat) : List Byte := littleEndian 4 v

/-- A u16 field (R233). -/
def u16Bytes (v : Nat) : List Byte := littleEndian 2 v

/-- An s16 field: the 16-bit two's complement word (R232, R233). -/
def s16Bytes (v : Int) : List Byte := u16Bytes (BitVec.ofInt 16 v).toNat

/-- The text fields of R233, as their ASCII bytes. -/
def tagRiff : List Byte := [0x52, 0x49, 0x46, 0x46]
def tagWave : List Byte := [0x57, 0x41, 0x56, 0x45]
def tagFmt : List Byte := [0x66, 0x6D, 0x74, 0x20]
def tagData : List Byte := [0x64, 0x61, 0x74, 0x61]

/-- Offsets 0 to 43 of R233's layout, for N samples. -/
def wavHeader (n rate : Nat) : List Byte :=
  tagRiff ++ u32Bytes (36 + 2 * n) ++ tagWave ++ tagFmt ++ u32Bytes 16 ++ u16Bytes 1 ++ u16Bytes 1 ++ u32Bytes rate
    ++ u32Bytes (rate * 2) ++ u16Bytes 2 ++ u16Bytes 16 ++ tagData ++ u32Bytes (2 * n)

/-- Offsets 44 on: each sample as s16 (R233). -/
def wavData (N : NumDomain) (samples : List F64) : List Byte := samples.flatMap fun s => s16Bytes (pcm16 N s)

/-- `WAV(samples, rate)` (R230, R233). -/
def wavFile (N : NumDomain) (samples : List F64) (rate : Nat) : List Byte := wavHeader samples.length rate ++ wavData N samples

/-- The longest admitted sample buffer (R231). -/
def wavMaxSamples : Nat := 2147483629

/-- WAV_SERIALIZE (R231), with the checks in the order of 60 R256. -/
def execWavSerialize (s : State) : Host.Outcome State Fault Refusal :=
  match wavRate s.cmd.a0 with
  | none => .next (s.refuse .refWavRate)
  | some rate =>
    let samples := bulkSamples s.cmd.b0
    if samples.length = 0 then .next (s.raise .emptyBuffer)
    else if samples.length > wavMaxSamples then .next (s.refuse .refWavSize)
    else if samples.all unitSample then .next (s.returnsBytes (wavFile s.cfg.num samples rate))
    else .next (s.refuse .refWavSample)

end Sys2Proof.Machine
end

