-- ==== Sys2Proof/Machine/Dispatch.lean ====
section
/-! DEFINITION. The dispatch of a decoded command to its meaning, in the order of spec/30_encoding.md R84. -/

namespace Sys2Proof.Machine

/-- The meaning of each command, in the state whose command channel holds its operands. -/
def exec (i : Instr) (s : State) : Host.Outcome State Fault Refusal :=
  match i with
  | .decReset => Sys2Proof.Machine.execDecReset s
  | .decSetRate => Sys2Proof.Machine.execDecSetRate s
  | .decSample => Sys2Proof.Machine.execDecSample s
  | .encEncode => Sys2Proof.Machine.execEncEncode s
  | .encCancel => Sys2Proof.Machine.execEncCancel s
  | .cvtRgb2yuv => Sys2Proof.Machine.execCvtRgb2yuv s
  | .cvtYuv2rgb => Sys2Proof.Machine.execCvtYuv2rgb s
  | .cvtVal2freq => Sys2Proof.Machine.execCvtVal2freq s
  | .cvtFreq2val => Sys2Proof.Machine.execCvtFreq2val s
  | .wavSerialize => Sys2Proof.Machine.execWavSerialize s

end Sys2Proof.Machine
end

