-- ==== Sys2Proof/WellFormed.lean ====
section
/-! DEFINITION. What makes a command well formed as a term. An `Instr` has no operand field (spec/30_encoding.md R83), so every
`Instr` is; what can be ill formed is the kind of the bulk slot a command names (R84). Operand VALUES are not checked here: their
admission is part of each command's meaning (60_exceptions R258, Machine/Operands.lean). -/

namespace Sys2Proof

/-- The kind of bulk operand that R84's table gives the command: a raster for ENC_ENCODE, samples for WAV_SERIALIZE; a slot the
command does not name is ignored (R80). -/
def Instr.takesBulk : Instr → Bulk → Bool
  | .encEncode, .raster _ => true
  | .encEncode, _ => false
  | .wavSerialize, .samples _ => true
  | .wavSerialize, _ => false
  | .decReset, _ | .decSetRate, _ | .decSample, _ | .encCancel, _ => true
  | .cvtRgb2yuv, _ | .cvtYuv2rgb, _ | .cvtVal2freq, _ | .cvtFreq2val, _ => true

/-- Every command word's instruction is well formed: format C has no operand field (30_encoding R81, R83). -/
def Instr.wellFormed : Instr → Bool
  | .decReset | .decSetRate | .decSample | .encEncode | .encCancel => true
  | .cvtRgb2yuv | .cvtYuv2rgb | .cvtVal2freq | .cvtFreq2val | .wavSerialize => true

/-- A command in the notation of R86 is well formed when its bulk slot is of the kind the instruction takes. -/
def Command.wellFormed (i : Instr) (c : Command) : Bool := i.wellFormed && i.takesBulk c.b0

end Sys2Proof
end

