-- ==== Sys2Proof/Decode.lean ====
section
/-! DEFINITION. Decoding and encoding of command words (spec/30_encoding.md R81, R82, R84, R85). -/

namespace Sys2Proof

/-- `CMD[31:28]`, the field UNIT (R81). -/
def wordUnit (w : CmdWord) : BitVec 4 := w.extractLsb' 28 4

/-- `CMD[27:24]`, the field FUNC (R81). -/
def wordFunc (w : CmdWord) : BitVec 4 := w.extractLsb' 24 4

/-- `CMD[23:0]`, the field RSVD (R81). -/
def wordRsvd (w : CmdWord) : BitVec 24 := w.extractLsb' 0 24

/-- Why a word spells no command (R82, R85). -/
inductive DecodeError where
  /-- RSVD is not 0. -/
  | reservedBits (r : BitVec 24)
  /-- UNIT is 0x0 or 0x5 to 0xF. -/
  | reservedUnit (u : BitVec 4)
  /-- FUNC is not in the table under this UNIT. -/
  | reservedFunc (u f : BitVec 4)
deriving DecidableEq, Repr

/-- The row of R84's table that UNIT and FUNC select. -/
def decodeFields (u f : BitVec 4) : Except DecodeError Instr :=
  match u.toNat, f.toNat with
  | 1, 0 => .ok .decReset
  | 1, 1 => .ok .decSetRate
  | 1, 2 => .ok .decSample
  | 2, 0 => .ok .encEncode
  | 2, 1 => .ok .encCancel
  | 3, 0 => .ok .cvtRgb2yuv
  | 3, 1 => .ok .cvtYuv2rgb
  | 3, 2 => .ok .cvtVal2freq
  | 3, 3 => .ok .cvtFreq2val
  | 4, 0 => .ok .wavSerialize
  | 1, _ | 2, _ | 3, _ | 4, _ => .error (.reservedFunc u f)
  | _, _ => .error (.reservedUnit u)

/-- Decoding, total on every 32-bit word (R82). -/
def decode (w : CmdWord) : Except DecodeError Instr :=
  if wordRsvd w = 0 then decodeFields (wordUnit w) (wordFunc w) else .error (.reservedBits (wordRsvd w))

/-- `UNIT ++ FUNC ++ 0x000000` (R84). -/
def assembleWord (u f : BitVec 4) : CmdWord := u ++ f ++ 0#24

/-- The word of an instruction, from the UNIT and FUNC columns of R84. -/
def encode : Instr → CmdWord
  | .decReset => assembleWord 0x1 0x0
  | .decSetRate => assembleWord 0x1 0x1
  | .decSample => assembleWord 0x1 0x2
  | .encEncode => assembleWord 0x2 0x0
  | .encCancel => assembleWord 0x2 0x1
  | .cvtRgb2yuv => assembleWord 0x3 0x0
  | .cvtYuv2rgb => assembleWord 0x3 0x1
  | .cvtVal2freq => assembleWord 0x3 0x2
  | .cvtFreq2val => assembleWord 0x3 0x3
  | .wavSerialize => assembleWord 0x4 0x0

/-- The number whose bits are the low `nbits` bits of `w`, every bit above them 0. -/
def tableBits (nbits w : Nat) : Nat := w % 2 ^ nbits

/-- The instruction the decoder reads from the bits of an opcode-table row. A command word has 32 bits and no other form exists
(R81), so a number with a bit above bit 31 spells none. -/
def decodeTableWord (nbits w : Nat) : Option Instr :=
  if tableBits nbits w < 2 ^ 32 then
    match decode (BitVec.ofNat 32 (tableBits nbits w)) with
    | .ok i => some i
    | .error _ => none
  else none

end Sys2Proof
end

