-- ==== Sys2Proof/Machine/Fetch.lean ====
section
/-! DEFINITION. What happens between commands: taking the next command from the host (spec/30_encoding.md R80, R82, R251 of
60_exceptions), the encoder agent's own move (44 R194), the host's reads of the event port (60 R252) and WAIT ENC_DONE (30 R87). -/

namespace Sys2Proof.Machine

/-- The command presented on the command channel, the rest of the script left to come (30 R80). -/
def State.present (s : State) (c : Command) (rest : List HostMove) : State := { s with cmd := c, script := rest }

/-- A word that spells no command (30 R82, 60 R251): ILLEGAL_COMMAND, nothing else, whatever the slots hold. -/
def illegalWord (s : State) : Host.Outcome State Fault Refusal := .next (s.raise .illegalCommand)

/-- The encoder agent's move (44 R194): ENC_STEP while ENC_BUSY; with no encode in progress there is no such step and nothing
happens (notes/assumptions/2.md). -/
def encoderMove (s : State) : Host.Outcome State Fault Refusal :=
  if s.enc.busy then
    match encStep s.cfg s.enc with
    | .ok (e, es) => .next { s.emit es with enc := e }
    | .error f => .fault f
  else .next s

/-- The host removes the oldest record of the event port (60 R252); on an empty port nothing happens. -/
def hostReads (s : State) : State := { s with events := s.events.tail }

/-- An ENC_DONE record. -/
def isEncDone : Event → Bool
  | .encDone _ => true
  | .lineStart _ | .pixel _ _ _ | .frameComplete _ | .progress _ _ => false

/-- `WAIT ENC_DONE` lets the host go on (30 R87): an ENC_DONE record is on the port, or the ENC_CANCEL status that ends the encode has
been returned (DEDUCED, notes/assumptions/3.md). -/
def waitOver (s : State) : Bool := s.events.any isEncDone || s.cancelled

/-- The command word of an opcode-table row's bits (R81). -/
def tableWord (nbits w : Nat) : CmdWord := BitVec.ofNat 32 (tableBits nbits w)

/-- The command whose word has these bits, with the slots as the channel holds them. -/
def tableCommand (s : State) (nbits w : Nat) : Command := { s.cmd with word := tableWord nbits w }

end Sys2Proof.Machine
end

