-- ==== Sys2Proof/Machine/Step.lean ====
section
/-! DEFINITION. One step of the codec core: the next move of the host or of the encoder agent (spec/20_memory.md R68, R70). -/

namespace Sys2Proof.Machine

/-- One command (30_encoding R82): the meaning of the instruction its word spells, or ILLEGAL_COMMAND. -/
def runCommand (s : State) : Host.Outcome State Fault Refusal :=
  match decode s.cmd.word with
  | .ok i => exec i s
  | .error _ => illegalWord s

/-- One step: the head of the script (a blocked `WAIT ENC_DONE` stays there, and only the encoder moves, 30 R87), or, when the host has nothing more to do, the encoder's next step while it is busy
(70 R286: an encode in progress goes on until it completes). -/
def step (s : State) : Host.Outcome State Fault Refusal :=
  match s.script with
  | .command c :: rest => runCommand (s.present c rest)
  | .encStep :: rest => encoderMove { s with script := rest }
  | .readEvent :: rest => .next (hostReads { s with script := rest })
  | .waitEncDone :: rest => if waitOver s then .next { s with script := rest } else encoderMove s
  | [] => encoderMove s

/-- The state in which the very next step takes the command whose word has these bits. The host's script is where commands come
from (notes/assumptions/1.md), so the command is put at its head; nothing else changes. -/
def State.withFetchWord (s : State) (nbits w : Nat) : State :=
  { s with script := .command (tableCommand s nbits w) :: s.script }

end Sys2Proof.Machine
end

