-- ==== Sys2Proof/Safety.lean ====
section
/-! DEFINITION. What claims are stated in: well-formed configurations, the invariants the spec gives (10_state R22 to R41), a point on
the waveform (44_modulator R191, R197), and the end and the observation of a run (70_reset_and_hazards R286). -/

namespace Sys2Proof.Machine

open Sys2Proof.F64

/-! ## Configurations -/

/-- 2^32, the upper end of the default SR_ADMIT (00_scope R9). -/
def kRateMax : F64 := ⟨0x41F0000000000000#64⟩

/-- 1 ≤ lo and hi ≤ 2^32: every rate of the interval is one the default SR_ADMIT admits (00_scope R9). -/
def rateInterval (i : F64 × F64) : Bool := within F64.one kRateMax i.1 && within F64.one kRateMax i.2

/-- The parameters are in their ranges (00_scope R9, 92 parameters table): NUM the domain that R12 and R13 define, PROGRESS_PERIOD ≥
1, AMP in [-1, 1] (so that AMP·SIN is), and SR_ADMIT inside the default set, for which 00_scope R12 derives its bounds. -/
def configOk (cfg : Config) : Bool :=
  decide (cfg.num = .binary64 ∧ 1 ≤ cfg.progressPeriod) && within (neg F64.one) F64.one cfg.amp && cfg.srAdmit.all rateInterval

/-! ## Invariants -/

/-- A value in [0, 255] (10_state R30 to R33). -/
def byteRange (v : F64) : Bool := within F64.zero kVmax v

/-- A pixel with its three channels in [0, 255]. -/
def pixelRange (c : RGB) : Bool := byteRange c.r && byteRange c.g && byteRange c.b

/-- The decoder's arrays: canonical, in bounds, every cell in [0, 255] (10_state R30 to R33). -/
structure MemoryOk (m : Memory) : Prop where
  luma : cellsWf F64.zero width byteRange 0 m.luma = true
  cr : cellsWf F64.zero width byteRange 0 m.cr = true
  cb : cellsWf F64.zero width byteRange 0 m.cb = true
  img : cellsWf [] height (cellsWf black width pixelRange 0) 0 m.img = true

/-- The decoder's invariant: currentLine in 0..239 (R29), |dcOffset| ≤ 1 (R22), |previousValue| ≤ 2 (95 V1.4), currentFreq in
[0, 2^32] (R25 gives sampleRate/11), an admitted rate (R21), and the arrays. -/
structure DecoderOk (cfg : Config) (d : Decoder) : Prop where
  line : d.currentLine < height
  rate : ∀ sr, d.sr = some sr → srAdmitted cfg sr = true
  dc : within (neg F64.one) F64.one d.dcOffset = true
  previous : within (neg (decimal 2 0)) (decimal 2 0) d.previousValue = true
  freq : within F64.zero kRateMax d.currentFreq = true
  mem : MemoryOk d.mem

/-- The encoder's invariant: an idle encoder holds no sample (R41, 70 R282); a busy one is inside its segment list (R40), holds an
admitted rate (R35) and a raster of bytes (R36), has emitted currentSampleIndex samples (R37), all in [-1, 1] (43 R175), and its
phase lies in [0, 2·PI) (R38). -/
structure EncoderOk (cfg : Config) (e : Encoder) : Prop where
  idle : e.busy = false → e.outRev = []
  segment : e.busy = true → e.segIndex < segmentTotal
  rate : e.busy = true → srAdmitted cfg e.sr = true
  raster : e.busy = true → rasterWf e.raster = true
  count : e.busy = true → e.outRev.length = e.sampleIndex
  samples : e.busy = true → ∀ v ∈ e.outRev, within (neg F64.one) F64.one v = true
  phase : e.busy = true → (le F64.zero e.phase && lt e.phase twoPi) = true

/-- The whole machine's invariant. -/
structure Inv (s : State) : Prop where
  cfg : configOk s.cfg = true
  dec : DecoderOk s.cfg s.dec
  enc : EncoderOk s.cfg s.enc

/-! ## The waveform -/

/-- The start of the waveform (44 R191). -/
def waveStart : WaveState := { sampleIndex := 0, phase := F64.zero, elapsed := F64.zero, samples := [] }

/-- The first `n` samples of segment g from the point w. -/
def wavePart (cfg : Config) (raster : Cells (Cells Pixel)) (sr : F64) (g : Segment) (n : Nat) (w : WaveState) :
    Except Fault WaveState :=
  if n = 0 then .ok w else do
    let f ← segmentFreq cfg.num raster g
    waveSamples cfg sr f n w

/-- The encoder stands at a point of WAVE(ENC_RASTER, ENC_SR) (44 R191, R197): the segments before segIndex are complete, `n` samples
of segment segIndex are out, and segRemaining are still to come. -/
def OnWave (cfg : Config) (e : Encoder) : Prop :=
  ∃ (w w' : WaveState) (n : Nat) (g : Segment),
    waveFrom cfg e.raster e.sr e.segIndex 0 waveStart = .ok w ∧ segmentAt e.segIndex = some g
    ∧ n + e.segRemaining = waveCount cfg.num e.sr (segmentDur cfg.num g) w ∧ wavePart cfg e.raster e.sr g n w = .ok w'
    ∧ e.sampleIndex = w'.sampleIndex ∧ e.phase = w'.phase ∧ e.elapsed = w'.elapsed ∧ e.out = w'.samples

/-! ## Reads of one cell (20_memory R62) -/

/-- LUMA[x], CR[x], CB[x] and IMG[y][x]. -/
def lumaAt (m : Memory) (x : Nat) : Except Fault F64 := memRead width F64.zero m.luma x
def crAt (m : Memory) (x : Nat) : Except Fault F64 := memRead width F64.zero m.cr x
def cbAt (m : Memory) (x : Nat) : Except Fault F64 := memRead width F64.zero m.cb x
def pixelAt (m : Memory) (x y : Nat) : Except Fault RGB := readImg m.img x y

/-! ## Sample ticks -/

/-- t is the state after an admitted DEC_SAMPLE at s, with DEC_SR = sr (41 R120, 60 R258). -/
def tickOf (sr : F64) (s t : State) : Prop :=
  s.dec.sr = some sr ∧ unitSample s.cmd.a0 = true ∧ exec .decSample s = .next t

/-- The DEC_SAMPLE commands for these samples, in order (30 R92). -/
def sampleMoves (raws : List F64) : List HostMove :=
  raws.map fun raw => .command { word := encode .decSample, a0 := raw, a1 := F64.zero, a2 := F64.zero, b0 := .none }

/-- The largest line counter that is not past the watchdog's threshold: floor(0.16 · sr) (10_state R28, 41 R127). -/
def lastLineSample (N : NumDomain) (sr : F64) : Int := N.floor (N.mul (decimal 16 2) sr)

/-- In Scanning the line counter is not past the watchdog's threshold (10_state R28). -/
def lineCounterOk (N : NumDomain) (d : Decoder) : Prop :=
  ∀ sr, d.sr = some sr → d.syncState = .scanning → (d.samplesSinceLineStart : Int) ≤ lastLineSample N sr

/-- The decoder's event records (60 R252). -/
def isDecoderEvent : Event → Bool
  | .lineStart _ | .pixel _ _ _ | .frameComplete _ => true
  | .progress _ _ | .encDone _ => false

/-- A PIXEL record. -/
def isPixel : Event → Bool
  | .pixel _ _ _ => true
  | .lineStart _ | .frameComplete _ | .progress _ _ | .encDone _ => false

/-- A host command, as against a step of the encoder, a read or a wait. -/
def isCommand : HostMove → Bool
  | .command _ => true
  | .encStep | .readEvent | .waitEncDone => false

/-! ## The segment list -/

/-- Row k of 44 R192's table: DUR(k) and FREQ(k). -/
def segmentRow (N : NumDomain) (raster : Cells (Cells Pixel)) (k : Nat) : Except Fault (F64 × F64) := do
  let g ← fetchSegment k
  let f ← segmentFreq N raster g
  .ok (segmentDur N g, f)

/-- DUR(k); 0.0 past the end of the table. -/
def durationAt (N : NumDomain) (k : Nat) : F64 :=
  match segmentAt k with
  | some g => segmentDur N g
  | none => F64.zero

/-- The running sum, in the domain NUM, of the durations of segments 0 to k-1 (43 R173). -/
def durationSum (N : NumDomain) : Nat → F64
  | 0 => F64.zero
  | k + 1 => N.add (durationSum N k) (durationAt N k)

/-! ## Commands and their responses -/

/-- The last response carries this status (60 R250). -/
def statusIs (s : State) (st : Status) : Prop := ∃ r, s.resp = some r ∧ r.status = statusCode st

/-- Nothing of the architectural state (10_state R20) differs, but for REFUSED, which is compared apart; nor does what `WAIT ENC_DONE`
reads. -/
def sameAgents (s t : State) : Prop :=
  t.cfg = s.cfg ∧ t.dec = s.dec ∧ t.enc = s.enc ∧ t.events = s.events ∧ t.cancelled = s.cancelled

/-- A refused command's effect (60 R259): the mark, and nothing else of the architectural state. -/
def refusedWith (s t : State) (why : RefusalReason) : Prop := sameAgents s t ∧ t.refused = some (s.refused.getD why)

/-- A command that returned this status and changed nothing of the architectural state (60 R250: a precise status). -/
def onlyStatus (s t : State) (st : Status) : Prop := sameAgents s t ∧ t.refused = s.refused ∧ statusIs t st

/-- The four little-endian bytes of a u32 field, and the two of a u16 field (46 R233). -/
def fourBytes (v : Nat) : List Byte :=
  [BitVec.ofNat 8 v, BitVec.ofNat 8 (v / 256), BitVec.ofNat 8 (v / 65536), BitVec.ofNat 8 (v / 16777216)]
def twoBytes (v : Nat) : List Byte := [BitVec.ofNat 8 v, BitVec.ofNat 8 (v / 256)]

/-! ## Runs (70 R286) -/

/-- A run has ended: the host has issued its last command, which has returned, and ENC_BUSY is false (70 R286). R286 builds a run from
commands and encoder steps and asks for nothing else, not even that the host has read the port: reads and waits still to come do not
hold the end back (DEDUCED, notes/assumptions/23.md). -/
def runEnded (s : State) : Bool := !s.script.any isCommand && !s.enc.busy

/-- The (command, response) triples of the commands among the next `k` steps (70 R286). -/
def commandLog : Nat → State → List (Command × Option Response)
  | 0, _ => []
  | k + 1, s =>
    match step s with
    | .next t =>
      match s.script with
      | .command c :: _ => (c, t.resp) :: commandLog k t
      | _ => commandLog k t
    | _ => []

/-- The observation of a run of `k` steps (70 R286): the commands with their STATUS and results, the event records on the port, and
the final state with its REFUSED mark. -/
structure Observation where
  commands : List (Command × Option Response)
  events : List Event
  final : State
deriving DecidableEq, Repr

/-- The observation of the run of `k` steps from `s`; none where a step stops. -/
def observe (k : Nat) (s : State) : Option Observation :=
  match Sys2Proof.core.run k s with
  | .next t => some { commands := commandLog k s, events := t.events, final := t }
  | _ => none

end Sys2Proof.Machine
end

