-- ==== Sys2Proof/Certificates/Slice0/Obligations.lean ====
section
/-! DEFINITION. The statements about the codec core for the provers. Each docstring names the rules of spec/ it formalises. No
statement rests on a value that the assumption log marks as the model's choice, but where its docstring says so. -/

open Sys2Proof Sys2Proof.Machine

/-! ## Command words (30_encoding) -/

/-- R68, R82. A command at the head of the script runs as the instruction its word decodes to, with the command on the channel and the
script moved on. -/
def Obligations.StepRunsTheDecodedCommand : Prop :=
  ∀ (s : State) (c : Command) (rest : List HostMove) (i : Instr),
    s.script = .command c :: rest → decode c.word = .ok i → step s = exec i { s with cmd := c, script := rest }

/-- R82, R84, R85. Over all 2^32 words: a word decodes to an instruction exactly when it is that instruction's word. -/
def Obligations.DecodeInvertsEncode : Prop := ∀ (w : CmdWord) (i : Instr), decode w = .ok i ↔ w = encode i

/-- R82, R251. Every word either is the word of exactly one instruction, which it runs, or returns ILLEGAL_COMMAND and changes no
state and records no refusal, whatever the operand slots hold. -/
def Obligations.EveryWordRunsOneCommandOrIsIllegal : Prop :=
  ∀ (s : State) (c : Command) (rest : List HostMove), s.script = .command c :: rest →
    (∃ i, c.word = encode i ∧ (∀ j, c.word = encode j → j = i) ∧ step s = exec i { s with cmd := c, script := rest })
    ∨ ((∀ i, c.word ≠ encode i) ∧ ∃ t, step s = .next t ∧ onlyStatus s t .illegalCommand ∧ t.script = rest)

/-- R84. The ten words of the table, as the table prints them. -/
def Obligations.TableWordsDecode : Prop :=
  decode 0x10000000#32 = .ok .decReset ∧ decode 0x11000000#32 = .ok .decSetRate ∧ decode 0x12000000#32 = .ok .decSample
  ∧ decode 0x20000000#32 = .ok .encEncode ∧ decode 0x21000000#32 = .ok .encCancel
  ∧ decode 0x30000000#32 = .ok .cvtRgb2yuv ∧ decode 0x31000000#32 = .ok .cvtYuv2rgb
  ∧ decode 0x32000000#32 = .ok .cvtVal2freq ∧ decode 0x33000000#32 = .ok .cvtFreq2val
  ∧ decode 0x40000000#32 = .ok .wavSerialize

/-! ## The host's other moves and the event port (20_memory, 60_exceptions) -/

/-- R70, R87, R252. What a step is that takes no command: the host removes the oldest record, the encoder steps, a wait ends when an
ENC_DONE is on the port or an ENC_CANCEL has ended the encode and else blocks the host while the encoder goes on, and after the last
move the encoder goes on. What an encoder step is: ENC_STEP while busy. The model's choices here: a busy encoder goes on after the
script, and an idle one's step does nothing (notes/assumptions/2.md); how the ENC_CANCEL status reaches a wait (3.md); a read of an
empty port changes nothing (4.md). -/
def Obligations.MovesThatTakeNoCommand : Prop :=
  ∀ (s : State) (rest : List HostMove),
    (s.script = .readEvent :: rest → step s = .next { s with events := s.events.tail, script := rest })
    ∧ (s.script = .encStep :: rest → step s = encoderMove { s with script := rest })
    ∧ (s.script = .waitEncDone :: rest → ((∃ buf, .encDone buf ∈ s.events) ∨ s.cancelled = true) →
        step s = .next { s with script := rest })
    ∧ (s.script = .waitEncDone :: rest → ¬((∃ buf, .encDone buf ∈ s.events) ∨ s.cancelled = true) →
        step s = encoderMove s ∧ (s.enc.busy = false → step s = .next s))
    ∧ (s.script = [] → step s = encoderMove s)
    ∧ (s.enc.busy = false → encoderMove s = .next s)
    ∧ (s.enc.busy = true → ∀ e es, encStep s.cfg s.enc = .ok (e, es) →
        encoderMove s = .next { s with enc := e, events := s.events ++ es })

/-- R71, R252. The event port is a queue: a step that is no read only appends to it, and a read removes its oldest record. That a read
of an empty port goes through and leaves it empty is the model's choice (notes/assumptions/4.md). -/
def Obligations.EventPortIsAQueue : Prop :=
  ∀ s t : State, step s = .next t →
    (∃ rest, s.script = .readEvent :: rest ∧ t.events = s.events.tail)
    ∨ ((∀ rest, s.script ≠ .readEvent :: rest) ∧ ∃ es, t.events = s.events ++ es)

/-! ## Reset (70_reset_and_hazards) -/

/-- R280, the power-on column: DEC_SR unset, every register of the decoder zero, SearchingSync, every cell zero, the encoder idle with
an empty buffer, no event and no refusal. -/
def Obligations.PowerOnState : Prop :=
  State.reset.dec.sr = none ∧ State.reset.dec.dcOffset = F64.zero ∧ State.reset.dec.previousValue = F64.zero
  ∧ State.reset.dec.samplesSinceCrossing = 0 ∧ State.reset.dec.currentFreq = F64.zero ∧ State.reset.dec.syncStreak = 0
  ∧ State.reset.dec.syncState = .searchingSync ∧ State.reset.dec.samplesSinceLineStart = 0 ∧ State.reset.dec.currentLine = 0
  ∧ (∀ x < 320, lumaAt State.reset.dec.mem x = .ok F64.zero ∧ crAt State.reset.dec.mem x = .ok F64.zero
      ∧ cbAt State.reset.dec.mem x = .ok F64.zero)
  ∧ (∀ x < 320, ∀ y < 240, pixelAt State.reset.dec.mem x y = .ok ⟨F64.zero, F64.zero, F64.zero⟩)
  ∧ State.reset.enc.busy = false ∧ State.reset.enc.out = [] ∧ State.reset.events = [] ∧ State.reset.refused = none

/-- R140, R281. DEC_RESET completes in every state: the decoder's registers and IMG go to their reset values, LUMA, CR and CB too
unless RESET_KEEPS_BUFFERS, and DEC_SR, the encoder, the port and REFUSED stay. -/
def Obligations.DecResetResult : Prop :=
  ∀ s : State, ∃ t, exec .decReset s = .next t ∧ statusIs t .ok
    ∧ t.cfg = s.cfg ∧ t.enc = s.enc ∧ t.events = s.events ∧ t.refused = s.refused ∧ t.cancelled = s.cancelled ∧ t.dec.sr = s.dec.sr
    ∧ t.dec.dcOffset = F64.zero ∧ t.dec.previousValue = F64.zero ∧ t.dec.samplesSinceCrossing = 0
    ∧ t.dec.currentFreq = F64.zero ∧ t.dec.syncStreak = 0 ∧ t.dec.syncState = .searchingSync
    ∧ t.dec.samplesSinceLineStart = 0 ∧ t.dec.currentLine = 0
    ∧ (s.cfg.resetKeepsBuffers = false → ∀ x < 320,
        lumaAt t.dec.mem x = .ok F64.zero ∧ crAt t.dec.mem x = .ok F64.zero ∧ cbAt t.dec.mem x = .ok F64.zero)
    ∧ (s.cfg.resetKeepsBuffers = true → ∀ x,
        lumaAt t.dec.mem x = lumaAt s.dec.mem x ∧ crAt t.dec.mem x = crAt s.dec.mem x ∧ cbAt t.dec.mem x = cbAt s.dec.mem x)
    ∧ ∀ x < 320, ∀ y < 240, pixelAt t.dec.mem x y = .ok ⟨F64.zero, F64.zero, F64.zero⟩

/-! ## DEC_SET_RATE and DEC_SAMPLE: what completes (41_sync_state_machine) -/

/-- R131. DEC_SET_RATE with an admitted rate completes and writes DEC_SR only, so that the same rate again is a no-op; with another
rate it is refused. -/
def Obligations.DecSetRateResult : Prop :=
  ∀ s : State,
    (srAdmitted s.cfg s.cmd.a0 = true → ∃ t, exec .decSetRate s = .next t ∧ statusIs t .ok
      ∧ t.cfg = s.cfg ∧ t.enc = s.enc ∧ t.events = s.events ∧ t.refused = s.refused ∧ t.cancelled = s.cancelled
      ∧ t.dec = { s.dec with sr := some s.cmd.a0 } ∧ (s.dec.sr = some s.cmd.a0 → t.dec = s.dec))
    ∧ (srAdmitted s.cfg s.cmd.a0 = false → ∃ t, exec .decSetRate s = .next t ∧ refusedWith s t .refRate)

/-- R120, R261. DEC_SAMPLE of an admitted sample, with a rate set and the line in its range 0..239, completes with OK, whatever the
decoder's other state; it leaves DEC_SR, the encoder and REFUSED and only appends to the port. -/
def Obligations.DecSampleCompletes : Prop :=
  ∀ (s : State) (sr : F64), s.dec.sr = some sr → unitSample s.cmd.a0 = true → s.dec.currentLine < 240 →
    ∃ t es, exec .decSample s = .next t ∧ statusIs t .ok ∧ t.events = s.events ++ es
      ∧ t.cfg = s.cfg ∧ t.enc = s.enc ∧ t.refused = s.refused ∧ t.cancelled = s.cancelled ∧ t.dec.sr = some sr

/-! ## The estimator (40_frequency_estimator) -/

/-- R102, R104. DC_BLOCK: three operations of NUM in the textual order, and `filtered` from the NEW dcOffset, which R104 writes to
previousValue on every tick. -/
def Obligations.EstimatorBlocksDc : Prop :=
  ∀ (s t : State) (sr : F64), tickOf sr s t →
    let N := s.cfg.num
    t.dec.dcOffset = N.add (N.mul s.cmd.a0 (F64.decimal 5 2)) (N.mul s.dec.dcOffset (F64.decimal 95 2))
    ∧ t.dec.previousValue = N.sub s.cmd.a0 t.dec.dcOffset

/-- R103, R104, R105. COUNT, CROSS and FREQ_UPDATE: the count includes the crossing sample, a rising crossing restarts it whether or
not its period is accepted, and only a period strictly between 10 and 200 moves currentFreq. -/
def Obligations.EstimatorCountsRisingCrossings : Prop :=
  ∀ (s t : State) (sr : F64), tickOf sr s t →
    let N := s.cfg.num
    let filtered := N.sub s.cmd.a0 t.dec.dcOffset
    let cycles := s.dec.samplesSinceCrossing + 1
    let rising := N.lt F64.zero filtered && N.le s.dec.previousValue F64.zero
    t.dec.samplesSinceCrossing = (if rising then 0 else cycles)
    ∧ t.dec.previousValue = filtered
    ∧ t.dec.currentFreq =
        if rising = true ∧ 10 < cycles ∧ cycles < 200 then
          N.add (N.mul s.dec.currentFreq (F64.decimal 5 1)) (N.mul (N.div sr (N.ofNat cycles)) (F64.decimal 5 1))
        else s.dec.currentFreq

/-- R106, R49. BAND: the streak grows on every tick whose currentFreq lies strictly inside 1100..1300 Hz and is 0 otherwise. -/
def Obligations.SyncStreakCountsTicksInBand : Prop :=
  ∀ (s t : State) (sr : F64), tickOf sr s t →
    let N := s.cfg.num
    t.dec.syncStreak =
      if (N.lt (F64.decimal 1100 0) t.dec.currentFreq && N.lt t.dec.currentFreq (F64.decimal 1300 0)) = true then
        s.dec.syncStreak + 1
      else 0

/-- R25. In the default domain NUM, at a rate in 1..2^32 the smoothed frequency stays in [0, max(currentFreq, sr/11)]. -/
def Obligations.SmoothedFrequencyIsBounded : Prop :=
  ∀ (s t : State) (sr : F64), tickOf sr s t → s.cfg.num = .binary64 → F64.within F64.one kRateMax sr = true →
    F64.within F64.zero kRateMax s.dec.currentFreq = true →
    F64.le F64.zero t.dec.currentFreq = true
    ∧ (F64.le t.dec.currentFreq s.dec.currentFreq = true ∨ F64.le t.dec.currentFreq (F64.div sr (F64.decimal 11 0)) = true)

/-- R22. |dcOffset| ≤ 1 is kept by every step in the default domain NUM, with no other premise. -/
def Obligations.DcOffsetStaysInUnitRange : Prop :=
  ∀ s t : State, step s = .next t → s.cfg.num = .binary64 → F64.within (F64.neg F64.one) F64.one s.dec.dcOffset = true →
    F64.within (F64.neg F64.one) F64.one t.dec.dcOffset = true

/-! ## The sync state machine (41_sync_state_machine) -/

/-- R121. The only transitions of syncState, over every step of the machine. -/
def Obligations.SyncTransitionsAreTheListed : Prop :=
  ∀ s t : State, step s = .next t →
    t.dec.syncState = s.dec.syncState
    ∨ (s.dec.syncState = .searchingSync ∧ t.dec.syncState = .waitSyncEnd)
    ∨ (s.dec.syncState = .waitSyncEnd ∧ t.dec.syncState = .scanning)
    ∨ (s.dec.syncState = .scanning ∧ t.dec.syncState = .searchingSync)
    ∨ (s.dec.syncState = .scanning ∧ t.dec.syncState = .waitSyncEnd)
    ∨ (t.dec.syncState = .searchingSync ∧ ∃ c rest, s.script = .command c :: rest ∧ c.word = 0x10000000#32)

/-- R123. ARM_SEARCH: the pulse detector, which moves on at a streak above 4 and changes nothing else. -/
def Obligations.SearchArmDetectsThePulse : Prop :=
  ∀ (s t : State) (sr : F64), tickOf sr s t → s.dec.syncState = .searchingSync →
    t.dec.syncState = (if t.dec.syncStreak > 4 then .waitSyncEnd else .searchingSync)
    ∧ t.dec.samplesSinceLineStart = s.dec.samplesSinceLineStart ∧ t.dec.currentLine = s.dec.currentLine
    ∧ t.dec.mem = s.dec.mem ∧ t.events = s.events

/-- R124. ARM_WAIT: at a streak below 2 a line starts, with its counter at 0 and LINE_START of the unchanged line. -/
def Obligations.WaitArmStartsTheLine : Prop :=
  ∀ (s t : State) (sr : F64), tickOf sr s t → s.dec.syncState = .waitSyncEnd →
    (if t.dec.syncStreak < 2 then
      t.dec.syncState = .scanning ∧ t.dec.samplesSinceLineStart = 0 ∧ t.events = s.events ++ [.lineStart s.dec.currentLine]
    else
      t.dec.syncState = .waitSyncEnd ∧ t.dec.samplesSinceLineStart = s.dec.samplesSinceLineStart ∧ t.events = s.events)
    ∧ t.dec.currentLine = s.dec.currentLine ∧ t.dec.mem = s.dec.mem

/-- R125, R126, R127, R128. ARM_SCAN: the counter, SCAN at t = counter / DEC_SR, then the watchdog, else the early resync, else
nothing. `m` and `es` are what SCAN leaves and emits. -/
def Obligations.ScanArmEndsTheLine : Prop :=
  ∀ (s t : State) (sr : F64), tickOf sr s t → s.dec.syncState = .scanning →
    let N := s.cfg.num
    let n := s.dec.samplesSinceLineStart + 1
    ∃ m es, scanMemory s.cfg (N.div (N.ofNat n) sr) t.dec.currentFreq s.dec.currentLine s.dec.mem = .ok (m, es)
      ∧ t.dec.mem = m ∧ t.dec.samplesSinceLineStart = n
      ∧ if N.natGt n (N.mul (F64.decimal 16 2) sr) = true then
          t.dec.syncState = .searchingSync
          ∧ (if 240 ≤ s.dec.currentLine + 1 then
              t.dec.currentLine = 0 ∧ t.events = s.events ++ es ++ [.frameComplete m.img]
            else t.dec.currentLine = s.dec.currentLine + 1 ∧ t.events = s.events ++ es)
        else if N.natGt n (N.mul (F64.decimal 14 2) sr) = true ∧ t.dec.syncStreak > 4 then
          t.dec.syncState = .waitSyncEnd ∧ t.dec.currentLine = (s.dec.currentLine + 1) % 240 ∧ t.events = s.events ++ es
        else t.dec.syncState = .scanning ∧ t.dec.currentLine = s.dec.currentLine ∧ t.events = s.events ++ es

/-- R130. Without a rising crossing currentFreq is frozen: out of the band SearchingSync stays and WaitSyncEnd starts a line; in the
band the streak grows and WaitSyncEnd stays. -/
def Obligations.SilenceKeepsTheIdleStates : Prop :=
  ∀ (s t : State) (sr : F64), tickOf sr s t →
    let N := s.cfg.num
    (N.lt F64.zero t.dec.previousValue && N.le s.dec.previousValue F64.zero) = false →
    t.dec.currentFreq = s.dec.currentFreq
    ∧ (inBand N s.dec.currentFreq = false → t.dec.syncStreak = 0
        ∧ (s.dec.syncState = .searchingSync → t.dec.syncState = .searchingSync ∧ t.events = s.events)
        ∧ (s.dec.syncState = .waitSyncEnd → t.dec.syncState = .scanning))
    ∧ (inBand N s.dec.currentFreq = true → t.dec.syncStreak = s.dec.syncStreak + 1
        ∧ (s.dec.syncState = .waitSyncEnd → 1 ≤ s.dec.syncStreak → t.dec.syncState = .waitSyncEnd ∧ t.events = s.events))

/-- R127(a), R142, R252. A FRAME_COMPLETE comes only from a DEC_SAMPLE in Scanning whose watchdog ends line 239; it carries IMG as
it is after that tick, and the machine is then in SearchingSync at line 0. -/
def Obligations.FrameCompleteOnlyFromTheWatchdog : Prop :=
  ∀ (s t : State) (es : List Event) (img : Cells (Cells RGB)),
    step s = .next t → t.events = s.events ++ es → .frameComplete img ∈ es →
    ∃ sr c rest, s.script = .command c :: rest ∧ c.word = 0x12000000#32 ∧ s.dec.sr = some sr
      ∧ s.dec.syncState = .scanning ∧ 240 ≤ s.dec.currentLine + 1
      ∧ s.cfg.num.natGt (s.dec.samplesSinceLineStart + 1) (s.cfg.num.mul (F64.decimal 16 2) sr) = true
      ∧ img = t.dec.mem.img ∧ t.dec.currentLine = 0 ∧ t.dec.syncState = .searchingSync

/-- R120, R256. In the default domain NUM a tick emits at most one event, at every rate in 1..2^32 and in every state of the
decoder. -/
def Obligations.TickEmitsAtMostOneEvent : Prop :=
  ∀ (s t : State) (sr : F64), tickOf sr s t → s.cfg.num = .binary64 → F64.within F64.one kRateMax sr = true →
    ∃ es, t.events = s.events ++ es ∧ es.length ≤ 1

/-- R28. While Scanning the line counter does not pass floor(0.16·DEC_SR): kept by every step that leaves DEC_SR as it was. -/
def Obligations.LineCounterStaysBelowTheWatchdog : Prop :=
  ∀ s t : State, Inv s → step s = .next t → t.dec.sr = s.dec.sr → lineCounterOk s.cfg.num s.dec → lineCounterOk t.cfg.num t.dec

/-- R301. A line that has started ends: from Scanning, a stream of admitted samples that takes the line counter to
floor(0.16·DEC_SR) + 1 leaves Scanning on the way. -/
def Obligations.ScanningEndsWithinTheWatchdogBound : Prop :=
  ∀ (s : State) (sr : F64) (raws : List F64) (rest : List HostMove),
    Inv s → lineCounterOk s.cfg.num s.dec → s.dec.sr = some sr → s.dec.syncState = .scanning →
    s.script = sampleMoves raws ++ rest → (∀ raw ∈ raws, unitSample raw = true) →
    lastLineSample s.cfg.num sr + 1 ≤ (s.dec.samplesSinceLineStart + raws.length : Nat) →
    ∃ (k : Nat) (t : State), k ≤ raws.length ∧ Sys2Proof.core.run k s = .next t ∧ t.dec.syncState ≠ .scanning

/-! ## The scanline decoder (42_scanline_decoder) -/

/-- R151, R153. In the luma window the column is always in range, in the default domain NUM; its cell of LUMA, where it is in range,
takes the value of the frequency, every other cell of LUMA and all of CR, CB and IMG read as before, and no PIXEL is emitted. -/
def Obligations.LumaWindowWritesOneCell : Prop :=
  ∀ (s t : State) (sr : F64), tickOf sr s t → s.dec.syncState = .scanning → Memory.wf s.dec.mem = true →
    let N := s.cfg.num
    let τ := N.div (N.ofNat (s.dec.samplesSinceLineStart + 1)) sr
    let x := N.floor (N.mul (N.div (N.sub τ (F64.decimal 3 3)) (F64.decimal 88 3)) (F64.decimal 320 0))
    let val := N.clamp (N.mul (N.div (N.sub t.dec.currentFreq (F64.decimal 1500 0)) (F64.decimal 800 0))
      (F64.decimal 255 0)) F64.zero (F64.decimal 255 0)
    (N.lt (F64.decimal 3 3) τ && N.lt τ (N.add (F64.decimal 3 3) (F64.decimal 88 3))) = true →
    (s.cfg.num = .binary64 → 0 ≤ x ∧ x < 320)
    ∧ (∀ j < 320, lumaAt t.dec.mem j = if (j : Int) = x then .ok val else lumaAt s.dec.mem j)
    ∧ t.dec.mem.cr = s.dec.mem.cr ∧ t.dec.mem.cb = s.dec.mem.cb ∧ t.dec.mem.img = s.dec.mem.img
    ∧ ∃ es, t.events = s.events ++ es ∧ ∀ e ∈ es, isPixel e = false

/-- R154, R155, R156, R157. In the chroma window, in the default domain NUM, the luma window's test has failed and the column is
always in range; where both hold, in any domain, the value goes into CR on an even line and CB on an odd one; the pixel rebuilt from
the three buffers after that write goes to IMG[line][x] and to a PIXEL event; every other cell reads as before. -/
def Obligations.ChromaWindowWritesCellAndPixel : Prop :=
  ∀ (s t : State) (sr : F64), tickOf sr s t → s.dec.syncState = .scanning → Memory.wf s.dec.mem = true →
    let N := s.cfg.num
    let τ := N.div (N.ofNat (s.dec.samplesSinceLineStart + 1)) sr
    let x := N.floor (N.mul (N.div (N.sub τ (F64.decimal 97 3)) (F64.decimal 44 3)) (F64.decimal 320 0))
    let val := N.clamp (N.mul (N.div (N.sub t.dec.currentFreq (F64.decimal 1500 0)) (F64.decimal 800 0))
      (F64.decimal 255 0)) F64.zero (F64.decimal 255 0)
    (N.lt (F64.decimal 97 3) τ && N.lt τ (F64.decimal 141 3)) = true →
    let luma := N.lt (F64.decimal 3 3) τ && N.lt τ (N.add (F64.decimal 3 3) (F64.decimal 88 3))
    (s.cfg.num = .binary64 → luma = false ∧ 0 ≤ x ∧ x < 320)
    ∧ (luma = false → 0 ≤ x → x < 320 →
      (∀ j < 320, crAt t.dec.mem j = if s.dec.currentLine % 2 = 0 ∧ (j : Int) = x then .ok val else crAt s.dec.mem j)
      ∧ (∀ j < 320, cbAt t.dec.mem j = if s.dec.currentLine % 2 = 1 ∧ (j : Int) = x then .ok val else cbAt s.dec.mem j)
      ∧ t.dec.mem.luma = s.dec.mem.luma
      ∧ ∃ y cb cr, lumaAt t.dec.mem x.toNat = .ok y ∧ cbAt t.dec.mem x.toNat = .ok cb ∧ crAt t.dec.mem x.toNat = .ok cr
        ∧ (∀ i < 320, ∀ l < 240, pixelAt t.dec.mem i l =
            if (i : Int) = x ∧ l = s.dec.currentLine then .ok (quantise N s.cfg.pixelQuant (yuv2rgb N y cb cr))
            else pixelAt s.dec.mem i l)
        ∧ ∃ es, t.events = s.events ++ .pixel x.toNat s.dec.currentLine (quantise N s.cfg.pixelQuant (yuv2rgb N y cb cr)) :: es
          ∧ ∀ e ∈ es, isPixel e = false)

/-- R158. PIXEL_QUANT = none changes no pixel, in any domain NUM; roundToByte, in the default one, makes each channel of a pixel in
[0, 255] the nearest integer in 0..255, the even one of two that are equally near. -/
def Obligations.QuantisationRoundsToNearest : Prop :=
  ∀ c : RGB, (∀ N : NumDomain, quantise N .none c = c)
    ∧ (pixelRange c = true →
        let p := quantise .binary64 .roundToByte c
        ∀ v w, (v, w) ∈ [(c.r, p.r), (c.g, p.g), (c.b, p.b)] →
          ∃ n : Nat, n ≤ 255 ∧ w.isFinite = true ∧ w.units = (n * F64.unitsPerOne : Int)
            ∧ 2 * (v.units - n * F64.unitsPerOne).natAbs ≤ F64.unitsPerOne
            ∧ (2 * (v.units - n * F64.unitsPerOne).natAbs = F64.unitsPerOne → n % 2 = 0))

/-- R152. Both windows are open: at the porch, at the separator and the chroma porch, and from 0.141 s on, SCAN writes nothing and
emits nothing. -/
def Obligations.NothingIsWrittenOutsideTheWindows : Prop :=
  ∀ (s t : State) (sr : F64), tickOf sr s t → s.dec.syncState = .scanning →
    let N := s.cfg.num
    let τ := N.div (N.ofNat (s.dec.samplesSinceLineStart + 1)) sr
    (N.lt (F64.decimal 3 3) τ && N.lt τ (N.add (F64.decimal 3 3) (F64.decimal 88 3))) = false →
    (N.lt (F64.decimal 97 3) τ && N.lt τ (F64.decimal 141 3)) = false →
    t.dec.mem = s.dec.mem ∧ ∃ es, t.events = s.events ++ es ∧ ∀ e ∈ es, isPixel e = false

/-- R62, R157. Every step keeps the canonical form of the decoder's arrays, from any state. The form itself (rising indices in
bounds, no cell listed that holds its default) is the model's representation of an array, notes/assumptions/20.md; the rules give
the writes. -/
def Obligations.StepKeepsTheMemoryForm : Prop :=
  ∀ s t : State, step s = .next t → Memory.wf s.dec.mem = true → Memory.wf t.dec.mem = true

/-! ## Admission, refusals and statuses (60_exceptions) -/

/-- R258. The domains: a sample is a finite value in [-1, 1]; a CVT operand is finite with magnitude at most 65536; the default
SR_ADMIT holds the finite rates in 1..2^32; a WAV rate is an integer in 1..2147483647; a raster component is an integer in 0..255.
That -0.0 counts as the integer 0 is the model's reading (notes/assumptions/21.md). -/
def Obligations.AdmissionDomains : Prop :=
  ∀ v : F64,
    (unitSample v = true ↔
      v.isFinite = true ∧ -(F64.unitsPerOne : Int) ≤ v.units ∧ v.units ≤ (F64.unitsPerOne : Int))
    ∧ (cvtOperand v = true ↔
      v.isFinite = true ∧ -(65536 * F64.unitsPerOne : Int) ≤ v.units ∧ v.units ≤ (65536 * F64.unitsPerOne : Int))
    ∧ (srAdmitted Config.standard v = true ↔
      v.isFinite = true ∧ (F64.unitsPerOne : Int) ≤ v.units ∧ v.units ≤ (4294967296 * F64.unitsPerOne : Int))
    ∧ (∀ n : Nat, wavRate v = some n ↔
      v.isFinite = true ∧ v.units = (n * F64.unitsPerOne : Int) ∧ 1 ≤ n ∧ n ≤ 2147483647)
    ∧ (∀ n : Nat, byteComponent v = some n ↔ v.isFinite = true ∧ v.units = (n * F64.unitsPerOne : Int) ∧ n ≤ 255)

/-- R258, R259. A command whose operands are not admitted is refused with the reason of the table, the first that applies (R256), and
nothing else of the state changes. -/
def Obligations.RefusedOperands : Prop :=
  ∀ s : State,
    (srAdmitted s.cfg s.cmd.a0 = false →
        (∃ t, exec .decSetRate s = .next t ∧ refusedWith s t .refRate) ∧ ∃ t, exec .encEncode s = .next t ∧ refusedWith s t .refRate)
    ∧ (∀ rows, s.cmd.b0 = .raster rows → srAdmitted s.cfg s.cmd.a0 = true → s.enc.busy = false →
        (rows.length = 240 ∧ ∀ row ∈ rows, row.length = 320) →
        (∃ row ∈ rows, ∃ c ∈ row, ∃ v ∈ [c.r, c.g, c.b], byteComponent v = none) →
        ∃ t, exec .encEncode s = .next t ∧ refusedWith s t .refRasterValue)
    ∧ (s.dec.sr = none → ∃ t, exec .decSample s = .next t ∧ refusedWith s t .refRateUnset)
    ∧ (∀ sr, s.dec.sr = some sr → unitSample s.cmd.a0 = false →
        ∃ t, exec .decSample s = .next t ∧ refusedWith s t .refSampleRange)
    ∧ ((cvtOperand s.cmd.a0 && cvtOperand s.cmd.a1 && cvtOperand s.cmd.a2) = false →
        (∃ t, exec .cvtRgb2yuv s = .next t ∧ refusedWith s t .refCvtOperand)
        ∧ ∃ t, exec .cvtYuv2rgb s = .next t ∧ refusedWith s t .refCvtOperand)
    ∧ (cvtOperand s.cmd.a0 = false →
        (∃ t, exec .cvtVal2freq s = .next t ∧ refusedWith s t .refCvtOperand)
        ∧ ∃ t, exec .cvtFreq2val s = .next t ∧ refusedWith s t .refCvtOperand)
    ∧ (wavRate s.cmd.a0 = none → ∃ t, exec .wavSerialize s = .next t ∧ refusedWith s t .refWavRate)
    ∧ (∀ n l, wavRate s.cmd.a0 = some n → s.cmd.b0 = .samples l → 2147483629 < l.length →
        ∃ t, exec .wavSerialize s = .next t ∧ refusedWith s t .refWavSize)
    ∧ (∀ n l, wavRate s.cmd.a0 = some n → s.cmd.b0 = .samples l → l.length ≤ 2147483629 → (∃ v ∈ l, unitSample v = false) →
        ∃ t, exec .wavSerialize s = .next t ∧ refusedWith s t .refWavSample)

/-- R259. No step clears the mark or replaces its reason, and the command that sets it changes nothing else. -/
def Obligations.RefusedMarkIsKept : Prop :=
  ∀ s t : State, step s = .next t →
    (∀ why, s.refused = some why → t.refused = some why) ∧ (t.refused ≠ s.refused → sameAgents s t ∧ s.refused = none)

/-- R250. The codes of the five statuses, which are all that a command returns that is not refused. -/
def Obligations.StatusCodesAreTheTable : Prop :=
  statusCode .ok = 0x00#8 ∧ statusCode .illegalCommand = 0x01#8 ∧ statusCode .configDimension = 0x02#8
  ∧ statusCode .emptyBuffer = 0x03#8 ∧ statusCode .encBusyErr = 0x04#8
  ∧ ∀ (i : Instr) (s t : State), exec i s = .next t → t.refused = none → ∃ r, t.resp = some r ∧ r.status.toNat ≤ 4

/-- R250. Every status other than OK is precise: a command that changes a register, an array or the port has returned OK. -/
def Obligations.OnlyOkCommandsChangeState : Prop :=
  ∀ (i : Instr) (s t : State), exec i s = .next t → ¬(t.dec = s.dec ∧ t.enc = s.enc ∧ t.events = s.events) → statusIs t .ok

/-! ## The two agents (00_scope R4, 44_modulator R199) -/

/-- R4, R199, R230, R268. A command that is not the decoder's leaves the decoder, one that is not the encoder's leaves the encoder,
the encoder's own step leaves the decoder; what a command does to one agent does not depend on the other; and what the encoder's own
step does and emits depends on the encoder alone. -/
def Obligations.AgentsShareNoState : Prop :=
  (∀ (i : Instr) (s t : State), exec i s = .next t →
    (i ≠ .decReset → i ≠ .decSetRate → i ≠ .decSample → t.dec = s.dec)
    ∧ (i ≠ .encEncode → i ≠ .encCancel → t.enc = s.enc ∧ t.cancelled = s.cancelled))
  ∧ (∀ s t : State, encoderMove s = .next t → t.dec = s.dec ∧ t.refused = s.refused ∧ t.resp = s.resp ∧ t.cancelled = s.cancelled)
  ∧ (∀ (i : Instr) (s s' t t' : State), s'.cfg = s.cfg → s'.cmd = s.cmd → s'.dec = s.dec →
      exec i s = .next t → exec i s' = .next t' → t'.dec = t.dec)
  ∧ (∀ (i : Instr) (s s' t t' : State), s'.cfg = s.cfg → s'.cmd = s.cmd → s'.enc = s.enc →
      exec i s = .next t → exec i s' = .next t' → t'.enc = t.enc)
  ∧ ∀ s s' t : State, s'.cfg = s.cfg → s'.enc = s.enc → encoderMove s = .next t →
      ∃ t' es, encoderMove s' = .next t' ∧ t'.enc = t.enc ∧ t.events = s.events ++ es ∧ t'.events = s'.events ++ es

/-- R70. The decoder does not depend on the schedule: a run of commands with any number of encoder steps between them leaves the same
decoder, and the same decoder events in the same order, as the run of the commands alone. -/
def Obligations.DecoderDoesNotDependOnTheSchedule : Prop :=
  ∀ s t t' : State, (∀ m ∈ s.script, isCommand m = true ∨ m = .encStep) →
    Sys2Proof.core.run s.script.length s = .next t →
    Sys2Proof.core.run (s.script.filter isCommand).length { s with script := s.script.filter isCommand } = .next t' →
    t'.dec = t.dec ∧ t'.events.filter isDecoderEvent = t.events.filter isDecoderEvent

/-! ## The encoder's commands (44_modulator) -/

/-- R190, R253, R255. ENC_ENCODE of a raster: the four checks in their order, each with no other effect; with none of them, the
encoder is initialised with a copy of the raster and is busy at segment 0, and nothing else changes. The clause t.cancelled = false,
that no status has ended the new encode, is the model's choice (notes/assumptions/3.md); that a component -0.0 is accepted, as the
integer 0, is the model's reading (notes/assumptions/21.md). A B0 that holds no raster is left out (notes/assumptions/11.md). -/
def Obligations.EncEncodeResult : Prop :=
  ∀ (s : State) (rows : List (List RGB)), s.cmd.b0 = .raster rows →
    let shape := rows.length = 240 ∧ ∀ row ∈ rows, row.length = 320
    let bytes := ∀ row ∈ rows, ∀ c ∈ row, ∀ v ∈ [c.r, c.g, c.b], byteComponent v ≠ none
    (srAdmitted s.cfg s.cmd.a0 = false → ∃ t, exec .encEncode s = .next t ∧ refusedWith s t .refRate)
    ∧ (srAdmitted s.cfg s.cmd.a0 = true → s.enc.busy = true →
        ∃ t, exec .encEncode s = .next t ∧ onlyStatus s t .encBusyErr)
    ∧ (srAdmitted s.cfg s.cmd.a0 = true → s.enc.busy = false → ¬shape →
        ∃ t, exec .encEncode s = .next t ∧ onlyStatus s t .configDimension)
    ∧ (srAdmitted s.cfg s.cmd.a0 = true → s.enc.busy = false → shape → ¬bytes →
        ∃ t, exec .encEncode s = .next t ∧ refusedWith s t .refRasterValue)
    ∧ (srAdmitted s.cfg s.cmd.a0 = true → s.enc.busy = false → shape → bytes →
        ∃ t, exec .encEncode s = .next t ∧ statusIs t .ok
          ∧ t.cfg = s.cfg ∧ t.dec = s.dec ∧ t.events = s.events ∧ t.refused = s.refused
          ∧ t.cancelled = false ∧ t.enc.busy = true ∧ t.enc.sr = s.cmd.a0 ∧ t.enc.sampleIndex = 0 ∧ t.enc.phase = F64.zero
          ∧ t.enc.elapsed = F64.zero ∧ t.enc.out = [] ∧ t.enc.segIndex = 0
          ∧ t.enc.segRemaining = (s.cfg.num.floor (s.cfg.num.mul (s.cfg.num.add F64.zero (F64.decimal 3 1)) s.cmd.a0)).toNat
          ∧ ∀ y x row c, rows[y]? = some row → row[x]? = some c →
              ∃ p, readRaster t.enc.raster x y = .ok p
                ∧ byteComponent c.r = some p.r ∧ byteComponent c.g = some p.g ∧ byteComponent c.b = some p.b)

/-- R198. ENC_CANCEL completes in every state: a busy encoder becomes idle with its buffer discarded and no event, an idle one stays
as it is; nothing else changes. The clauses on `cancelled`, set by a cancel that found an encode and kept by one that found none,
are the model's choice: they are how its status ends the encode for a wait (notes/assumptions/3.md). -/
def Obligations.EncCancelResult : Prop :=
  ∀ s : State, ∃ t, exec .encCancel s = .next t ∧ statusIs t .ok
    ∧ t.cfg = s.cfg ∧ t.dec = s.dec ∧ t.events = s.events ∧ t.refused = s.refused
    ∧ (s.enc.busy = true →
        t.cancelled = true ∧ t.enc.busy = false ∧ t.enc.out = [] ∧ t.enc = { s.enc with outRev := [], busy := false })
    ∧ (s.enc.busy = false → t.enc = s.enc ∧ t.cancelled = s.cancelled)

/-! ## The encoder's own steps (43_phase_accumulator, 44_modulator) -/

/-- R192, R193. The segment list is the table, row for row, and has no row past index 154,563. -/
def Obligations.SegmentListIsTheTable : Prop :=
  ∀ (N : NumDomain) (raster : Cells (Cells Pixel)),
    segmentRow N raster 0 = .ok (F64.decimal 3 1, F64.decimal 1900 0) ∧ segmentRow N raster 1 = .ok (F64.decimal 1 2, F64.decimal 1200 0)
    ∧ segmentRow N raster 2 = .ok (F64.decimal 3 1, F64.decimal 1900 0) ∧ segmentRow N raster 3 = .ok (F64.decimal 3 2, F64.decimal 1200 0)
    ∧ (∀ l < 240,
        segmentRow N raster (4 + 644 * l) = .ok (F64.decimal 9 3, F64.decimal 1200 0)
        ∧ segmentRow N raster (5 + 644 * l) = .ok (F64.decimal 3 3, F64.decimal 1500 0)
        ∧ segmentRow N raster (326 + 644 * l) = .ok (F64.decimal 45 4, F64.decimal 1500 0)
        ∧ segmentRow N raster (327 + 644 * l) = .ok (F64.decimal 15 4, F64.decimal 1900 0)
        ∧ ∀ x < 320, ∃ p, readRaster raster x l = .ok p
          ∧ segmentRow N raster (6 + 644 * l + x) = .ok (N.div (F64.decimal 88 3) (F64.decimal 320 0),
              val2freq N (rgb2yuv N (N.ofNat p.r) (N.ofNat p.g) (N.ofNat p.b)).y)
          ∧ segmentRow N raster (328 + 644 * l + x) = .ok (N.div (F64.decimal 44 3) (F64.decimal 320 0),
              if l % 2 = 0 then val2freq N (rgb2yuv N (N.ofNat p.r) (N.ofNat p.g) (N.ofNat p.b)).cr
              else val2freq N (rgb2yuv N (N.ofNat p.r) (N.ofNat p.g) (N.ofNat p.b)).cb))
    ∧ ∀ k, 154564 ≤ k → segmentAt k = none

/-- R172, R174, R175. An encoder step with samples left in its segment advances the phase by (TWO_PI·f)/ENC_SR, wrapped, counts one
more sample, and emits AMP·SIN of the old or the new phase by PHASE_ORDER: the sample is the newest one of ENC_OUT, or of the
ENC_DONE with which the step completes the encode. While the segment still has samples nothing else changes. It holds wherever the
encoder steps: by its own move in the script, inside a wait and after the script. -/
def Obligations.EncoderStepEmitsOneSample : Prop :=
  ∀ (s t : State) (d f : F64), s.enc.busy = true →
    let N := s.cfg.num
    segmentRow N s.enc.raster s.enc.segIndex = .ok (d, f) → 0 < s.enc.segRemaining → encoderMove s = .next t →
    ∃ p v, wrapPhase N (N.add s.enc.phase (N.div (N.mul ⟨0x401921FB54442D18#64⟩ f) s.enc.sr)) = .ok p
      ∧ v = N.mul s.cfg.amp
          (sine s.cfg.sine (match s.cfg.phaseOrder with | .sampleThenAdvance => s.enc.phase | .advanceThenSample => p))
      ∧ t.enc.phase = p ∧ t.enc.sampleIndex = s.enc.sampleIndex + 1 ∧ t.enc.sr = s.enc.sr ∧ t.enc.raster = s.enc.raster
      ∧ (t.enc.busy = true → t.enc.out = s.enc.out ++ [v])
      ∧ (t.enc.busy = false → t.events = s.events ++ [.encDone (s.enc.out ++ [v])])
      ∧ (1 < s.enc.segRemaining →
          t = { s with
            enc := { s.enc with
              phase := p
              sampleIndex := s.enc.sampleIndex + 1
              segRemaining := s.enc.segRemaining - 1
              outRev := v :: s.enc.outRev } })

/-- R173, R195, R171. An encoder step that leaves its segment with no sample to come emits that segment's last sample, or none where
it has none, and then adds the segment's duration to elapsed; past the last segment the whole buffer leaves in ENC_DONE and the
encoder is idle and empty; else the next segment becomes current with its count from the absolute target. ENC_SR, ENC_RASTER and all
that is not the encoder's stay. -/
def Obligations.EncoderStepEndsTheSegment : Prop :=
  ∀ (s t : State) (d f : F64), s.enc.busy = true →
    let N := s.cfg.num
    segmentRow N s.enc.raster s.enc.segIndex = .ok (d, f) → s.enc.segRemaining ≤ 1 → encoderMove s = .next t →
    ∃ (emitted : List F64) (p : F64),
      (if s.enc.segRemaining = 0 then emitted = [] ∧ p = s.enc.phase
        else wrapPhase N (N.add s.enc.phase (N.div (N.mul ⟨0x401921FB54442D18#64⟩ f) s.enc.sr)) = .ok p
          ∧ emitted = [N.mul s.cfg.amp
              (sine s.cfg.sine (match s.cfg.phaseOrder with | .sampleThenAdvance => s.enc.phase | .advanceThenSample => p))])
      ∧ t.enc.phase = p ∧ t.enc.sampleIndex = s.enc.sampleIndex + s.enc.segRemaining
      ∧ t.enc.sr = s.enc.sr ∧ t.enc.raster = s.enc.raster
      ∧ t.cfg = s.cfg ∧ t.dec = s.dec ∧ t.refused = s.refused ∧ t.script = s.script ∧ t.resp = s.resp ∧ t.cancelled = s.cancelled
      ∧ t.enc.elapsed = N.add s.enc.elapsed d
      ∧ if s.enc.segIndex + 1 = 154564 then
          t.enc.busy = false ∧ t.enc.out = [] ∧ t.events = s.events ++ [.encDone (s.enc.out ++ emitted)]
        else
          t.enc.busy = true ∧ t.enc.out = s.enc.out ++ emitted ∧ t.enc.segIndex = s.enc.segIndex + 1
          ∧ ∃ d' f', segmentRow N s.enc.raster (s.enc.segIndex + 1) = .ok (d', f') ∧ t.enc.segRemaining =
              (N.floor (N.mul (N.add t.enc.elapsed d') s.enc.sr) - (t.enc.sampleIndex : Int)).toNat

/-- R174. WRAP subtracts TWO_PI while the phase is at least TWO_PI, and stops below it. -/
def Obligations.WrapSubtractsWholeTurns : Prop :=
  ∀ (N : NumDomain) (p q : F64), wrapPhase N p = .ok q →
    N.le ⟨0x401921FB54442D18#64⟩ q = false
    ∧ ∃ n : Nat, q = (fun v => N.sub v ⟨0x401921FB54442D18#64⟩)^[n] p
      ∧ ∀ m < n, N.le ⟨0x401921FB54442D18#64⟩ ((fun v => N.sub v ⟨0x401921FB54442D18#64⟩)^[m] p) = true

/-- R175. Whatever the configured sine, in the default domain NUM, an amplitude in [-1, 1] keeps every sample in [-1, 1]. -/
def Obligations.OscillatorSampleInUnitRange : Prop :=
  ∀ (cfg : Config) (phase : F64), cfg.num = .binary64 → F64.within (F64.neg F64.one) F64.one cfg.amp = true →
    F64.within (F64.neg F64.one) F64.one (oscSample cfg phase) = true

/-- R196. PROGRESS(L, 240) is emitted exactly by the encoder step that makes line L's SYNC segment 4 + 644·L current, when L is a
multiple of PROGRESS_PERIOD. It holds wherever the encoder steps. -/
def Obligations.ProgressAtTheListedLines : Prop :=
  ∀ (s t : State) (es : List Event) (l h : Nat), encoderMove s = .next t → t.events = s.events ++ es →
    (.progress l h ∈ es ↔
      s.enc.busy = true ∧ t.enc.busy = true ∧ t.enc.segIndex = s.enc.segIndex + 1 ∧ t.enc.segIndex = 4 + 644 * l
        ∧ l % s.cfg.progressPeriod = 0 ∧ h = 240)

/-- R171(a). Along the waveform, in the default domain NUM and at any rate in 1..2^32, no segment's target lies below the samples
already emitted. -/
def Obligations.SegmentCountsAreNeverNegative : Prop :=
  ∀ (cfg : Config) (raster : Cells (Cells Pixel)) (sr : F64) (k : Nat) (w : WaveState) (g : Segment),
    cfg.num = .binary64 → F64.within F64.one kRateMax sr = true → waveFrom cfg raster sr k 0 waveStart = .ok w → segmentAt k = some g →
    (w.sampleIndex : Int) ≤ F64.floor (F64.mul (F64.add w.elapsed (segmentDur .binary64 g)) sr)

/-- R177, R191, R197. The drift bound, in the default domain NUM: after segments 0..k exactly floor(E_k·sr) samples are out, with
E_k the binary64 sum of the durations d_0..d_k; and for every raster of bytes the whole waveform exists and has floor(E·sr) samples. -/
def Obligations.SampleCountFollowsTheElapsedTime : Prop :=
  ∀ (cfg : Config) (raster : Cells (Cells Pixel)) (sr : F64), cfg.num = .binary64 → F64.within F64.one kRateMax sr = true →
    (∀ k w, waveFrom cfg raster sr (k + 1) 0 waveStart = .ok w →
      (w.samples.length : Int) = F64.floor (F64.mul (durationSum .binary64 (k + 1)) sr))
    ∧ (rasterWf raster = true → ∃ buf, wave cfg raster sr = .ok buf
      ∧ (buf.length : Int) = F64.floor (F64.mul (durationSum .binary64 154564) sr))

/-- R191, R197. Every step keeps a busy encoder on the waveform WAVE(ENC_RASTER, ENC_SR), whatever the schedule, and every ENC_DONE
carries exactly that waveform. -/
def Obligations.EveryEncDoneIsTheWaveform : Prop :=
  ∀ s t : State, step s = .next t → (s.enc.busy = true → OnWave s.cfg s.enc) →
    (t.enc.busy = true → OnWave t.cfg t.enc)
    ∧ ∀ es buf, t.events = s.events ++ es → .encDone buf ∈ es → wave s.cfg s.enc.raster s.enc.sr = .ok buf

/-- R262, R286. An encode in progress completes: with no command left to issue, whatever reads, waits and encoder steps are still to
come, some number of steps ends the run. R262 and R286 say it under weak fairness of ENC_STEP; here the schedule itself is fair,
because the model gives the encoder a step whenever a wait blocks and after the script (notes/assumptions/2.md); that reads and
waits still to come do not hold the end of a run back is notes/assumptions/23.md. -/
def Obligations.EveryEncodeCompletes : Prop :=
  ∀ s : State, Inv s → (∀ m ∈ s.script, isCommand m = false) →
    ∃ (n : Nat) (t : State), Sys2Proof.core.run n s = .next t ∧ runEnded t = true

/-! ## The colour converter (45_color_converter) -/

/-- R210, R214. CVT_RGB2YUV of admitted operands completes with the three formulas in their textual order, and changes no state. -/
def Obligations.CvtRgb2yuvResult : Prop :=
  ∀ s : State, cvtOperand s.cmd.a0 = true → cvtOperand s.cmd.a1 = true → cvtOperand s.cmd.a2 = true →
    let N := s.cfg.num
    ∃ t r, exec .cvtRgb2yuv s = .next t ∧ onlyStatus s t .ok ∧ t.resp = some r
      ∧ r.q0 = N.add (F64.decimal 16 0) (N.div (N.add (N.add (N.mul (F64.decimal 65481 3) s.cmd.a0)
          (N.mul (F64.decimal 128553 3) s.cmd.a1)) (N.mul (F64.decimal 24966 3) s.cmd.a2)) (F64.decimal 255 0))
      ∧ r.q1 = N.add (F64.decimal 128 0) (N.div (N.add (N.sub (N.mul (F64.neg (F64.decimal 37797 3)) s.cmd.a0)
          (N.mul (F64.decimal 74203 3) s.cmd.a1)) (N.mul (F64.decimal 112 0) s.cmd.a2)) (F64.decimal 255 0))
      ∧ r.q2 = N.add (F64.decimal 128 0) (N.div (N.sub (N.sub (N.mul (F64.decimal 112 0) s.cmd.a0)
          (N.mul (F64.decimal 93786 3) s.cmd.a1)) (N.mul (F64.decimal 18214 3) s.cmd.a2)) (F64.decimal 255 0))

/-- R211, R215. CVT_YUV2RGB of admitted operands completes with the three clamped formulas, and changes no state. -/
def Obligations.CvtYuv2rgbResult : Prop :=
  ∀ s : State, cvtOperand s.cmd.a0 = true → cvtOperand s.cmd.a1 = true → cvtOperand s.cmd.a2 = true →
    let N := s.cfg.num
    ∃ t r, exec .cvtYuv2rgb s = .next t ∧ onlyStatus s t .ok ∧ t.resp = some r
      ∧ r.q0 = N.clamp (N.add s.cmd.a0 (N.mul (F64.decimal 1402 3) (N.sub s.cmd.a2 (F64.decimal 128 0))))
          F64.zero (F64.decimal 255 0)
      ∧ r.q1 = N.clamp (N.sub (N.sub s.cmd.a0 (N.mul (F64.decimal 344 3) (N.sub s.cmd.a1 (F64.decimal 128 0))))
          (N.mul (F64.decimal 714 3) (N.sub s.cmd.a2 (F64.decimal 128 0)))) F64.zero (F64.decimal 255 0)
      ∧ r.q2 = N.clamp (N.add s.cmd.a0 (N.mul (F64.decimal 1772 3) (N.sub s.cmd.a1 (F64.decimal 128 0))))
          F64.zero (F64.decimal 255 0)

/-- R212, R216. CVT_VAL2FREQ of an admitted operand completes with 1500 + v·(800/255), whatever A1 and A2 hold, and changes no
state; in the default domain NUM the quotient is 3.1372549019607843, and 0, 255 and 128 give the values of R212. -/
def Obligations.CvtVal2freqResult : Prop :=
  (∀ s : State, cvtOperand s.cmd.a0 = true →
    let N := s.cfg.num
    ∃ t r, exec .cvtVal2freq s = .next t ∧ onlyStatus s t .ok ∧ t.resp = some r
      ∧ r.q0 = N.add (F64.decimal 1500 0) (N.mul s.cmd.a0 (N.div (F64.decimal 800 0) (F64.decimal 255 0)))
      ∧ (s.cfg.num = .binary64 →
        (s.cmd.a0 = F64.zero → r.q0 = F64.decimal 1500 0) ∧ (s.cmd.a0 = F64.decimal 255 0 → r.q0 = F64.decimal 2300 0)
        ∧ (s.cmd.a0 = F64.decimal 128 0 → r.q0 = F64.decimal 19015686274509803 13)))
  ∧ F64.div (F64.decimal 800 0) (F64.decimal 255 0) = F64.decimal 31372549019607843 16

/-- R213, R217. CVT_FREQ2VAL of an admitted operand completes with the clamped ((f - 1500)/800)·255, whatever A1 and A2 hold, and
changes no state; in the default domain NUM it is a value in [0, 255], 0.0 for every f ≤ 1500, 255.0 for every f ≥ 2300 and 127.5
for 1900. -/
def Obligations.CvtFreq2valResult : Prop :=
  ∀ s : State, cvtOperand s.cmd.a0 = true →
    let N := s.cfg.num
    ∃ t r, exec .cvtFreq2val s = .next t ∧ onlyStatus s t .ok ∧ t.resp = some r
      ∧ r.q0 = N.clamp (N.mul (N.div (N.sub s.cmd.a0 (F64.decimal 1500 0)) (F64.decimal 800 0)) (F64.decimal 255 0))
          F64.zero (F64.decimal 255 0)
      ∧ (s.cfg.num = .binary64 → F64.within F64.zero (F64.decimal 255 0) r.q0 = true
        ∧ (F64.le s.cmd.a0 (F64.decimal 1500 0) = true → r.q0 = F64.zero)
        ∧ (F64.le (F64.decimal 2300 0) s.cmd.a0 = true → r.q0 = F64.decimal 255 0)
        ∧ (s.cmd.a0 = F64.decimal 1900 0 → r.q0 = F64.decimal 1275 1))

/-- R210. In the default domain NUM, for inputs in [0, 255] the forward transform lies in its studio range: y in [16, 235], cb and
cr in [16, 240]. -/
def Obligations.ForwardTransformRange : Prop :=
  ∀ r g b : F64, byteRange r = true → byteRange g = true → byteRange b = true →
    F64.within (F64.decimal 16 0) (F64.decimal 235 0) (rgb2yuv .binary64 r g b).y = true
    ∧ F64.within (F64.decimal 16 0) (F64.decimal 240 0) (rgb2yuv .binary64 r g b).cb = true
    ∧ F64.within (F64.decimal 16 0) (F64.decimal 240 0) (rgb2yuv .binary64 r g b).cr = true

/-- R211. In the default domain NUM, for admitted operands the inverse transform's channels lie in [0, 255]; with Cb = Cr = 128 and
Y in [0, 255] each channel has the value Y. -/
def Obligations.InverseTransformRangeAndGrey : Prop :=
  (∀ y cb cr : F64, cvtOperand y = true → cvtOperand cb = true → cvtOperand cr = true → pixelRange (yuv2rgb .binary64 y cb cr) = true)
  ∧ ∀ y : F64, byteRange y = true →
      (yuv2rgb .binary64 y (F64.decimal 128 0) (F64.decimal 128 0)).r.units = y.units
      ∧ (yuv2rgb .binary64 y (F64.decimal 128 0) (F64.decimal 128 0)).g.units = y.units
      ∧ (yuv2rgb .binary64 y (F64.decimal 128 0) (F64.decimal 128 0)).b.units = y.units

/-- R213. In the default domain NUM, FREQ2VAL of every finite frequency, those past the CVT domain too, lies in [0, 255]; it is 0.0
for every f ≤ 1500 and 255.0 for every f ≥ 2300. -/
def Obligations.FrequencyMapSaturates : Prop :=
  ∀ f : F64, f.isFinite = true →
    byteRange (freq2val .binary64 f) = true
    ∧ (F64.le f (F64.decimal 1500 0) = true → freq2val .binary64 f = F64.zero)
    ∧ (F64.le (F64.decimal 2300 0) f = true → freq2val .binary64 f = F64.decimal 255 0)

/-! ## The WAV serializer (46_wav_serializer) -/

/-- R231, R233, R254. WAV_SERIALIZE with an admitted rate: EMPTY_BUFFER on an empty buffer; on admitted samples it completes with
the 44 header bytes of the layout, then each sample's PCM16 word, low byte first, and changes no state. -/
def Obligations.WavSerializeResult : Prop :=
  ∀ (s : State) (l : List F64) (n : Nat), s.cmd.b0 = .samples l → wavRate s.cmd.a0 = some n →
    (l = [] → ∃ t, exec .wavSerialize s = .next t ∧ onlyStatus s t .emptyBuffer)
    ∧ (l ≠ [] → l.length ≤ 2147483629 → (∀ v ∈ l, unitSample v = true) →
        ∃ t r, exec .wavSerialize s = .next t ∧ onlyStatus s t .ok ∧ t.resp = some r
          ∧ r.bq.length = 44 + 2 * l.length
          ∧ r.bq.take 44 = [0x52, 0x49, 0x46, 0x46] ++ fourBytes (36 + 2 * l.length) ++ [0x57, 0x41, 0x56, 0x45]
              ++ [0x66, 0x6D, 0x74, 0x20] ++ fourBytes 16 ++ twoBytes 1 ++ twoBytes 1 ++ fourBytes n ++ fourBytes (n * 2)
              ++ twoBytes 2 ++ twoBytes 16 ++ [0x64, 0x61, 0x74, 0x61] ++ fourBytes (2 * l.length)
          ∧ ∀ i v, l[i]? = some v →
              r.bq[44 + 2 * i]? = some (BitVec.ofInt 8 (pcm16 s.cfg.num v)) ∧ r.bq[45 + 2 * i]? = some (BitVec.ofInt 8 (pcm16 s.cfg.num v / 256)))

/-- R232. PCM16 of an admitted sample: one product with 32768 below zero and 32767 otherwise, truncated; in the default domain NUM it
fits 16 bits. -/
def Obligations.Pcm16FitsSixteenBits : Prop :=
  ∀ v : F64, unitSample v = true →
    (∀ N : NumDomain, pcm16 N v = N.trunc (N.mul v (if N.lt v F64.zero = true then F64.decimal 32768 0 else F64.decimal 32767 0)))
    ∧ -32768 ≤ pcm16 .binary64 v ∧ pcm16 .binary64 v ≤ 32767

/-! ## The whole machine -/

/-- The power-on state has the invariant. Its registers ER1..ER6 hold the model's values (notes/assumptions/8.md), of which the
invariant asks nothing while the encoder is idle. -/
def Obligations.PowerOnStateHasTheInvariant : Prop := Inv State.reset

/-- R21, R22, R25, R29, R30 to R38, R40, R41. Every step from every state with the invariant keeps it: line in 0..239, |dcOffset| ≤ 1,
frequencies in range, every cell in [0, 255] and in canonical form, the encoder inside its segment list with its phase in [0, TWO_PI)
and every sample in [-1, 1]. -/
def Obligations.StepKeepsTheInvariant : Prop := ∀ s t : State, Inv s → step s = .next t → Inv t

/-- R262. No fault and no refusal of the model is reached: from every state with the invariant the step answers a next state. -/
def Obligations.InvariantStepsNeverStop : Prop := ∀ s : State, Inv s → ∃ t, step s = .next t
end

