-- ==== Sys2Proof/Laws/Cells.lean ====
section
/-! SUPPORT. The index spaces: a read after a write, every other cell unchanged, and the canonical form kept by every operation. -/

namespace Sys2Proof.Machine

section Cells

variable {α : Type} [DecidableEq α] {dflt : α} {bound : Nat} {ok : α → Bool}

omit [DecidableEq α] in
@[simp] theorem cellsGet_nil (i : Nat) : cellsGet dflt [] i = dflt := rfl

theorem cellsGet_cons_of_ne {i j : Nat} (v : α) (rest : Cells α) (h : i ≠ j) :
    cellsGet dflt (cellsCons dflt j v rest) i = cellsGet dflt rest i := by
  unfold cellsCons; split
  · rfl
  · simp [cellsGet, h]

/-- A canonical form from `lo` on is one from any smaller index on. -/
theorem cellsWf_mono {lo lo' : Nat} (c : Cells α) (h : lo' ≤ lo) (hw : cellsWf dflt bound ok lo c = true) :
    cellsWf dflt bound ok lo' c = true := by
  cases c with
  | nil => rfl
  | cons p rest =>
    simp only [cellsWf, Bool.and_eq_true, decide_eq_true_eq] at *
    exact ⟨⟨⟨⟨h.trans hw.1.1.1.1, hw.1.1.1.2⟩, hw.1.1.2⟩, hw.1.2⟩, hw.2⟩

/-- An index below every listed one reads as the default. -/
theorem cellsGet_of_lt {lo i : Nat} (c : Cells α) (hw : cellsWf dflt bound ok lo c = true) (h : i < lo) :
    cellsGet dflt c i = dflt := by
  induction c generalizing lo with
  | nil => rfl
  | cons p rest ih =>
    simp only [cellsWf, Bool.and_eq_true, decide_eq_true_eq] at hw
    simp only [cellsGet]
    rw [if_neg (by omega)]
    exact ih hw.2 (by omega)

theorem cellsGet_cons_same {lo i : Nat} (v : α) (rest : Cells α) (hw : cellsWf dflt bound ok lo rest = true) (h : i < lo) :
    cellsGet dflt (cellsCons dflt i v rest) i = v := by
  unfold cellsCons; split
  · rename_i hv; rw [hv]; exact cellsGet_of_lt rest hw h
  · simp [cellsGet]

/-- The written cell reads as what was written. -/
theorem cellsGet_set_same {lo : Nat} (c : Cells α) (i : Nat) (v : α) (hw : cellsWf dflt bound ok lo c = true) :
    cellsGet dflt (cellsSet dflt c i v) i = v := by
  induction c generalizing lo with
  | nil => exact cellsGet_cons_same (bound := bound) (ok := ok) (lo := i + 1) v [] rfl (Nat.lt_succ_self i)
  | cons p rest ih =>
    have hw' := hw
    simp only [cellsWf, Bool.and_eq_true, decide_eq_true_eq] at hw'
    simp only [cellsSet]
    split
    · rename_i h
      refine cellsGet_cons_same (bound := bound) (ok := ok) (lo := p.1) v _ ?_ h
      simp only [cellsWf, Bool.and_eq_true, decide_eq_true_eq]; exact ⟨⟨⟨⟨le_refl _, hw'.1.1.1.2⟩, hw'.1.1.2⟩, hw'.1.2⟩, hw'.2⟩
    · split
      · rename_i h1 h2; subst h2
        exact cellsGet_cons_same (bound := bound) (ok := ok) v rest hw'.2 (Nat.lt_succ_self _)
      · rename_i h1 h2
        simp only [cellsGet, if_neg h2]
        exact ih hw'.2

/-- Every other cell reads as before. -/
theorem cellsGet_set_other (c : Cells α) {i j : Nat} (v : α) (h : j ≠ i) :
    cellsGet dflt (cellsSet dflt c i v) j = cellsGet dflt c j := by
  induction c with
  | nil => exact cellsGet_cons_of_ne v [] h
  | cons p rest ih =>
    simp only [cellsSet]
    split
    · exact cellsGet_cons_of_ne v _ h
    · split
      · rename_i h1 h2; subst h2
        rw [cellsGet_cons_of_ne v rest h]; simp [cellsGet, h]
      · simp only [cellsGet, ih]

theorem cellsWf_cons {lo i : Nat} (v : α) (rest : Cells α) (hlo : lo ≤ i) (hb : i < bound) (hv : v ≠ dflt → ok v = true)
    (hw : cellsWf dflt bound ok (i + 1) rest = true) : cellsWf dflt bound ok lo (cellsCons dflt i v rest) = true := by
  unfold cellsCons; split
  · exact cellsWf_mono rest (by omega) hw
  · rename_i h
    simp only [cellsWf, Bool.and_eq_true, decide_eq_true_eq]
    exact ⟨⟨⟨⟨hlo, hb⟩, h⟩, hv h⟩, hw⟩

/-- A write inside the bounds keeps the canonical form. -/
theorem cellsWf_set {lo : Nat} (c : Cells α) (i : Nat) (v : α) (hlo : lo ≤ i) (hb : i < bound) (hv : v ≠ dflt → ok v = true)
    (hw : cellsWf dflt bound ok lo c = true) : cellsWf dflt bound ok lo (cellsSet dflt c i v) = true := by
  induction c generalizing lo with
  | nil => exact cellsWf_cons v [] hlo hb hv rfl
  | cons p rest ih =>
    have hw' := hw
    simp only [cellsWf, Bool.and_eq_true, decide_eq_true_eq] at hw'
    simp only [cellsSet]
    split
    · rename_i h
      refine cellsWf_cons v _ hlo hb hv ?_
      simp only [cellsWf, Bool.and_eq_true, decide_eq_true_eq]
      exact ⟨⟨⟨⟨h, hw'.1.1.1.2⟩, hw'.1.1.2⟩, hw'.1.2⟩, hw'.2⟩
    · split
      · rename_i h1 h2; subst h2
        exact cellsWf_cons v rest hlo hb hv hw'.2
      · rename_i h1 h2
        simp only [cellsWf, Bool.and_eq_true, decide_eq_true_eq]
        exact ⟨hw'.1, ih (by omega) hw'.2⟩

/-- What a canonical form holds at an index is the default or passes the check. -/
theorem cellsGet_ok {lo : Nat} (c : Cells α) (i : Nat) (hw : cellsWf dflt bound ok lo c = true) :
    cellsGet dflt c i = dflt ∨ ok (cellsGet dflt c i) = true := by
  induction c generalizing lo with
  | nil => exact .inl rfl
  | cons p rest ih =>
    simp only [cellsWf, Bool.and_eq_true, decide_eq_true_eq] at hw
    simp only [cellsGet]
    split
    · exact .inr hw.1.2
    · exact ih hw.2

/-- A weaker check on the values keeps the form. -/
theorem cellsWf_weaken {ok' : α → Bool} {lo : Nat} (c : Cells α) (h : ∀ v, ok v = true → ok' v = true)
    (hw : cellsWf dflt bound ok lo c = true) : cellsWf dflt bound ok' lo c = true := by
  induction c generalizing lo with
  | nil => rfl
  | cons p rest ih =>
    simp only [cellsWf, Bool.and_eq_true, decide_eq_true_eq] at *
    exact ⟨⟨hw.1.1, h _ hw.1.2⟩, ih hw.2⟩

/-- The cells made from a list are canonical. -/
theorem cellsWf_ofList {lo : Nat} (l : List α) (hb : lo + l.length ≤ bound) (hok : ∀ v ∈ l, v ≠ dflt → ok v = true) :
    cellsWf dflt bound ok lo (cellsOfList dflt lo l) = true := by
  induction l generalizing lo with
  | nil => rfl
  | cons v rest ih =>
    simp only [List.length_cons] at hb
    exact cellsWf_cons v _ (le_refl _) (by omega) (hok v (by simp)) (ih (by omega) fun w hw => hok w (by simp [hw]))

theorem cellsGet_ofList_lt (l : List α) {lo i : Nat} (h : i < lo) : cellsGet dflt (cellsOfList dflt lo l) i = dflt :=
  cellsGet_of_lt (bound := lo + l.length) (ok := fun _ => true) _ (cellsWf_ofList l (le_refl _) (by simp)) h

/-- The cells made from a list hold its elements. -/
theorem cellsGet_ofList (l : List α) (lo i : Nat) (h : i < l.length) :
    cellsGet dflt (cellsOfList dflt lo l) (lo + i) = l[i] := by
  induction l generalizing lo i with
  | nil => simp at h
  | cons v rest ih =>
    cases i with
    | zero =>
      exact cellsGet_cons_same (bound := lo + 1 + rest.length) (ok := fun _ => true) (lo := lo + 1) v _
        (cellsWf_ofList rest (le_refl _) (by simp)) (by omega)
    | succ i =>
      simp only [cellsOfList, List.getElem_cons_succ]
      rw [cellsGet_cons_of_ne _ _ (by omega), ← ih (lo + 1) i (by simpa using h)]
      congr 1; omega

end Cells

/-! ## Reads and writes with bounds -/

/-- What a bounded write can do. -/
theorem memWrite_ok_iff {α : Type} [DecidableEq α] {bound : Nat} {dflt : α} {c c' : Cells α} {i : Nat} {v : α} :
    memWrite bound dflt c i v = .ok c' ↔ i < bound ∧ c' = cellsSet dflt c i v := by
  unfold memWrite; split
  · rename_i h; simp [h, eq_comm]
  · rename_i h; simp [h]

/-- What a bounded read can do. -/
theorem memRead_ok_iff {α : Type} {bound : Nat} {dflt v : α} {c : Cells α} {i : Nat} :
    memRead bound dflt c i = .ok v ↔ i < bound ∧ v = cellsGet dflt c i := by
  unfold memRead; split
  · rename_i h; simp [h, eq_comm]
  · rename_i h; simp [h]

theorem memRead_of_lt {α : Type} {bound : Nat} (dflt : α) (c : Cells α) {i : Nat} (h : i < bound) :
    memRead bound dflt c i = .ok (cellsGet dflt c i) := by simp [memRead, h]

theorem memWrite_of_lt {α : Type} [DecidableEq α] {bound : Nat} (dflt : α) (c : Cells α) {i : Nat} (v : α) (h : i < bound) :
    memWrite bound dflt c i v = .ok (cellsSet dflt c i v) := by simp [memWrite, h]

/-- The raster with pixel (x, y) set, whatever the indices. -/
def imgSet (img : Cells (Cells RGB)) (x y : Nat) (c : RGB) : Cells (Cells RGB) :=
  cellsSet [] img y (cellsSet black (cellsGet [] img y) x c)

/-- Pixel (x, y), whatever the indices. -/
def imgGet (img : Cells (Cells RGB)) (x y : Nat) : RGB := cellsGet black (cellsGet [] img y) x

/-- What a pixel write can do. -/
theorem writeImg_ok_iff {img img' : Cells (Cells RGB)} {x y : Nat} {c : RGB} :
    writeImg img x y c = .ok img' ↔ x < width ∧ y < height ∧ img' = imgSet img x y c := by
  simp only [writeImg, bind, Except.bind, imgSet]
  by_cases hy : y < height
  · rw [memRead_of_lt _ _ hy]
    by_cases hx : x < width
    · simp only [memWrite_of_lt _ _ _ hx, memWrite_of_lt _ _ _ hy, hx, hy, Except.ok.injEq, true_and]
      exact eq_comm
    · simp [memWrite, hx]
  · simp [memRead, hy]

/-- What a pixel read can do. -/
theorem readImg_ok_iff {img : Cells (Cells RGB)} {x y : Nat} {c : RGB} :
    readImg img x y = .ok c ↔ x < width ∧ y < height ∧ c = imgGet img x y := by
  simp only [readImg, bind, Except.bind, imgGet]
  by_cases hy : y < height
  · rw [memRead_of_lt _ _ hy]
    by_cases hx : x < width
    · simp only [memRead_of_lt _ _ hx, hx, hy, Except.ok.injEq, true_and]; exact eq_comm
    · simp [memRead, hx]
  · simp [memRead, hy]

/-- What a read of ENC_RASTER can do. -/
theorem readRaster_ok_iff {raster : Cells (Cells Pixel)} {x y : Nat} {p : Pixel} :
    readRaster raster x y = .ok p ↔ x < width ∧ y < height ∧ p = cellsGet blackPixel (cellsGet [] raster y) x := by
  simp only [readRaster, bind, Except.bind]
  by_cases hy : y < height
  · rw [memRead_of_lt _ _ hy]
    by_cases hx : x < width
    · simp only [memRead_of_lt _ _ hx, hx, hy, Except.ok.injEq, true_and]; exact eq_comm
    · simp [memRead, hx]
  · simp [memRead, hy]

/-- The form of the rows of IMG, with a check on the pixels. -/
def imgWf (ok : RGB → Bool) (img : Cells (Cells RGB)) : Bool := cellsWf [] height (cellsWf black width ok 0) 0 img

/-- Row y of a raster in canonical form is in canonical form. -/
theorem imgWf_row {ok : RGB → Bool} {img : Cells (Cells RGB)} (y : Nat) (hw : imgWf ok img = true) :
    cellsWf black width ok 0 (cellsGet [] img y) = true := by
  rcases cellsGet_ok img y hw with h | h
  · rw [h]; rfl
  · exact h

/-- A pixel write keeps the canonical form of IMG. -/
theorem imgWf_set {ok : RGB → Bool} {img : Cells (Cells RGB)} {x y : Nat} {c : RGB} (hx : x < width) (hy : y < height)
    (hc : c ≠ black → ok c = true) (hw : imgWf ok img = true) : imgWf ok (imgSet img x y c) = true :=
  cellsWf_set img y _ (Nat.zero_le _) hy (fun _ => cellsWf_set _ x c (Nat.zero_le _) hx hc (imgWf_row y hw)) hw

/-- The written pixel reads as what was written. -/
theorem imgGet_set_same {ok : RGB → Bool} {img : Cells (Cells RGB)} {x y : Nat} {c : RGB} (hw : imgWf ok img = true) :
    imgGet (imgSet img x y c) x y = c := by
  unfold imgGet imgSet
  rw [cellsGet_set_same img y _ hw]
  exact cellsGet_set_same _ x c (imgWf_row y hw)

/-- Every other pixel reads as before. -/
theorem imgGet_set_other {ok : RGB → Bool} {img : Cells (Cells RGB)} {x y x' y' : Nat} {c : RGB} (hw : imgWf ok img = true)
    (h : (x', y') ≠ (x, y)) : imgGet (imgSet img x y c) x' y' = imgGet img x' y' := by
  unfold imgGet imgSet
  by_cases hy : y' = y
  · subst hy
    rw [cellsGet_set_same img y' _ hw]
    exact cellsGet_set_other _ c (fun hx => h (by rw [hx]))
  · rw [cellsGet_set_other img _ hy]

theorem Memory.wf_reset : Memory.wf Memory.reset = true := rfl

end Sys2Proof.Machine
end

