-- ==== Sys2Proof/Laws/State.lean ====
section
/-! SUPPORT. One lemma for each field of State and each update of it, true by rfl, so that no proof unfolds an update. -/

namespace Sys2Proof.Machine

/-! ## emit -/
@[simp] theorem State.emit_cfg (s : State) (es : List Event) : (s.emit es).cfg = s.cfg := rfl
@[simp] theorem State.emit_dec (s : State) (es : List Event) : (s.emit es).dec = s.dec := rfl
@[simp] theorem State.emit_enc (s : State) (es : List Event) : (s.emit es).enc = s.enc := rfl
@[simp] theorem State.emit_events (s : State) (es : List Event) : (s.emit es).events = s.events ++ es := rfl
@[simp] theorem State.emit_refused (s : State) (es : List Event) : (s.emit es).refused = s.refused := rfl
@[simp] theorem State.emit_script (s : State) (es : List Event) : (s.emit es).script = s.script := rfl
@[simp] theorem State.emit_cmd (s : State) (es : List Event) : (s.emit es).cmd = s.cmd := rfl
@[simp] theorem State.emit_resp (s : State) (es : List Event) : (s.emit es).resp = s.resp := rfl
@[simp] theorem State.emit_cancelled (s : State) (es : List Event) : (s.emit es).cancelled = s.cancelled := rfl
@[simp] theorem State.emit_freeIndex (s : State) (es : List Event) : (s.emit es).freeIndex = s.freeIndex := rfl

/-! ## respond -/
@[simp] theorem State.respond_cfg (s : State) (f : Response → Response) : (s.respond f).cfg = s.cfg := rfl
@[simp] theorem State.respond_dec (s : State) (f : Response → Response) : (s.respond f).dec = s.dec := rfl
@[simp] theorem State.respond_enc (s : State) (f : Response → Response) : (s.respond f).enc = s.enc := rfl
@[simp] theorem State.respond_events (s : State) (f : Response → Response) : (s.respond f).events = s.events := rfl
@[simp] theorem State.respond_refused (s : State) (f : Response → Response) : (s.respond f).refused = s.refused := rfl
@[simp] theorem State.respond_script (s : State) (f : Response → Response) : (s.respond f).script = s.script := rfl
@[simp] theorem State.respond_cmd (s : State) (f : Response → Response) : (s.respond f).cmd = s.cmd := rfl
@[simp] theorem State.respond_resp (s : State) (f : Response → Response) : (s.respond f).resp = some (f (freeResponse s.freeIndex)) := rfl
@[simp] theorem State.respond_cancelled (s : State) (f : Response → Response) : (s.respond f).cancelled = s.cancelled := rfl
@[simp] theorem State.respond_freeIndex (s : State) (f : Response → Response) : (s.respond f).freeIndex = s.freeIndex + 1 := rfl

/-! ## returns -/
@[simp] theorem State.returns_cfg (s : State) (st : Status) : (s.returns st).cfg = s.cfg := rfl
@[simp] theorem State.returns_dec (s : State) (st : Status) : (s.returns st).dec = s.dec := rfl
@[simp] theorem State.returns_enc (s : State) (st : Status) : (s.returns st).enc = s.enc := rfl
@[simp] theorem State.returns_events (s : State) (st : Status) : (s.returns st).events = s.events := rfl
@[simp] theorem State.returns_refused (s : State) (st : Status) : (s.returns st).refused = s.refused := rfl
@[simp] theorem State.returns_script (s : State) (st : Status) : (s.returns st).script = s.script := rfl
@[simp] theorem State.returns_cmd (s : State) (st : Status) : (s.returns st).cmd = s.cmd := rfl
@[simp] theorem State.returns_resp (s : State) (st : Status) : (s.returns st).resp = some { freeResponse s.freeIndex with status := statusCode st } := rfl
@[simp] theorem State.returns_cancelled (s : State) (st : Status) : (s.returns st).cancelled = s.cancelled := rfl
@[simp] theorem State.returns_freeIndex (s : State) (st : Status) : (s.returns st).freeIndex = s.freeIndex + 1 := rfl

/-! ## returnsQ0 -/
@[simp] theorem State.returnsQ0_cfg (s : State) (a : F64) : (s.returnsQ0 a).cfg = s.cfg := rfl
@[simp] theorem State.returnsQ0_dec (s : State) (a : F64) : (s.returnsQ0 a).dec = s.dec := rfl
@[simp] theorem State.returnsQ0_enc (s : State) (a : F64) : (s.returnsQ0 a).enc = s.enc := rfl
@[simp] theorem State.returnsQ0_events (s : State) (a : F64) : (s.returnsQ0 a).events = s.events := rfl
@[simp] theorem State.returnsQ0_refused (s : State) (a : F64) : (s.returnsQ0 a).refused = s.refused := rfl
@[simp] theorem State.returnsQ0_script (s : State) (a : F64) : (s.returnsQ0 a).script = s.script := rfl
@[simp] theorem State.returnsQ0_cmd (s : State) (a : F64) : (s.returnsQ0 a).cmd = s.cmd := rfl
@[simp] theorem State.returnsQ0_resp (s : State) (a : F64) : (s.returnsQ0 a).resp = some { freeResponse s.freeIndex with status := statusCode .ok, q0 := a } := rfl
@[simp] theorem State.returnsQ0_cancelled (s : State) (a : F64) : (s.returnsQ0 a).cancelled = s.cancelled := rfl
@[simp] theorem State.returnsQ0_freeIndex (s : State) (a : F64) : (s.returnsQ0 a).freeIndex = s.freeIndex + 1 := rfl

/-! ## returnsQ -/
@[simp] theorem State.returnsQ_cfg (s : State) (a b c : F64) : (s.returnsQ a b c).cfg = s.cfg := rfl
@[simp] theorem State.returnsQ_dec (s : State) (a b c : F64) : (s.returnsQ a b c).dec = s.dec := rfl
@[simp] theorem State.returnsQ_enc (s : State) (a b c : F64) : (s.returnsQ a b c).enc = s.enc := rfl
@[simp] theorem State.returnsQ_events (s : State) (a b c : F64) : (s.returnsQ a b c).events = s.events := rfl
@[simp] theorem State.returnsQ_refused (s : State) (a b c : F64) : (s.returnsQ a b c).refused = s.refused := rfl
@[simp] theorem State.returnsQ_script (s : State) (a b c : F64) : (s.returnsQ a b c).script = s.script := rfl
@[simp] theorem State.returnsQ_cmd (s : State) (a b c : F64) : (s.returnsQ a b c).cmd = s.cmd := rfl
@[simp] theorem State.returnsQ_resp (s : State) (a b c : F64) : (s.returnsQ a b c).resp = some { freeResponse s.freeIndex with status := statusCode .ok, q0 := a, q1 := b, q2 := c } := rfl
@[simp] theorem State.returnsQ_cancelled (s : State) (a b c : F64) : (s.returnsQ a b c).cancelled = s.cancelled := rfl
@[simp] theorem State.returnsQ_freeIndex (s : State) (a b c : F64) : (s.returnsQ a b c).freeIndex = s.freeIndex + 1 := rfl

/-! ## returnsBytes -/
@[simp] theorem State.returnsBytes_cfg (s : State) (bq : List Byte) : (s.returnsBytes bq).cfg = s.cfg := rfl
@[simp] theorem State.returnsBytes_dec (s : State) (bq : List Byte) : (s.returnsBytes bq).dec = s.dec := rfl
@[simp] theorem State.returnsBytes_enc (s : State) (bq : List Byte) : (s.returnsBytes bq).enc = s.enc := rfl
@[simp] theorem State.returnsBytes_events (s : State) (bq : List Byte) : (s.returnsBytes bq).events = s.events := rfl
@[simp] theorem State.returnsBytes_refused (s : State) (bq : List Byte) : (s.returnsBytes bq).refused = s.refused := rfl
@[simp] theorem State.returnsBytes_script (s : State) (bq : List Byte) : (s.returnsBytes bq).script = s.script := rfl
@[simp] theorem State.returnsBytes_cmd (s : State) (bq : List Byte) : (s.returnsBytes bq).cmd = s.cmd := rfl
@[simp] theorem State.returnsBytes_resp (s : State) (bq : List Byte) : (s.returnsBytes bq).resp = some { freeResponse s.freeIndex with status := statusCode .ok, bq := bq } := rfl
@[simp] theorem State.returnsBytes_cancelled (s : State) (bq : List Byte) : (s.returnsBytes bq).cancelled = s.cancelled := rfl
@[simp] theorem State.returnsBytes_freeIndex (s : State) (bq : List Byte) : (s.returnsBytes bq).freeIndex = s.freeIndex + 1 := rfl

/-! ## raise -/
@[simp] theorem State.raise_cfg (s : State) (st : Status) : (s.raise st).cfg = s.cfg := rfl
@[simp] theorem State.raise_dec (s : State) (st : Status) : (s.raise st).dec = s.dec := rfl
@[simp] theorem State.raise_enc (s : State) (st : Status) : (s.raise st).enc = s.enc := rfl
@[simp] theorem State.raise_events (s : State) (st : Status) : (s.raise st).events = s.events := rfl
@[simp] theorem State.raise_refused (s : State) (st : Status) : (s.raise st).refused = s.refused := rfl
@[simp] theorem State.raise_script (s : State) (st : Status) : (s.raise st).script = s.script := rfl
@[simp] theorem State.raise_cmd (s : State) (st : Status) : (s.raise st).cmd = s.cmd := rfl
@[simp] theorem State.raise_resp (s : State) (st : Status) : (s.raise st).resp = some { freeResponse s.freeIndex with status := statusCode st } := rfl
@[simp] theorem State.raise_cancelled (s : State) (st : Status) : (s.raise st).cancelled = s.cancelled := rfl
@[simp] theorem State.raise_freeIndex (s : State) (st : Status) : (s.raise st).freeIndex = s.freeIndex + 1 := rfl

/-! ## refuse -/
@[simp] theorem State.refuse_cfg (s : State) (why : RefusalReason) : (s.refuse why).cfg = s.cfg := rfl
@[simp] theorem State.refuse_dec (s : State) (why : RefusalReason) : (s.refuse why).dec = s.dec := rfl
@[simp] theorem State.refuse_enc (s : State) (why : RefusalReason) : (s.refuse why).enc = s.enc := rfl
@[simp] theorem State.refuse_events (s : State) (why : RefusalReason) : (s.refuse why).events = s.events := rfl
@[simp] theorem State.refuse_refused (s : State) (why : RefusalReason) : (s.refuse why).refused = markRefused s.refused why := rfl
@[simp] theorem State.refuse_script (s : State) (why : RefusalReason) : (s.refuse why).script = s.script := rfl
@[simp] theorem State.refuse_cmd (s : State) (why : RefusalReason) : (s.refuse why).cmd = s.cmd := rfl
@[simp] theorem State.refuse_resp (s : State) (why : RefusalReason) : (s.refuse why).resp = some (freeResponse s.freeIndex) := rfl
@[simp] theorem State.refuse_cancelled (s : State) (why : RefusalReason) : (s.refuse why).cancelled = s.cancelled := rfl
@[simp] theorem State.refuse_freeIndex (s : State) (why : RefusalReason) : (s.refuse why).freeIndex = s.freeIndex + 1 := rfl

/-! ## present -/
@[simp] theorem State.present_cfg (s : State) (c : Command) (rest : List HostMove) : (s.present c rest).cfg = s.cfg := rfl
@[simp] theorem State.present_dec (s : State) (c : Command) (rest : List HostMove) : (s.present c rest).dec = s.dec := rfl
@[simp] theorem State.present_enc (s : State) (c : Command) (rest : List HostMove) : (s.present c rest).enc = s.enc := rfl
@[simp] theorem State.present_events (s : State) (c : Command) (rest : List HostMove) : (s.present c rest).events = s.events := rfl
@[simp] theorem State.present_refused (s : State) (c : Command) (rest : List HostMove) : (s.present c rest).refused = s.refused := rfl
@[simp] theorem State.present_script (s : State) (c : Command) (rest : List HostMove) : (s.present c rest).script = rest := rfl
@[simp] theorem State.present_cmd (s : State) (c : Command) (rest : List HostMove) : (s.present c rest).cmd = c := rfl
@[simp] theorem State.present_resp (s : State) (c : Command) (rest : List HostMove) : (s.present c rest).resp = s.resp := rfl
@[simp] theorem State.present_cancelled (s : State) (c : Command) (rest : List HostMove) : (s.present c rest).cancelled = s.cancelled := rfl
@[simp] theorem State.present_freeIndex (s : State) (c : Command) (rest : List HostMove) : (s.present c rest).freeIndex = s.freeIndex := rfl

/-! ## hostReads -/
@[simp] theorem hostReads_cfg (s : State) : (hostReads s).cfg = s.cfg := rfl
@[simp] theorem hostReads_dec (s : State) : (hostReads s).dec = s.dec := rfl
@[simp] theorem hostReads_enc (s : State) : (hostReads s).enc = s.enc := rfl
@[simp] theorem hostReads_events (s : State) : (hostReads s).events = s.events.tail := rfl
@[simp] theorem hostReads_refused (s : State) : (hostReads s).refused = s.refused := rfl
@[simp] theorem hostReads_script (s : State) : (hostReads s).script = s.script := rfl
@[simp] theorem hostReads_cmd (s : State) : (hostReads s).cmd = s.cmd := rfl
@[simp] theorem hostReads_resp (s : State) : (hostReads s).resp = s.resp := rfl
@[simp] theorem hostReads_cancelled (s : State) : (hostReads s).cancelled = s.cancelled := rfl
@[simp] theorem hostReads_freeIndex (s : State) : (hostReads s).freeIndex = s.freeIndex := rfl

/-! ## withFetchWord -/
@[simp] theorem State.withFetchWord_cfg (s : State) (nbits w : Nat) : (s.withFetchWord nbits w).cfg = s.cfg := rfl
@[simp] theorem State.withFetchWord_dec (s : State) (nbits w : Nat) : (s.withFetchWord nbits w).dec = s.dec := rfl
@[simp] theorem State.withFetchWord_enc (s : State) (nbits w : Nat) : (s.withFetchWord nbits w).enc = s.enc := rfl
@[simp] theorem State.withFetchWord_events (s : State) (nbits w : Nat) : (s.withFetchWord nbits w).events = s.events := rfl
@[simp] theorem State.withFetchWord_refused (s : State) (nbits w : Nat) : (s.withFetchWord nbits w).refused = s.refused := rfl
@[simp] theorem State.withFetchWord_script (s : State) (nbits w : Nat) : (s.withFetchWord nbits w).script = .command (tableCommand s nbits w) :: s.script := rfl
@[simp] theorem State.withFetchWord_cmd (s : State) (nbits w : Nat) : (s.withFetchWord nbits w).cmd = s.cmd := rfl
@[simp] theorem State.withFetchWord_resp (s : State) (nbits w : Nat) : (s.withFetchWord nbits w).resp = s.resp := rfl
@[simp] theorem State.withFetchWord_cancelled (s : State) (nbits w : Nat) : (s.withFetchWord nbits w).cancelled = s.cancelled := rfl
@[simp] theorem State.withFetchWord_freeIndex (s : State) (nbits w : Nat) : (s.withFetchWord nbits w).freeIndex = s.freeIndex := rfl

/-! ## dcBlock -/
@[simp] theorem dcBlock_sr (N : NumDomain) (raw : F64) (d : Decoder) : (dcBlock N raw d).sr = d.sr := rfl
@[simp] theorem dcBlock_dcOffset (N : NumDomain) (raw : F64) (d : Decoder) : (dcBlock N raw d).dcOffset = dcBlockOffset N raw d.dcOffset := rfl
@[simp] theorem dcBlock_previousValue (N : NumDomain) (raw : F64) (d : Decoder) : (dcBlock N raw d).previousValue = d.previousValue := rfl
@[simp] theorem dcBlock_samplesSinceCrossing (N : NumDomain) (raw : F64) (d : Decoder) : (dcBlock N raw d).samplesSinceCrossing = d.samplesSinceCrossing := rfl
@[simp] theorem dcBlock_currentFreq (N : NumDomain) (raw : F64) (d : Decoder) : (dcBlock N raw d).currentFreq = d.currentFreq := rfl
@[simp] theorem dcBlock_syncStreak (N : NumDomain) (raw : F64) (d : Decoder) : (dcBlock N raw d).syncStreak = d.syncStreak := rfl
@[simp] theorem dcBlock_syncState (N : NumDomain) (raw : F64) (d : Decoder) : (dcBlock N raw d).syncState = d.syncState := rfl
@[simp] theorem dcBlock_samplesSinceLineStart (N : NumDomain) (raw : F64) (d : Decoder) : (dcBlock N raw d).samplesSinceLineStart = d.samplesSinceLineStart := rfl
@[simp] theorem dcBlock_currentLine (N : NumDomain) (raw : F64) (d : Decoder) : (dcBlock N raw d).currentLine = d.currentLine := rfl
@[simp] theorem dcBlock_mem (N : NumDomain) (raw : F64) (d : Decoder) : (dcBlock N raw d).mem = d.mem := rfl

/-! ## countSample -/
@[simp] theorem countSample_sr (d : Decoder) : (countSample d).sr = d.sr := rfl
@[simp] theorem countSample_dcOffset (d : Decoder) : (countSample d).dcOffset = d.dcOffset := rfl
@[simp] theorem countSample_previousValue (d : Decoder) : (countSample d).previousValue = d.previousValue := rfl
@[simp] theorem countSample_samplesSinceCrossing (d : Decoder) : (countSample d).samplesSinceCrossing = d.samplesSinceCrossing + 1 := rfl
@[simp] theorem countSample_currentFreq (d : Decoder) : (countSample d).currentFreq = d.currentFreq := rfl
@[simp] theorem countSample_syncStreak (d : Decoder) : (countSample d).syncStreak = d.syncStreak := rfl
@[simp] theorem countSample_syncState (d : Decoder) : (countSample d).syncState = d.syncState := rfl
@[simp] theorem countSample_samplesSinceLineStart (d : Decoder) : (countSample d).samplesSinceLineStart = d.samplesSinceLineStart := rfl
@[simp] theorem countSample_currentLine (d : Decoder) : (countSample d).currentLine = d.currentLine := rfl
@[simp] theorem countSample_mem (d : Decoder) : (countSample d).mem = d.mem := rfl

/-! ## band -/
@[simp] theorem band_sr (N : NumDomain) (d : Decoder) : (band N d).sr = d.sr := rfl
@[simp] theorem band_dcOffset (N : NumDomain) (d : Decoder) : (band N d).dcOffset = d.dcOffset := rfl
@[simp] theorem band_previousValue (N : NumDomain) (d : Decoder) : (band N d).previousValue = d.previousValue := rfl
@[simp] theorem band_samplesSinceCrossing (N : NumDomain) (d : Decoder) : (band N d).samplesSinceCrossing = d.samplesSinceCrossing := rfl
@[simp] theorem band_currentFreq (N : NumDomain) (d : Decoder) : (band N d).currentFreq = d.currentFreq := rfl
@[simp] theorem band_syncStreak (N : NumDomain) (d : Decoder) : (band N d).syncStreak = if inBand N d.currentFreq then d.syncStreak + 1 else 0 := rfl
@[simp] theorem band_syncState (N : NumDomain) (d : Decoder) : (band N d).syncState = d.syncState := rfl
@[simp] theorem band_samplesSinceLineStart (N : NumDomain) (d : Decoder) : (band N d).samplesSinceLineStart = d.samplesSinceLineStart := rfl
@[simp] theorem band_currentLine (N : NumDomain) (d : Decoder) : (band N d).currentLine = d.currentLine := rfl
@[simp] theorem band_mem (N : NumDomain) (d : Decoder) : (band N d).mem = d.mem := rfl

/-! ## countLine -/
@[simp] theorem countLine_sr (d : Decoder) : (countLine d).sr = d.sr := rfl
@[simp] theorem countLine_dcOffset (d : Decoder) : (countLine d).dcOffset = d.dcOffset := rfl
@[simp] theorem countLine_previousValue (d : Decoder) : (countLine d).previousValue = d.previousValue := rfl
@[simp] theorem countLine_samplesSinceCrossing (d : Decoder) : (countLine d).samplesSinceCrossing = d.samplesSinceCrossing := rfl
@[simp] theorem countLine_currentFreq (d : Decoder) : (countLine d).currentFreq = d.currentFreq := rfl
@[simp] theorem countLine_syncStreak (d : Decoder) : (countLine d).syncStreak = d.syncStreak := rfl
@[simp] theorem countLine_syncState (d : Decoder) : (countLine d).syncState = d.syncState := rfl
@[simp] theorem countLine_samplesSinceLineStart (d : Decoder) : (countLine d).samplesSinceLineStart = d.samplesSinceLineStart + 1 := rfl
@[simp] theorem countLine_currentLine (d : Decoder) : (countLine d).currentLine = d.currentLine := rfl
@[simp] theorem countLine_mem (d : Decoder) : (countLine d).mem = d.mem := rfl

/-! ## earlyResync -/
@[simp] theorem earlyResync_sr (d : Decoder) : (earlyResync d).sr = d.sr := rfl
@[simp] theorem earlyResync_dcOffset (d : Decoder) : (earlyResync d).dcOffset = d.dcOffset := rfl
@[simp] theorem earlyResync_previousValue (d : Decoder) : (earlyResync d).previousValue = d.previousValue := rfl
@[simp] theorem earlyResync_samplesSinceCrossing (d : Decoder) : (earlyResync d).samplesSinceCrossing = d.samplesSinceCrossing := rfl
@[simp] theorem earlyResync_currentFreq (d : Decoder) : (earlyResync d).currentFreq = d.currentFreq := rfl
@[simp] theorem earlyResync_syncStreak (d : Decoder) : (earlyResync d).syncStreak = d.syncStreak := rfl
@[simp] theorem earlyResync_syncState (d : Decoder) : (earlyResync d).syncState = .waitSyncEnd := rfl
@[simp] theorem earlyResync_samplesSinceLineStart (d : Decoder) : (earlyResync d).samplesSinceLineStart = d.samplesSinceLineStart := rfl
@[simp] theorem earlyResync_currentLine (d : Decoder) : (earlyResync d).currentLine = (d.currentLine + 1) % height := rfl
@[simp] theorem earlyResync_mem (d : Decoder) : (earlyResync d).mem = d.mem := rfl

/-! ## decoderReset -/
@[simp] theorem decoderReset_sr (k : Bool) (d : Decoder) : (decoderReset k d).sr = d.sr := rfl
@[simp] theorem decoderReset_dcOffset (k : Bool) (d : Decoder) : (decoderReset k d).dcOffset = F64.zero := rfl
@[simp] theorem decoderReset_previousValue (k : Bool) (d : Decoder) : (decoderReset k d).previousValue = F64.zero := rfl
@[simp] theorem decoderReset_samplesSinceCrossing (k : Bool) (d : Decoder) : (decoderReset k d).samplesSinceCrossing = 0 := rfl
@[simp] theorem decoderReset_currentFreq (k : Bool) (d : Decoder) : (decoderReset k d).currentFreq = F64.zero := rfl
@[simp] theorem decoderReset_syncStreak (k : Bool) (d : Decoder) : (decoderReset k d).syncStreak = 0 := rfl
@[simp] theorem decoderReset_syncState (k : Bool) (d : Decoder) : (decoderReset k d).syncState = .searchingSync := rfl
@[simp] theorem decoderReset_samplesSinceLineStart (k : Bool) (d : Decoder) : (decoderReset k d).samplesSinceLineStart = 0 := rfl
@[simp] theorem decoderReset_currentLine (k : Bool) (d : Decoder) : (decoderReset k d).currentLine = 0 := rfl
@[simp] theorem decoderReset_mem (k : Bool) (d : Decoder) : (decoderReset k d).mem = if k then { d.mem with img := [] } else Memory.reset := rfl

/-! ## The fields that the conditional updates leave alone -/
@[simp] theorem freqUpdate_sr (N : NumDomain) (sr : F64) (n : Nat) (d : Decoder) : (freqUpdate N sr n d).sr = d.sr := by unfold freqUpdate; split <;> rfl
@[simp] theorem freqUpdate_dcOffset (N : NumDomain) (sr : F64) (n : Nat) (d : Decoder) : (freqUpdate N sr n d).dcOffset = d.dcOffset := by unfold freqUpdate; split <;> rfl
@[simp] theorem freqUpdate_previousValue (N : NumDomain) (sr : F64) (n : Nat) (d : Decoder) : (freqUpdate N sr n d).previousValue = d.previousValue := by unfold freqUpdate; split <;> rfl
@[simp] theorem freqUpdate_samplesSinceCrossing (N : NumDomain) (sr : F64) (n : Nat) (d : Decoder) : (freqUpdate N sr n d).samplesSinceCrossing = d.samplesSinceCrossing := by unfold freqUpdate; split <;> rfl
@[simp] theorem freqUpdate_syncStreak (N : NumDomain) (sr : F64) (n : Nat) (d : Decoder) : (freqUpdate N sr n d).syncStreak = d.syncStreak := by unfold freqUpdate; split <;> rfl
@[simp] theorem freqUpdate_syncState (N : NumDomain) (sr : F64) (n : Nat) (d : Decoder) : (freqUpdate N sr n d).syncState = d.syncState := by unfold freqUpdate; split <;> rfl
@[simp] theorem freqUpdate_samplesSinceLineStart (N : NumDomain) (sr : F64) (n : Nat) (d : Decoder) : (freqUpdate N sr n d).samplesSinceLineStart = d.samplesSinceLineStart := by unfold freqUpdate; split <;> rfl
@[simp] theorem freqUpdate_currentLine (N : NumDomain) (sr : F64) (n : Nat) (d : Decoder) : (freqUpdate N sr n d).currentLine = d.currentLine := by unfold freqUpdate; split <;> rfl
@[simp] theorem freqUpdate_mem (N : NumDomain) (sr : F64) (n : Nat) (d : Decoder) : (freqUpdate N sr n d).mem = d.mem := by unfold freqUpdate; split <;> rfl
@[simp] theorem crossed_sr (N : NumDomain) (sr : F64) (d : Decoder) : (crossed N sr d).sr = d.sr := by simp [crossed]
@[simp] theorem crossed_dcOffset (N : NumDomain) (sr : F64) (d : Decoder) : (crossed N sr d).dcOffset = d.dcOffset := by simp [crossed]
@[simp] theorem crossed_previousValue (N : NumDomain) (sr : F64) (d : Decoder) : (crossed N sr d).previousValue = d.previousValue := by simp [crossed]
@[simp] theorem crossed_syncStreak (N : NumDomain) (sr : F64) (d : Decoder) : (crossed N sr d).syncStreak = d.syncStreak := by simp [crossed]
@[simp] theorem crossed_syncState (N : NumDomain) (sr : F64) (d : Decoder) : (crossed N sr d).syncState = d.syncState := by simp [crossed]
@[simp] theorem crossed_samplesSinceLineStart (N : NumDomain) (sr : F64) (d : Decoder) : (crossed N sr d).samplesSinceLineStart = d.samplesSinceLineStart := by simp [crossed]
@[simp] theorem crossed_currentLine (N : NumDomain) (sr : F64) (d : Decoder) : (crossed N sr d).currentLine = d.currentLine := by simp [crossed]
@[simp] theorem crossed_mem (N : NumDomain) (sr : F64) (d : Decoder) : (crossed N sr d).mem = d.mem := by simp [crossed]
@[simp] theorem cross_sr (N : NumDomain) (sr v : F64) (d : Decoder) : (cross N sr v d).sr = d.sr := by unfold cross; split <;> simp
@[simp] theorem cross_dcOffset (N : NumDomain) (sr v : F64) (d : Decoder) : (cross N sr v d).dcOffset = d.dcOffset := by unfold cross; split <;> simp
@[simp] theorem cross_syncStreak (N : NumDomain) (sr v : F64) (d : Decoder) : (cross N sr v d).syncStreak = d.syncStreak := by unfold cross; split <;> simp
@[simp] theorem cross_syncState (N : NumDomain) (sr v : F64) (d : Decoder) : (cross N sr v d).syncState = d.syncState := by unfold cross; split <;> simp
@[simp] theorem cross_samplesSinceLineStart (N : NumDomain) (sr v : F64) (d : Decoder) : (cross N sr v d).samplesSinceLineStart = d.samplesSinceLineStart := by unfold cross; split <;> simp
@[simp] theorem cross_currentLine (N : NumDomain) (sr v : F64) (d : Decoder) : (cross N sr v d).currentLine = d.currentLine := by unfold cross; split <;> simp
@[simp] theorem cross_mem (N : NumDomain) (sr v : F64) (d : Decoder) : (cross N sr v d).mem = d.mem := by unfold cross; split <;> simp
@[simp] theorem armSearch_sr (d : Decoder) : (armSearch d).sr = d.sr := by unfold armSearch; split <;> rfl
@[simp] theorem armSearch_dcOffset (d : Decoder) : (armSearch d).dcOffset = d.dcOffset := by unfold armSearch; split <;> rfl
@[simp] theorem armSearch_previousValue (d : Decoder) : (armSearch d).previousValue = d.previousValue := by unfold armSearch; split <;> rfl
@[simp] theorem armSearch_samplesSinceCrossing (d : Decoder) : (armSearch d).samplesSinceCrossing = d.samplesSinceCrossing := by unfold armSearch; split <;> rfl
@[simp] theorem armSearch_currentFreq (d : Decoder) : (armSearch d).currentFreq = d.currentFreq := by unfold armSearch; split <;> rfl
@[simp] theorem armSearch_syncStreak (d : Decoder) : (armSearch d).syncStreak = d.syncStreak := by unfold armSearch; split <;> rfl
@[simp] theorem armSearch_samplesSinceLineStart (d : Decoder) : (armSearch d).samplesSinceLineStart = d.samplesSinceLineStart := by unfold armSearch; split <;> rfl
@[simp] theorem armSearch_currentLine (d : Decoder) : (armSearch d).currentLine = d.currentLine := by unfold armSearch; split <;> rfl
@[simp] theorem armSearch_mem (d : Decoder) : (armSearch d).mem = d.mem := by unfold armSearch; split <;> rfl

@[simp] theorem cross_previousValue (N : NumDomain) (sr v : F64) (d : Decoder) : (cross N sr v d).previousValue = v := rfl

/-! ## The estimator as a whole (40_frequency_estimator R100) -/
@[simp] theorem est_sr (N : NumDomain) (sr raw : F64) (d : Decoder) : (est N sr raw d).sr = d.sr := by simp [est]
@[simp] theorem est_syncState (N : NumDomain) (sr raw : F64) (d : Decoder) : (est N sr raw d).syncState = d.syncState := by simp [est]
@[simp] theorem est_samplesSinceLineStart (N : NumDomain) (sr raw : F64) (d : Decoder) : (est N sr raw d).samplesSinceLineStart = d.samplesSinceLineStart := by simp [est]
@[simp] theorem est_currentLine (N : NumDomain) (sr raw : F64) (d : Decoder) : (est N sr raw d).currentLine = d.currentLine := by simp [est]
@[simp] theorem est_mem (N : NumDomain) (sr raw : F64) (d : Decoder) : (est N sr raw d).mem = d.mem := by simp [est]
@[simp] theorem est_dcOffset (N : NumDomain) (sr raw : F64) (d : Decoder) : (est N sr raw d).dcOffset = dcBlockOffset N raw d.dcOffset := by simp [est]
@[simp] theorem est_previousValue (N : NumDomain) (sr raw : F64) (d : Decoder) :
    (est N sr raw d).previousValue = N.sub raw (dcBlockOffset N raw d.dcOffset) := by simp [est, filteredValue]

/-! ## encodeStart -/
@[simp] theorem encodeStart_busy (N : NumDomain) (sr : F64) (r : Cells (Cells Pixel)) (e : Encoder) : (encodeStart N sr r e).busy = true := rfl
@[simp] theorem encodeStart_sr (N : NumDomain) (sr : F64) (r : Cells (Cells Pixel)) (e : Encoder) : (encodeStart N sr r e).sr = sr := rfl
@[simp] theorem encodeStart_raster (N : NumDomain) (sr : F64) (r : Cells (Cells Pixel)) (e : Encoder) : (encodeStart N sr r e).raster = r := rfl
@[simp] theorem encodeStart_sampleIndex (N : NumDomain) (sr : F64) (r : Cells (Cells Pixel)) (e : Encoder) : (encodeStart N sr r e).sampleIndex = 0 := rfl
@[simp] theorem encodeStart_phase (N : NumDomain) (sr : F64) (r : Cells (Cells Pixel)) (e : Encoder) : (encodeStart N sr r e).phase = F64.zero := rfl
@[simp] theorem encodeStart_elapsed (N : NumDomain) (sr : F64) (r : Cells (Cells Pixel)) (e : Encoder) : (encodeStart N sr r e).elapsed = F64.zero := rfl
@[simp] theorem encodeStart_segIndex (N : NumDomain) (sr : F64) (r : Cells (Cells Pixel)) (e : Encoder) : (encodeStart N sr r e).segIndex = 0 := rfl
@[simp] theorem encodeStart_outRev (N : NumDomain) (sr : F64) (r : Cells (Cells Pixel)) (e : Encoder) : (encodeStart N sr r e).outRev = [] := rfl

end Sys2Proof.Machine
end

