-- ==== Sys2Proof/Laws/Decoder.lean ====
section
/-! SUPPORT. Once for each shared operation of the decoder, everything it can do: SCAN on the arrays, the end of a line, the three arms
and the sample tick. -/

namespace Sys2Proof.Machine

open Sys2Proof.F64

/-! ## The crossing and the estimator -/

/-- What CROSS does to the counter and the frequency (40 R104, R105). -/
theorem cross_counter (N : NumDomain) (sr v : F64) (d : Decoder) :
    (cross N sr v d).samplesSinceCrossing = if risingCrossing N v d.previousValue then 0 else d.samplesSinceCrossing := by
  unfold cross; split <;> rfl

theorem freqUpdate_freq (N : NumDomain) (sr : F64) (n : Nat) (d : Decoder) :
    (freqUpdate N sr n d).currentFreq =
      if kCycLo < n ∧ n < kCycHi then smoothedFreq N sr d.currentFreq n else d.currentFreq := by
  unfold freqUpdate; split <;> rfl

theorem cross_freq (N : NumDomain) (sr v : F64) (d : Decoder) :
    (cross N sr v d).currentFreq =
      if risingCrossing N v d.previousValue then
        (if kCycLo < d.samplesSinceCrossing ∧ d.samplesSinceCrossing < kCycHi then
          smoothedFreq N sr d.currentFreq d.samplesSinceCrossing else d.currentFreq)
      else d.currentFreq := by
  unfold cross
  cases risingCrossing N v d.previousValue <;> simp [crossed, freqUpdate_freq]

/-- The period counter after EST (40 R103, R104). -/
theorem est_counter (N : NumDomain) (sr raw : F64) (d : Decoder) :
    (est N sr raw d).samplesSinceCrossing =
      if risingCrossing N (N.sub raw (dcBlockOffset N raw d.dcOffset)) d.previousValue then 0 else d.samplesSinceCrossing + 1 := by
  rw [est, band_samplesSinceCrossing, cross_counter, filteredValue, dcBlock_dcOffset, countSample_previousValue,
    dcBlock_previousValue, countSample_samplesSinceCrossing, dcBlock_samplesSinceCrossing]

/-- The frequency after EST (40 R104, R105). -/
theorem est_freq (N : NumDomain) (sr raw : F64) (d : Decoder) :
    (est N sr raw d).currentFreq =
      if risingCrossing N (N.sub raw (dcBlockOffset N raw d.dcOffset)) d.previousValue then
        (if kCycLo < d.samplesSinceCrossing + 1 ∧ d.samplesSinceCrossing + 1 < kCycHi then
          smoothedFreq N sr d.currentFreq (d.samplesSinceCrossing + 1) else d.currentFreq)
      else d.currentFreq := by
  rw [est, band_currentFreq, cross_freq, filteredValue, dcBlock_dcOffset, countSample_previousValue,
    dcBlock_previousValue, countSample_samplesSinceCrossing, dcBlock_samplesSinceCrossing, countSample_currentFreq,
    dcBlock_currentFreq]

/-- The streak after EST (40 R106). -/
theorem est_streak (N : NumDomain) (sr raw : F64) (d : Decoder) :
    (est N sr raw d).syncStreak = if inBand N (est N sr raw d).currentFreq then d.syncStreak + 1 else 0 := by
  rw [est, band_syncStreak, band_currentFreq, cross_syncStreak, countSample_syncStreak, dcBlock_syncStreak]

/-! ## SCAN -/

/-- The arrays after the chroma write of R155. -/
def chromaSet (m : Memory) (line x : Nat) (val : F64) : Memory :=
  if line % 2 = 0 then { m with cr := cellsSet F64.zero m.cr x val } else { m with cb := cellsSet F64.zero m.cb x val }

/-- The pixel that R156 and R158 give at column x. -/
def scanPixel (cfg : Config) (m : Memory) (x : Nat) : RGB :=
  quantise cfg.num cfg.pixelQuant (yuv2rgb cfg.num (cellsGet F64.zero m.luma x) (cellsGet F64.zero m.cb x) (cellsGet F64.zero m.cr x))

@[simp] theorem chromaSet_img (m : Memory) (line x : Nat) (val : F64) : (chromaSet m line x val).img = m.img := by
  unfold chromaSet; split <;> rfl

@[simp] theorem chromaSet_luma (m : Memory) (line x : Nat) (val : F64) : (chromaSet m line x val).luma = m.luma := by
  unfold chromaSet; split <;> rfl

theorem chromaWrite_ok_iff {m m' : Memory} {line x : Nat} {val : F64} :
    chromaWrite m line x val = .ok m' ↔ x < width ∧ m' = chromaSet m line x val := by
  unfold chromaWrite chromaSet
  by_cases hx : x < width
  · split <;> simp [bind, Except.bind, memWrite_of_lt _ _ _ hx, hx, eq_comm]
  · split <;> simp [bind, Except.bind, memWrite, hx]

theorem reconstruct_of_lt {N : NumDomain} {m : Memory} {x : Nat} (hx : x < width) :
    reconstruct N m x
      = .ok (yuv2rgb N (cellsGet F64.zero m.luma x) (cellsGet F64.zero m.cb x) (cellsGet F64.zero m.cr x)) := by
  simp [reconstruct, bind, Except.bind, memRead_of_lt _ _ hx]

/-- What the chroma window's work can do: with both indices in bounds, the buffer, the pixel and the event. -/
theorem chromaPixel_ok_iff {cfg : Config} {m : Memory} {line x : Nat} {val : F64} {r : Memory × List Event} :
    chromaPixel cfg m line x val = .ok r ↔ x < width ∧ line < height ∧
      r = ({ chromaSet m line x val with img := imgSet m.img x line (scanPixel cfg (chromaSet m line x val) x) },
        [.pixel x line (scanPixel cfg (chromaSet m line x val) x)]) := by
  unfold chromaPixel
  by_cases hx : x < width
  · have h1 : chromaWrite m line x val = .ok (chromaSet m line x val) := chromaWrite_ok_iff.mpr ⟨hx, rfl⟩
    simp only [bind, Except.bind, h1, reconstruct_of_lt hx, pixelWrite]
    by_cases hl : line < height
    · have h2 := (writeImg_ok_iff (img := (chromaSet m line x val).img) (x := x) (y := line)
        (c := scanPixel cfg (chromaSet m line x val) x)).mpr ⟨hx, hl, rfl⟩
      unfold scanPixel at h2 ⊢
      rw [h2]
      simp [hx, hl, eq_comm]
    · have h2 : ∀ c, ∃ f, writeImg (chromaSet m line x val).img x line c = .error f := by
        intro c
        cases h : writeImg (chromaSet m line x val).img x line c with
        | ok v => exact absurd (writeImg_ok_iff.mp h).2.1 hl
        | error f => exact ⟨f, rfl⟩
      obtain ⟨f, hf⟩ := h2 (quantise cfg.num cfg.pixelQuant (yuv2rgb cfg.num (cellsGet F64.zero (chromaSet m line x val).luma x)
        (cellsGet F64.zero (chromaSet m line x val).cb x) (cellsGet F64.zero (chromaSet m line x val).cr x)))
      rw [hf]; simp [hl]
  · have h1 : ∃ f, chromaWrite m line x val = .error f := by
      cases h : chromaWrite m line x val with
      | ok v => exact absurd (chromaWrite_ok_iff.mp h).1 hx
      | error f => exact ⟨f, rfl⟩
    obtain ⟨f, hf⟩ := h1
    simp [bind, Except.bind, hf, hx]

theorem columnInRange_iff {x : Int} : columnInRange x = true ↔ 0 ≤ x ∧ x < (width : Int) := by
  simp [columnInRange]

theorem columnInRange_toNat {x : Int} (h : columnInRange x = true) : x.toNat < width := by
  rw [columnInRange_iff] at h; omega

/-- What SCAN can do to the arrays (42 R150): a luma write, a chroma write with its pixel, or nothing. -/
theorem scanMemory_cases {cfg : Config} {t freq : F64} {line : Nat} {m : Memory} {r : Memory × List Event}
    (h : scanMemory cfg t freq line m = .ok r) :
    (inLumaWindow cfg.num t = true ∧ columnInRange (lumaColumn cfg.num t) = true ∧
      r = ({ m with luma := cellsSet F64.zero m.luma (lumaColumn cfg.num t).toNat (freq2val cfg.num freq) }, []))
    ∨ (inLumaWindow cfg.num t = false ∧ inChromaWindow cfg.num t = true ∧ columnInRange (chromaColumn cfg.num t) = true ∧ line < height ∧
      r = ({ chromaSet m line (chromaColumn cfg.num t).toNat (freq2val cfg.num freq) with
              img := imgSet m.img (chromaColumn cfg.num t).toNat line
                (scanPixel cfg (chromaSet m line (chromaColumn cfg.num t).toNat (freq2val cfg.num freq)) (chromaColumn cfg.num t).toNat) },
            [.pixel (chromaColumn cfg.num t).toNat line
              (scanPixel cfg (chromaSet m line (chromaColumn cfg.num t).toNat (freq2val cfg.num freq)) (chromaColumn cfg.num t).toNat)]))
    ∨ (r = (m, []) ∧ ¬(inLumaWindow cfg.num t = true ∧ columnInRange (lumaColumn cfg.num t) = true) ∧
      ¬(inLumaWindow cfg.num t = false ∧ inChromaWindow cfg.num t = true ∧ columnInRange (chromaColumn cfg.num t) = true)) := by
  unfold scanMemory at h
  cases hl : inLumaWindow cfg.num t
  · cases hc : inChromaWindow cfg.num t
    · simp only [hl, hc, Bool.false_eq_true, if_false, Except.ok.injEq] at h
      exact .inr (.inr ⟨h.symm, by simp, by simp⟩)
    · cases hr : columnInRange (chromaColumn cfg.num t)
      · simp only [hl, hc, hr, Bool.false_eq_true, if_false, if_true, Except.ok.injEq] at h
        exact .inr (.inr ⟨h.symm, by simp, by simp⟩)
      · simp only [hl, hc, hr, Bool.false_eq_true, if_false, if_true] at h
        rw [chromaPixel_ok_iff] at h
        exact .inr (.inl ⟨rfl, rfl, rfl, h.2.1, h.2.2⟩)
  · cases hr : columnInRange (lumaColumn cfg.num t)
    · simp only [hl, hr, Bool.false_eq_true, if_false, if_true, Except.ok.injEq] at h
      exact .inr (.inr ⟨h.symm, by simp, by simp⟩)
    · simp only [hl, hr, if_true, lumaWrite, bind, Except.bind,
        memWrite_of_lt _ _ _ (columnInRange_toNat hr), Except.ok.injEq] at h
      exact .inl ⟨rfl, rfl, h.symm⟩

/-- SCAN never faults on a legal line. -/
theorem scanMemory_ok (cfg : Config) (t freq : F64) {line : Nat} (m : Memory) (hline : line < height) :
    ∃ r, scanMemory cfg t freq line m = .ok r := by
  unfold scanMemory
  split
  · split
    · rename_i hr
      simp only [lumaWrite, bind, Except.bind, memWrite_of_lt _ _ _ (columnInRange_toNat hr)]
      exact ⟨_, rfl⟩
    · exact ⟨_, rfl⟩
  · split
    · split
      · rename_i hr
        exact ⟨_, chromaPixel_ok_iff.mpr ⟨columnInRange_toNat hr, hline, rfl⟩⟩
      · exact ⟨_, rfl⟩
    · exact ⟨_, rfl⟩

/-- SCAN writes nothing but the arrays. -/
theorem scan_ok_iff {cfg : Config} {t freq : F64} {d : Decoder} {r : Decoder × List Event} :
    scan cfg t freq d = .ok r ↔
      ∃ m es, scanMemory cfg t freq d.currentLine d.mem = .ok (m, es) ∧ r = ({ d with mem := m }, es) := by
  unfold scan
  cases h : scanMemory cfg t freq d.currentLine d.mem with
  | error f => simp [bind, Except.bind]
  | ok p =>
    obtain ⟨m, es⟩ := p
    simp [bind, Except.bind, eq_comm]

/-! ## The end of a line -/

/-- What the end of ARM_SCAN can do (41 R125, R127, R128). -/
theorem lineEnd_cases (N : NumDomain) (sr : F64) (d : Decoder) :
    (watchdogDue N sr d.samplesSinceLineStart = true ∧ height ≤ d.currentLine + 1 ∧
      lineEnd N sr d = ({ d with currentLine := 0, syncState := .searchingSync }, [.frameComplete d.mem.img]))
    ∨ (watchdogDue N sr d.samplesSinceLineStart = true ∧ d.currentLine + 1 < height ∧
      lineEnd N sr d = ({ d with currentLine := d.currentLine + 1, syncState := .searchingSync }, []))
    ∨ (watchdogDue N sr d.samplesSinceLineStart = false ∧
      earlyResyncDue N sr d.samplesSinceLineStart d.syncStreak = true ∧ lineEnd N sr d = (earlyResync d, []))
    ∨ (watchdogDue N sr d.samplesSinceLineStart = false ∧
      earlyResyncDue N sr d.samplesSinceLineStart d.syncStreak = false ∧ lineEnd N sr d = (d, [])) := by
  unfold lineEnd
  cases hw : watchdogDue N sr d.samplesSinceLineStart
  · cases he : earlyResyncDue N sr d.samplesSinceLineStart d.syncStreak <;> simp
  · unfold watchdog
    by_cases hh : height ≤ d.currentLine + 1
    · simp [hh]
    · simp [hh]; omega

/-! ## The sample tick -/

/-- ARM_SCAN as SCAN and then the end of the line (41 R125). -/
theorem armScan_eq (cfg : Config) (sr : F64) (d : Decoder) :
    armScan cfg sr d = (scan cfg (lineTime cfg.num sr (d.samplesSinceLineStart + 1)) d.currentFreq (countLine d)).bind
      fun p => .ok ((lineEnd cfg.num sr p.1).1, p.2 ++ (lineEnd cfg.num sr p.1).2) := by
  simp only [armScan, bind]
  rw [countLine_samplesSinceLineStart, countLine_currentFreq]

/-- What ARM_SCAN can do. -/
theorem armScan_cases {cfg : Config} {sr : F64} {d : Decoder} {r : Decoder × List Event} (h : armScan cfg sr d = .ok r) :
    ∃ m es, scanMemory cfg (lineTime cfg.num sr (d.samplesSinceLineStart + 1)) d.currentFreq d.currentLine d.mem = .ok (m, es) ∧
      r = ((lineEnd cfg.num sr { countLine d with mem := m }).1, es ++ (lineEnd cfg.num sr { countLine d with mem := m }).2) := by
  rw [armScan_eq] at h
  cases h2 : scan cfg (lineTime cfg.num sr (d.samplesSinceLineStart + 1)) d.currentFreq (countLine d) with
  | error f => rw [h2] at h; cases h
  | ok p =>
    rw [h2] at h
    obtain ⟨m, es, hm, rfl⟩ := scan_ok_iff.mp h2
    rw [countLine_currentLine, countLine_mem] at hm
    exact ⟨m, es, hm, (Except.ok.inj h).symm⟩

/-- ARM_SCAN on a legal line never faults. -/
theorem armScan_ok (cfg : Config) (sr : F64) (d : Decoder) (hline : d.currentLine < height) : ∃ r, armScan cfg sr d = .ok r := by
  obtain ⟨⟨m, es⟩, hr⟩ := scanMemory_ok cfg (lineTime cfg.num sr (d.samplesSinceLineStart + 1)) d.currentFreq d.mem hline
  have h2 : scan cfg (lineTime cfg.num sr (d.samplesSinceLineStart + 1)) d.currentFreq (countLine d)
      = .ok ({ countLine d with mem := m }, es) :=
    scan_ok_iff.mpr ⟨m, es, by rw [countLine_currentLine, countLine_mem]; exact hr, rfl⟩
  rw [armScan_eq, h2]
  exact ⟨_, rfl⟩

theorem sampleTick_search {d : Decoder} (cfg : Config) (sr raw : F64) (h : d.syncState = .searchingSync) :
    sampleTick cfg sr raw d = .ok (armSearch (est cfg.num sr raw d), []) := by
  simp only [sampleTick, fsm, est_syncState, h]

theorem sampleTick_wait {d : Decoder} (cfg : Config) (sr raw : F64) (h : d.syncState = .waitSyncEnd) :
    sampleTick cfg sr raw d = .ok (armWait (est cfg.num sr raw d)) := by
  simp only [sampleTick, fsm, est_syncState, h]

theorem sampleTick_scan {d : Decoder} (cfg : Config) (sr raw : F64) (h : d.syncState = .scanning) :
    sampleTick cfg sr raw d = armScan cfg sr (est cfg.num sr raw d) := by
  simp only [sampleTick, fsm, est_syncState, h]

/-- What a tick can do: the estimator, then the arm of the state it finds (41 R120, R122). -/
theorem sampleTick_cases {cfg : Config} {sr raw : F64} {d : Decoder} {r : Decoder × List Event}
    (h : sampleTick cfg sr raw d = .ok r) :
    (d.syncState = .searchingSync ∧ r = (armSearch (est cfg.num sr raw d), []))
    ∨ (d.syncState = .waitSyncEnd ∧ r = armWait (est cfg.num sr raw d))
    ∨ (d.syncState = .scanning ∧ ∃ m es,
        scanMemory cfg (lineTime cfg.num sr (d.samplesSinceLineStart + 1)) (est cfg.num sr raw d).currentFreq d.currentLine d.mem = .ok (m, es) ∧
        r = ((lineEnd cfg.num sr { countLine (est cfg.num sr raw d) with mem := m }).1,
          es ++ (lineEnd cfg.num sr { countLine (est cfg.num sr raw d) with mem := m }).2)) := by
  cases hs : d.syncState with
  | searchingSync => rw [sampleTick_search cfg sr raw hs] at h; exact .inl ⟨rfl, (Except.ok.inj h).symm⟩
  | waitSyncEnd => rw [sampleTick_wait cfg sr raw hs] at h; exact .inr (.inl ⟨rfl, (Except.ok.inj h).symm⟩)
  | scanning =>
    rw [sampleTick_scan cfg sr raw hs] at h
    obtain ⟨m, es, hm, hr⟩ := armScan_cases h
    rw [est_samplesSinceLineStart, est_currentLine, est_mem] at hm
    exact .inr (.inr ⟨rfl, m, es, hm, hr⟩)

/-- A tick on a legal line never faults. -/
theorem sampleTick_ok (cfg : Config) (sr raw : F64) (d : Decoder) (hline : d.currentLine < height) :
    ∃ r, sampleTick cfg sr raw d = .ok r := by
  cases hs : d.syncState with
  | searchingSync => exact ⟨_, sampleTick_search cfg sr raw hs⟩
  | waitSyncEnd => exact ⟨_, sampleTick_wait cfg sr raw hs⟩
  | scanning => rw [sampleTick_scan cfg sr raw hs]; exact armScan_ok cfg sr _ (by rw [est_currentLine]; exact hline)

/-- What DEC_SAMPLE can do (41 R120, 60 R256). -/
theorem execDecSample_cases (s : State) :
    (s.dec.sr = none ∧ execDecSample s = .next (s.refuse .refRateUnset))
    ∨ (∃ sr, s.dec.sr = some sr ∧ unitSample s.cmd.a0 = false ∧ execDecSample s = .next (s.refuse .refSampleRange))
    ∨ (∃ sr d es, s.dec.sr = some sr ∧ unitSample s.cmd.a0 = true ∧ sampleTick s.cfg sr s.cmd.a0 s.dec = .ok (d, es) ∧
        execDecSample s = .next (({ s.emit es with dec := d } : State).returns .ok))
    ∨ (∃ sr f, s.dec.sr = some sr ∧ unitSample s.cmd.a0 = true ∧ sampleTick s.cfg sr s.cmd.a0 s.dec = .error f ∧
        execDecSample s = .fault f) := by
  unfold execDecSample
  cases hsr : s.dec.sr with
  | none => exact .inl ⟨rfl, rfl⟩
  | some sr =>
    cases hu : unitSample s.cmd.a0 with
    | false => exact .inr (.inl ⟨sr, rfl, rfl, by simp⟩)
    | true =>
      cases ht : sampleTick s.cfg sr s.cmd.a0 s.dec with
      | error f => exact .inr (.inr (.inr ⟨sr, f, rfl, rfl, ht, by simp [ht]⟩))
      | ok p => exact .inr (.inr (.inl ⟨sr, p.1, p.2, rfl, rfl, ht, by simp [ht]⟩))

end Sys2Proof.Machine
end

