-- ==== Sys2Proof/Laws/Domain.lean ====
section
/-! SUPPORT. The default domain NUM = binary64 (spec/00_scope.md R7): each of its operations is the binary64 one of R12 and R13. -/

namespace Sys2Proof.NumDomain

@[simp] theorem add_binary64 (x y : F64) : binary64.add x y = F64.add x y := rfl
@[simp] theorem sub_binary64 (x y : F64) : binary64.sub x y = F64.sub x y := rfl
@[simp] theorem mul_binary64 (x y : F64) : binary64.mul x y = F64.mul x y := rfl
@[simp] theorem div_binary64 (x y : F64) : binary64.div x y = F64.div x y := rfl
@[simp] theorem ofNat_binary64 (k : Nat) : binary64.ofNat k = F64.ofNat k := rfl
@[simp] theorem lt_binary64 (x y : F64) : binary64.lt x y = F64.lt x y := rfl
@[simp] theorem le_binary64 (x y : F64) : binary64.le x y = F64.le x y := rfl
@[simp] theorem natGt_binary64 (k : Nat) (v : F64) : binary64.natGt k v = F64.natGt k v := rfl
@[simp] theorem floor_binary64 (v : F64) : binary64.floor v = F64.floor v := rfl
@[simp] theorem trunc_binary64 (v : F64) : binary64.trunc v = F64.trunc v := rfl
@[simp] theorem fmax_binary64 (a b : F64) : binary64.fmax a b = F64.fmax a b := rfl
@[simp] theorem fmin_binary64 (a b : F64) : binary64.fmin a b = F64.fmin a b := rfl
@[simp] theorem clamp_binary64 (v lo hi : F64) : binary64.clamp v lo hi = F64.clamp v lo hi := rfl
@[simp] theorem roundToInteger_binary64 (v : F64) : binary64.roundToInteger v = F64.roundToInteger v := rfl
@[simp] theorem wrapRounds_binary64 (p : F64) : binary64.wrapRounds p = (F64.floor p).toNat / 6 + 1 := rfl

end Sys2Proof.NumDomain
end

