-- ==== Sys2Proof/Laws/Encoder.lean ====
section
/-! SUPPORT. Once for each shared operation of the encoder, everything it can do: the segment table, OSC_STEP, the halves of ENC_STEP,
ENC_STEP itself and the encoder's move. -/

namespace Sys2Proof.Machine

open Sys2Proof.F64

/-! ## The segment table -/

/-- The line and the pixel of a row are inside the raster. -/
def Segment.inRaster : Segment → Prop
  | .leader1 | .headerBreak | .leader2 | .headerStart => True
  | .sync line | .porch line | .sep line | .porchUv line => line < height
  | .yScan line x | .uvScan line x => line < height ∧ x < width

theorem segmentAt_eq_none_iff {k : Nat} : segmentAt k = none ↔ segmentTotal ≤ k := by
  unfold segmentAt segmentTotal
  constructor
  · intro h
    by_contra hc
    split_ifs at h; omega
  · intro h
    rw [if_neg (by omega), if_neg (by omega), if_neg (by omega), if_neg (by omega), if_neg (by omega)]

/-- A row of the table exists exactly for the indices 0 to 154,563 (44 R192). -/
theorem segmentAt_of_lt {k : Nat} (h : k < segmentTotal) : ∃ g, segmentAt k = some g := by
  cases hg : segmentAt k with
  | none => have := segmentAt_eq_none_iff.mp hg; omega
  | some g => exact ⟨g, rfl⟩

theorem segmentAt_lt {k : Nat} {g : Segment} (h : segmentAt k = some g) : k < segmentTotal := by
  by_contra hc
  rw [segmentAt_eq_none_iff.mpr (by omega)] at h
  cases h

theorem lineSegment_inRaster {line j : Nat} (hl : line < height) (hj : j < 644) : (lineSegment line j).inRaster := by
  unfold lineSegment
  split_ifs
  · exact hl
  · exact hl
  · exact ⟨hl, by unfold width; omega⟩
  · exact hl
  · exact hl
  · exact ⟨hl, by unfold width; omega⟩

/-- Every row of the table lies inside the raster. -/
theorem segmentAt_inRaster {k : Nat} {g : Segment} (h : segmentAt k = some g) : g.inRaster := by
  have hk := segmentAt_lt h
  unfold segmentAt at h
  unfold segmentTotal at hk h
  split_ifs at h
  · cases h; trivial
  · cases h; trivial
  · cases h; trivial
  · cases h; trivial
  · cases h; exact lineSegment_inRaster (by unfold height; omega) (Nat.mod_lt _ (by omega))

theorem fetchSegment_ok_iff {k : Nat} {g : Segment} : fetchSegment k = .ok g ↔ segmentAt k = some g := by
  unfold fetchSegment
  cases segmentAt k <;> simp

/-- A row inside the raster has a frequency. -/
theorem segmentFreq_ok (N : NumDomain) (raster : Cells (Cells Pixel)) {g : Segment} (h : g.inRaster) : ∃ f, segmentFreq N raster g = .ok f := by
  cases g with
  | yScan line x =>
    exact ⟨_, by simp only [segmentFreq, bind, Except.bind, readRaster_ok_iff.mpr ⟨h.2, h.1, rfl⟩]; rfl⟩
  | uvScan line x =>
    exact ⟨_, by simp only [segmentFreq, bind, Except.bind, readRaster_ok_iff.mpr ⟨h.2, h.1, rfl⟩]; rfl⟩
  | leader1 => exact ⟨_, rfl⟩
  | headerBreak => exact ⟨_, rfl⟩
  | leader2 => exact ⟨_, rfl⟩
  | headerStart => exact ⟨_, rfl⟩
  | sync line => exact ⟨_, rfl⟩
  | porch line => exact ⟨_, rfl⟩
  | sep line => exact ⟨_, rfl⟩
  | porchUv line => exact ⟨_, rfl⟩

/-! ## OSC_STEP -/

/-- What a wrapped phase can be: below TWO_PI, by the loop's own test. -/
theorem wrapLoop_some {N : NumDomain} {fuel : Nat} {p q : F64} (h : wrapLoop N fuel p = some q) : N.le twoPi q = false := by
  induction fuel generalizing p with
  | zero =>
    unfold wrapLoop at h
    split at h
    · cases h
    · rename_i hl; cases h; simpa using hl
  | succ n ih =>
    unfold wrapLoop at h
    split at h
    · split at h
      · cases h
      · exact ih h
    · rename_i hl; cases h; simpa using hl

theorem wrapPhase_ok_iff {N : NumDomain} {p q : F64} : wrapPhase N p = .ok q ↔ wrapLoop N (N.wrapRounds p) p = some q := by
  unfold wrapPhase
  cases wrapLoop N (N.wrapRounds p) p <;> simp

/-- What OSC_STEP can do (43 R174): the wrapped new phase, and the sample of the old or of the new one by PHASE_ORDER. -/
theorem oscStep_ok_iff {cfg : Config} {sr f phase v p : F64} :
    oscStep cfg sr f phase = .ok (v, p) ↔
      wrapPhase cfg.num (cfg.num.add phase (phaseIncrement cfg.num sr f)) = .ok p ∧
        v = oscSample cfg (if cfg.phaseOrder = .sampleThenAdvance then phase else p) := by
  unfold oscStep
  cases hw : wrapPhase cfg.num (cfg.num.add phase (phaseIncrement cfg.num sr f)) with
  | error e => simp [bind, Except.bind]
  | ok q =>
    cases cfg.phaseOrder <;> simp [bind, Except.bind] <;> constructor <;> rintro ⟨h1, h2⟩ <;> subst_vars <;> simp

/-! ## ENC_STEP -/

/-- What the first half of ENC_STEP can do (44 R194, 43 R172): nothing, or one sample. -/
theorem emitSample_cases {cfg : Config} {g : Segment} {e e' : Encoder} (h : emitSample cfg g e = .ok e') :
    (e.segRemaining = 0 ∧ e' = e)
    ∨ (0 < e.segRemaining ∧ ∃ f v p, segmentFreq cfg.num e.raster g = .ok f ∧ oscStep cfg e.sr f e.phase = .ok (v, p) ∧
        e' = { e with
          outRev := v :: e.outRev
          sampleIndex := e.sampleIndex + 1
          phase := p
          segRemaining := e.segRemaining - 1 }) := by
  unfold emitSample at h
  split at h
  · rename_i hr
    cases hf : segmentFreq cfg.num e.raster g with
    | error x => simp [hf, bind, Except.bind] at h
    | ok f =>
      cases ho : oscStep cfg e.sr f e.phase with
      | error x => simp [hf, ho, bind, Except.bind] at h
      | ok vp =>
        simp only [hf, ho, bind, Except.bind, Except.ok.injEq] at h
        exact .inr ⟨hr, f, vp.1, vp.2, rfl, ho, h.symm⟩
  · rename_i hr
    exact .inl ⟨by omega, (Except.ok.inj h).symm⟩

/-- What the second half of ENC_STEP can do (44 R194, R195, R196): the encode completes, or the next segment becomes current. -/
theorem nextSegment_cases {cfg : Config} {g : Segment} {old : Nat × Nat} {e : Encoder} {r : Encoder × List Event}
    (h : nextSegment cfg g old e = .ok r) :
    (e.segIndex + 1 = segmentTotal ∧
      r = ({ e with
              elapsed := cfg.num.add e.elapsed (segmentDur cfg.num g), segIndex := old.1, segRemaining := old.2, outRev := [], busy := false },
        [.encDone e.out]))
    ∨ (e.segIndex + 1 ≠ segmentTotal ∧ ∃ g', segmentAt (e.segIndex + 1) = some g' ∧
      r = ({ e with
              elapsed := cfg.num.add e.elapsed (segmentDur cfg.num g)
              segIndex := e.segIndex + 1
              segRemaining := segCount cfg.num { e with elapsed := cfg.num.add e.elapsed (segmentDur cfg.num g) } (segmentDur cfg.num g') },
        progressEvents cfg.progressPeriod (e.segIndex + 1))) := by
  unfold nextSegment at h
  by_cases hk : e.segIndex + 1 = segmentTotal
  · simp only [hk, if_true] at h
    exact .inl ⟨hk, (Except.ok.inj h).symm⟩
  · simp only [hk, if_false] at h
    cases hg : fetchSegment (e.segIndex + 1) with
    | error x => simp [hg, bind, Except.bind] at h
    | ok g' =>
      simp only [hg, bind, Except.bind, Except.ok.injEq] at h
      exact .inr ⟨hk, g', fetchSegment_ok_iff.mp hg, h.symm⟩

/-- What ENC_STEP can do (44 R194): the two halves, the second where the segment has nothing left to emit. -/
theorem encStep_cases {cfg : Config} {e : Encoder} {r : Encoder × List Event} (h : encStep cfg e = .ok r) :
    ∃ g e1, segmentAt e.segIndex = some g ∧ emitSample cfg g e = .ok e1 ∧
      ((e1.segRemaining = 0 ∧ nextSegment cfg g (e.segIndex, e.segRemaining) e1 = .ok r)
        ∨ (e1.segRemaining ≠ 0 ∧ r = (e1, []))) := by
  unfold encStep at h
  cases hg : fetchSegment e.segIndex with
  | error x => simp [hg, bind, Except.bind] at h
  | ok g =>
    cases he : emitSample cfg g e with
    | error x => simp [hg, he, bind, Except.bind] at h
    | ok e1 =>
      simp only [hg, he, bind, Except.bind] at h
      refine ⟨g, e1, fetchSegment_ok_iff.mp hg, he, ?_⟩
      split at h
      · rename_i h0; exact .inl ⟨h0, h⟩
      · rename_i h0; exact .inr ⟨h0, (Except.ok.inj h).symm⟩

/-- What the encoder's move can do (44 R194). -/
theorem encoderMove_cases (s : State) :
    (s.enc.busy = false ∧ encoderMove s = .next s)
    ∨ (s.enc.busy = true ∧ ∃ e es, encStep s.cfg s.enc = .ok (e, es) ∧ encoderMove s = .next { s.emit es with enc := e })
    ∨ (s.enc.busy = true ∧ ∃ f, encStep s.cfg s.enc = .error f ∧ encoderMove s = .fault f) := by
  unfold encoderMove
  cases hb : s.enc.busy with
  | false => exact .inl ⟨rfl, by simp⟩
  | true =>
    cases he : encStep s.cfg s.enc with
    | ok p => exact .inr (.inl ⟨rfl, p.1, p.2, rfl, by simp⟩)
    | error f => exact .inr (.inr ⟨rfl, f, rfl, by simp⟩)

/-! ## The commands -/

/-- What ENC_ENCODE can do (44 R190, 60 R256). -/
theorem execEncEncode_cases (s : State) :
    (srAdmitted s.cfg s.cmd.a0 = false ∧ execEncEncode s = .next (s.refuse .refRate))
    ∨ (srAdmitted s.cfg s.cmd.a0 = true ∧ s.enc.busy = true ∧ execEncEncode s = .next (s.raise .encBusyErr))
    ∨ (srAdmitted s.cfg s.cmd.a0 = true ∧ s.enc.busy = false ∧ rasterShape (bulkRaster s.cmd.b0) = false ∧
        execEncEncode s = .next (s.raise .configDimension))
    ∨ (srAdmitted s.cfg s.cmd.a0 = true ∧ s.enc.busy = false ∧ rasterShape (bulkRaster s.cmd.b0) = true ∧
        rasterCells (bulkRaster s.cmd.b0) = none ∧ execEncEncode s = .next (s.refuse .refRasterValue))
    ∨ (srAdmitted s.cfg s.cmd.a0 = true ∧ s.enc.busy = false ∧ rasterShape (bulkRaster s.cmd.b0) = true ∧
        ∃ raster, rasterCells (bulkRaster s.cmd.b0) = some raster ∧
          execEncEncode s = .next (({ s with enc := encodeStart s.cfg.num s.cmd.a0 raster s.enc, cancelled := false } : State).returns .ok)) := by
  unfold execEncEncode
  cases srAdmitted s.cfg s.cmd.a0 <;> cases s.enc.busy <;> cases rasterShape (bulkRaster s.cmd.b0) <;>
    cases rasterCells (bulkRaster s.cmd.b0) <;> simp

/-- What WAV_SERIALIZE can do (46 R231, 60 R256). -/
theorem execWavSerialize_cases (s : State) :
    (wavRate s.cmd.a0 = none ∧ execWavSerialize s = .next (s.refuse .refWavRate))
    ∨ (∃ rate, wavRate s.cmd.a0 = some rate ∧ (bulkSamples s.cmd.b0).length = 0 ∧
        execWavSerialize s = .next (s.raise .emptyBuffer))
    ∨ (∃ rate, wavRate s.cmd.a0 = some rate ∧ wavMaxSamples < (bulkSamples s.cmd.b0).length ∧
        execWavSerialize s = .next (s.refuse .refWavSize))
    ∨ (∃ rate, wavRate s.cmd.a0 = some rate ∧ 0 < (bulkSamples s.cmd.b0).length ∧
        (bulkSamples s.cmd.b0).length ≤ wavMaxSamples ∧ (bulkSamples s.cmd.b0).all unitSample = false ∧
        execWavSerialize s = .next (s.refuse .refWavSample))
    ∨ (∃ rate, wavRate s.cmd.a0 = some rate ∧ 0 < (bulkSamples s.cmd.b0).length ∧
        (bulkSamples s.cmd.b0).length ≤ wavMaxSamples ∧ (bulkSamples s.cmd.b0).all unitSample = true ∧
        execWavSerialize s = .next (s.returnsBytes (wavFile s.cfg.num (bulkSamples s.cmd.b0) rate))) := by
  unfold execWavSerialize
  generalize bulkSamples s.cmd.b0 = l
  cases wavRate s.cmd.a0 with
  | none => exact .inl ⟨rfl, rfl⟩
  | some rate =>
    by_cases h0 : l.length = 0
    · exact .inr (.inl ⟨rate, rfl, h0, by simp [h0]⟩)
    · by_cases h1 : l.length > wavMaxSamples
      · exact .inr (.inr (.inl ⟨rate, rfl, h1, by simp [h0, h1]⟩))
      · cases ha : l.all unitSample with
        | false => exact .inr (.inr (.inr (.inl ⟨rate, rfl, by omega, by omega, rfl, by simp only [h0, h1, ha, if_false, Bool.false_eq_true]⟩)))
        | true => exact .inr (.inr (.inr (.inr ⟨rate, rfl, by omega, by omega, rfl, by simp only [h0, h1, ha, if_false, if_true]⟩)))

end Sys2Proof.Machine
end

