-- ==== Sys2Proof/Laws/Float.lean ====
section
/-! SUPPORT. Binary64 rounding is monotone and exact on representable values, and what follows for the signed operations: a result
is bounded by every representable bound of the exact value. -/

namespace Sys2Proof.F64

/-! ## Rounding a ratio to a natural number -/

theorem div_le_roundHalfEven (n d : Nat) : n / d ≤ roundHalfEven n d := by
  unfold roundHalfEven; split <;> omega

theorem roundHalfEven_le_succ (n d : Nat) : roundHalfEven n d ≤ n / d + 1 := by
  unfold roundHalfEven; split <;> omega

/-- A ratio that is a natural number rounds to it. -/
theorem roundHalfEven_exact (q d : Nat) (hd : 0 < d) : roundHalfEven (q * d) d = q := by
  unfold roundHalfEven
  rw [Nat.mul_mod_left, Nat.mul_div_cancel _ hd]
  rw [if_neg]; omega

/-- Rounding up means the fraction is at least one half. -/
theorem half_le_of_roundHalfEven (n d : Nat) (h : roundHalfEven n d = n / d + 1) : d ≤ 2 * (n % d) := by
  unfold roundHalfEven at h; split at h <;> omega

theorem le_half_of_roundHalfEven (n d : Nat) (h : roundHalfEven n d = n / d) : 2 * (n % d) ≤ d := by
  unfold roundHalfEven at h; split at h <;> omega

theorem div_le_div_of_cross {n d n' d' : Nat} (hd : 0 < d) (hd' : 0 < d') (h : n * d' ≤ n' * d) : n / d ≤ n' / d' := by
  rw [Nat.le_div_iff_mul_le hd']
  have h1 : n / d * d ≤ n := Nat.div_mul_le_self n d
  have h2 : n / d * d' * d ≤ n' * d := by nlinarith
  exact Nat.le_of_mul_le_mul_right h2 hd

/-- Rounding to a natural number is monotone in the ratio. -/
theorem roundHalfEven_mono {n d n' d' : Nat} (hd : 0 < d) (hd' : 0 < d') (h : n * d' ≤ n' * d) :
    roundHalfEven n d ≤ roundHalfEven n' d' := by
  have hq := div_le_div_of_cross hd hd' h
  rcases Nat.lt_or_ge (n / d) (n' / d') with hlt | hge
  · exact (roundHalfEven_le_succ n d).trans ((Nat.succ_le_of_lt hlt).trans (div_le_roundHalfEven n' d'))
  · have heq : n / d = n' / d' := le_antisymm hq hge
    rcases Nat.lt_or_ge (roundHalfEven n' d') (roundHalfEven n d) with hc | hc
    · exfalso
      have h1 := roundHalfEven_le_succ n d
      have h2 := div_le_roundHalfEven n' d'
      have h3 := div_le_roundHalfEven n d
      have e1 : roundHalfEven n d = n / d + 1 := by omega
      have e2 : roundHalfEven n' d' = n' / d' := by omega
      have a1 := half_le_of_roundHalfEven n d e1
      have a2 := le_half_of_roundHalfEven n' d' e2
      have m1 := Nat.div_add_mod n d
      have m2 := Nat.div_add_mod n' d'
      -- the two fractions are in order and each is exactly one half
      have hr : (n % d) * d' ≤ (n' % d') * d := by
        have : (d * (n / d) + n % d) * d' ≤ (d' * (n' / d') + n' % d') * d := by rw [m1, m2]; exact h
        rw [← heq] at this
        nlinarith
      have b1 : d * d' ≤ 2 * ((n % d) * d') := by nlinarith
      have b2 : 2 * ((n' % d') * d) ≤ d' * d := by nlinarith
      have c1 : 2 * ((n % d) * d') = d * d' := by nlinarith
      have c2 : 2 * ((n' % d') * d) = d' * d := by nlinarith
      have f1 : 2 * (n % d) = d := by
        apply Nat.eq_of_mul_eq_mul_right hd'; nlinarith
      have f2 : 2 * (n' % d') = d' := by
        apply Nat.eq_of_mul_eq_mul_right hd; nlinarith
      unfold roundHalfEven at e1 e2
      split at e1
      · split at e2
        · omega
        · rename_i p1 p2
          omega
      · omega
    · exact hc

/-! ## The units of magnitude bits -/

theorem magUnits_small {m : Nat} (h : m < 2 ^ 52) : magUnits m = m := by
  unfold magUnits
  rw [if_pos (Nat.div_eq_of_lt h), Nat.mod_eq_of_lt h]

theorem magUnits_normal (e f : Nat) (hf : f < 2 ^ 52) : magUnits ((e + 1) * 2 ^ 52 + f) = (2 ^ 52 + f) * 2 ^ e := by
  unfold magUnits
  have h1 : ((e + 1) * 2 ^ 52 + f) / 2 ^ 52 = e + 1 := by omega
  have h2 : ((e + 1) * 2 ^ 52 + f) % 2 ^ 52 = f := by omega
  rw [h1, h2, if_neg (by omega), Nat.shiftLeft_eq]; simp

/-- Magnitude bits are subnormal or have an exponent field. -/
theorem magnitude_cases (m : Nat) : m < 2 ^ 52 ∨ ∃ e f, f < 2 ^ 52 ∧ m = (e + 1) * 2 ^ 52 + f := by
  rcases Nat.lt_or_ge m (2 ^ 52) with h | h
  · exact .inl h
  · exact .inr ⟨m / 2 ^ 52 - 1, m % 2 ^ 52, Nat.mod_lt _ (by positivity), by omega⟩

theorem magUnits_lt_succ (m : Nat) : magUnits m < magUnits (m + 1) := by
  rcases magnitude_cases m with h | ⟨e, f, hf, rfl⟩
  · rcases Nat.lt_or_ge (m + 1) (2 ^ 52) with h' | h'
    · rw [magUnits_small h, magUnits_small h']; omega
    · have : m + 1 = (0 + 1) * 2 ^ 52 + 0 := by omega
      rw [magUnits_small h, this, magUnits_normal 0 0 (by positivity)]; omega
  · have hp : 0 < 2 ^ e := by positivity
    rcases Nat.lt_or_ge (f + 1) (2 ^ 52) with h' | h'
    · rw [Nat.add_assoc, magUnits_normal e f hf, magUnits_normal e (f + 1) h']; nlinarith
    · have : (e + 1) * 2 ^ 52 + f + 1 = (e + 1 + 1) * 2 ^ 52 + 0 := by omega
      rw [magUnits_normal e f hf, this, magUnits_normal (e + 1) 0 (by positivity)]
      calc (2 ^ 52 + f) * 2 ^ e < (2 ^ 52 * 2) * 2 ^ e := Nat.mul_lt_mul_of_pos_right (by omega) hp
        _ = (2 ^ 52 + 0) * 2 ^ (e + 1) := by ring

theorem magUnits_strictMono : StrictMono magUnits := strictMono_nat_of_lt_succ magUnits_lt_succ

theorem magUnits_le_iff {a b : Nat} : magUnits a ≤ magUnits b ↔ a ≤ b := magUnits_strictMono.le_iff_le

theorem magUnits_lt_iff {a b : Nat} : magUnits a < magUnits b ↔ a < b := magUnits_strictMono.lt_iff_lt

@[simp] theorem magUnits_zero : magUnits 0 = 0 := magUnits_small (by positivity)

theorem magUnits_eq_zero {m : Nat} (h : magUnits m = 0) : m = 0 := by
  by_contra hm
  have := magUnits_lt_iff.mpr (Nat.pos_of_ne_zero hm)
  rw [h] at this; simp at this

/-! ## Rounding to magnitude bits -/

theorem dropBits_mono {q q' : Nat} (h : q ≤ q') : dropBits q ≤ dropBits q' := by
  unfold dropBits
  have : q.log2 ≤ q'.log2 := by rw [Nat.log2_eq_log_two, Nat.log2_eq_log_two]; exact Nat.log_mono_right h
  omega

/-- The unit count of a normal value drops exactly its exponent's bits. -/
theorem dropBits_normal (e s : Nat) (h1 : 2 ^ 52 ≤ s) (h2 : s < 2 ^ 53) : dropBits (s * 2 ^ e) = e := by
  unfold dropBits
  have : (s * 2 ^ e).log2 = 52 + e := by
    rw [Nat.log2_eq_log_two]
    apply Nat.log_eq_of_pow_le_of_lt_pow
    · rw [Nat.pow_add]; exact Nat.mul_le_mul_right _ h1
    · rw [show 52 + e + 1 = 53 + e by ring, Nat.pow_add]; exact Nat.mul_lt_mul_of_pos_right h2 (by positivity)
  omega

theorem dropBits_small {q : Nat} (h : q < 2 ^ 53) : dropBits q = 0 := by
  unfold dropBits
  rcases Nat.eq_zero_or_pos q with rfl | hq
  · simp
  · have : q.log2 < 53 := (Nat.log2_lt (by omega)).mpr h
    omega

theorem lt_pow_dropBits (q : Nat) : q < 2 ^ 53 * 2 ^ dropBits q := by
  unfold dropBits
  rw [← Nat.pow_add]
  refine lt_of_lt_of_le (Nat.lt_log2_self) (Nat.pow_le_pow_right (by norm_num) (by omega))

theorem pow_dropBits_le {q : Nat} (h : 0 < dropBits q) : 2 ^ 52 * 2 ^ dropBits q ≤ q := by
  unfold dropBits at *
  rw [← Nat.pow_add, show 52 + (q.log2 - 52) = q.log2 by omega]
  exact Nat.log2_self_le (by rintro rfl; simp at h)

/-- The significand before the overflow check has at most 2^53. -/
theorem significand_le (n d : Nat) :
    roundHalfEven n (d * 2 ^ dropBits (n / d)) ≤ 2 ^ 53 := by
  refine (roundHalfEven_le_succ _ _).trans ?_
  rw [← Nat.div_div_eq_div_mul]
  have := Nat.div_lt_of_lt_mul (lt_pow_dropBits (n / d) |>.trans_eq (Nat.mul_comm _ _))
  omega

/-- With bits dropped, the significand has its hidden bit. -/
theorem le_significand {n d : Nat} (h : 0 < dropBits (n / d)) :
    2 ^ 52 ≤ roundHalfEven n (d * 2 ^ dropBits (n / d)) := by
  refine le_trans ?_ (div_le_roundHalfEven _ _)
  rw [← Nat.div_div_eq_div_mul]
  exact (Nat.le_div_iff_mul_le (by positivity)).mpr (pow_dropBits_le h)

/-- Rounding to binary64 is monotone in the ratio. -/
theorem roundMag_mono {n d n' d' : Nat} (hd : 0 < d) (hd' : 0 < d') (h : n * d' ≤ n' * d) :
    roundMag n d ≤ roundMag n' d' := by
  unfold roundMag
  simp only [Nat.shiftLeft_eq]
  apply min_le_min_right
  have hk := dropBits_mono (div_le_div_of_cross hd hd' h)
  rcases Nat.lt_or_ge (dropBits (n / d)) (dropBits (n' / d')) with hlt | hge
  · have h1 := significand_le n d
    have h2 := le_significand (n := n') (d := d') (by omega)
    have h3 : (dropBits (n / d) + 1) * 2 ^ 52 ≤ dropBits (n' / d') * 2 ^ 52 := Nat.mul_le_mul_right _ hlt
    omega
  · have he : dropBits (n / d) = dropBits (n' / d') := le_antisymm hk hge
    rw [he]
    apply Nat.add_le_add_left
    apply roundHalfEven_mono (by positivity) (by positivity)
    calc n * (d' * 2 ^ dropBits (n' / d')) = n * d' * 2 ^ dropBits (n' / d') := by ring
      _ ≤ n' * d * 2 ^ dropBits (n' / d') := Nat.mul_le_mul_right _ h
      _ = n' * (d * 2 ^ dropBits (n' / d')) := by ring

theorem roundMag_le_inf (n d : Nat) : roundMag n d ≤ infMagnitude := by unfold roundMag; exact min_le_right _ _

/-- A representable ratio rounds to its own magnitude bits. -/
theorem roundMag_exact {m d : Nat} (hd : 0 < d) (hm : m ≤ infMagnitude) : roundMag (magUnits m * d) d = m := by
  unfold roundMag
  simp only [Nat.shiftLeft_eq]
  rw [Nat.mul_div_cancel _ hd]
  rcases magnitude_cases m with h | ⟨e, f, hf, rfl⟩
  · rw [magUnits_small h, dropBits_small (by omega)]
    simp only [pow_zero, mul_one, zero_mul, zero_add]
    rw [roundHalfEven_exact _ _ hd]
    exact min_eq_left hm
  · rw [magUnits_normal e f hf, dropBits_normal e _ (by omega) (by omega)]
    rw [show (2 ^ 52 + f) * 2 ^ e * d = (2 ^ 52 + f) * (d * 2 ^ e) by ring, roundHalfEven_exact _ _ (by positivity)]
    rw [show e * 2 ^ 52 + (2 ^ 52 + f) = (e + 1) * 2 ^ 52 + f by ring]
    exact min_eq_left hm

/-- A ratio not above a representable value rounds to at most its bits. -/
theorem roundMag_le {n d m : Nat} (hd : 0 < d) (hm : m ≤ infMagnitude) (h : n ≤ magUnits m * d) : roundMag n d ≤ m := by
  calc roundMag n d ≤ roundMag (magUnits m * d) d := roundMag_mono hd hd (Nat.mul_le_mul_right _ h)
    _ = m := roundMag_exact hd hm

/-- A ratio not below a representable value rounds to at least its bits. -/
theorem le_roundMag {n d m : Nat} (hd : 0 < d) (hm : m ≤ infMagnitude) (h : magUnits m * d ≤ n) : m ≤ roundMag n d := by
  calc m = roundMag (magUnits m * d) d := (roundMag_exact hd hm).symm
    _ ≤ roundMag n d := roundMag_mono hd hd (Nat.mul_le_mul_right _ h)

@[simp] theorem roundMag_zero (d : Nat) : roundMag 0 d = 0 := by
  unfold roundMag dropBits
  simp [roundHalfEven, Nat.zero_div, Nat.zero_mod]

/-! ## Sign, magnitude and units -/

theorem infMagnitude_lt : infMagnitude < 2 ^ 63 := by decide +kernel

theorem magnitude_lt (x : F64) : x.magnitude < 2 ^ 63 := Nat.mod_lt _ (by positivity)

theorem bits_pack {m : Nat} (s : Bool) (h : m < 2 ^ 63) : (pack s m).bits.toNat = (if s then 2 ^ 63 else 0) + m := by
  unfold pack
  cases s
  · simp; omega
  · simp; omega

@[simp] theorem magnitude_pack {m : Nat} (s : Bool) (h : m < 2 ^ 63) : (pack s m).magnitude = m := by
  unfold magnitude; rw [bits_pack s h]; cases s <;> simp <;> omega

@[simp] theorem signBit_pack {m : Nat} (s : Bool) (h : m < 2 ^ 63) : (pack s m).signBit = s := by
  unfold signBit; rw [BitVec.msb_eq_decide, bits_pack s h]; cases s
  · simp; omega
  · simp

/-- A value is its sign and its magnitude bits. -/
theorem pack_signBit_magnitude (x : F64) : pack x.signBit x.magnitude = x := by
  obtain ⟨b⟩ := x
  unfold pack signBit magnitude
  congr 1
  apply BitVec.eq_of_toNat_eq
  have hb := b.isLt
  show (BitVec.ofNat 64 (if b.msb then 2 ^ 63 + b.toNat % 2 ^ 63 else b.toNat % 2 ^ 63)).toNat = b.toNat
  rw [BitVec.msb_eq_decide, BitVec.toNat_ofNat]
  by_cases h : 2 ^ (64 - 1) ≤ b.toNat
  · rw [decide_eq_true h, if_pos rfl]; omega
  · rw [decide_eq_false h, if_neg (by simp)]; omega

/-- A number of units with a sign. -/
def signedUnits (s : Bool) (a : Nat) : Int := if s then -(a : Int) else a

theorem units_eq (x : F64) : x.units = signedUnits x.signBit (magUnits x.magnitude) := rfl

theorem units_pack {m : Nat} (s : Bool) (h : m < 2 ^ 63) : (pack s m).units = signedUnits s (magUnits m) := by
  rw [units_eq, signBit_pack s h, magnitude_pack s h]

theorem roundMag_lt (n d : Nat) : roundMag n d < 2 ^ 63 := (roundMag_le_inf n d).trans_lt infMagnitude_lt

@[simp] theorem signedUnits_zero (s : Bool) : signedUnits s 0 = 0 := by cases s <;> rfl

theorem signedUnits_neg (s : Bool) (a : Nat) : signedUnits (!s) a = -signedUnits s a := by cases s <;> simp [signedUnits]

theorem signedUnits_mul (s t : Bool) (a b : Nat) :
    signedUnits s a * signedUnits t b = signedUnits (s != t) (a * b) := by
  cases s <;> cases t <;> simp [signedUnits]

theorem isFinite_iff (x : F64) : x.isFinite = true ↔ x.magnitude < infMagnitude := by simp [isFinite]

theorem isNaN_of_isFinite {x : F64} (h : x.isFinite = true) : x.isNaN = false := by
  rw [isFinite_iff] at h; simp [isNaN]; omega

theorem isInf_of_isFinite {x : F64} (h : x.isFinite = true) : x.isInf = false := by
  rw [isFinite_iff] at h; simp [isInf]; omega

@[simp] theorem signBit_neg (x : F64) : (neg x).signBit = !x.signBit := signBit_pack _ (magnitude_lt x)

@[simp] theorem magnitude_neg (x : F64) : (neg x).magnitude = x.magnitude := magnitude_pack _ (magnitude_lt x)

@[simp] theorem units_neg (x : F64) : (neg x).units = -x.units := by
  rw [units_eq, units_eq, signBit_neg, magnitude_neg, signedUnits_neg]

@[simp] theorem isFinite_neg (x : F64) : (neg x).isFinite = x.isFinite := by simp [isFinite]

/-- Magnitude zero is exact value zero. -/
theorem units_eq_zero_iff (x : F64) : x.units = 0 ↔ x.magnitude = 0 := by
  rw [units_eq]
  constructor
  · intro h
    apply magUnits_eq_zero
    cases hs : x.signBit <;> simp [signedUnits, hs] at h <;> exact_mod_cast h
  · intro h; rw [h]; simp

/-! ## Rounding with a sign -/

/-- Rounding keeps a representable upper bound. -/
theorem signed_round_le {s t : Bool} {a d b : Nat} (hd : 0 < d) (hb : b ≤ infMagnitude)
    (h : signedUnits s a ≤ signedUnits t (magUnits b) * d) :
    signedUnits s (magUnits (roundMag a d)) ≤ signedUnits t (magUnits b) := by
  cases s <;> cases t <;> simp only [signedUnits, Bool.false_eq_true, if_true, if_false] at *
  · have : a ≤ magUnits b * d := by exact_mod_cast h
    exact_mod_cast magUnits_le_iff.mpr (roundMag_le hd hb this)
  · have h0 : (a : Int) = 0 := by
      have : (0 : Int) ≤ (magUnits b : Int) * d := by positivity
      have : (0 : Int) ≤ a := by positivity
      linarith
    have h1 : (magUnits b : Int) * d ≤ 0 := by linarith
    have h2 : a = 0 := by exact_mod_cast h0
    have h3 : magUnits b = 0 := by
      by_contra hne
      have : (0 : Int) < (magUnits b : Int) * d := by
        have : 0 < magUnits b := Nat.pos_of_ne_zero hne
        positivity
      linarith
    subst h2; rw [h3]; simp
  · have : (0 : Int) ≤ (magUnits (roundMag a d) : Int) := by positivity
    have : (0 : Int) ≤ (magUnits b : Int) := by positivity
    linarith
  · have : magUnits b * d ≤ a := by
      have : (magUnits b : Int) * d ≤ a := by linarith
      exact_mod_cast this
    have := magUnits_le_iff.mpr (le_roundMag hd hb this)
    have : (magUnits b : Int) ≤ magUnits (roundMag a d) := by exact_mod_cast this
    linarith

/-- Rounding keeps a representable lower bound. -/
theorem le_signed_round {s t : Bool} {a d b : Nat} (hd : 0 < d) (hb : b ≤ infMagnitude)
    (h : signedUnits t (magUnits b) * d ≤ signedUnits s a) :
    signedUnits t (magUnits b) ≤ signedUnits s (magUnits (roundMag a d)) := by
  have h' : signedUnits (!s) a ≤ signedUnits (!t) (magUnits b) * d := by
    rw [signedUnits_neg, signedUnits_neg]; linarith
  have := signed_round_le hd hb h'
  rw [signedUnits_neg, signedUnits_neg] at this
  linarith

/-- A magnitude below infinity, from a bound on the units. -/
theorem isFinite_of_units_between {x lo hi : F64} (hlo : lo.isFinite = true) (hhi : hi.isFinite = true)
    (h1 : lo.units ≤ x.units) (h2 : x.units ≤ hi.units) : x.isFinite = true := by
  rw [isFinite_iff] at *
  by_contra hc
  have hx : magUnits infMagnitude ≤ magUnits x.magnitude := magUnits_le_iff.mpr (not_lt.mp hc)
  have hl : magUnits lo.magnitude < magUnits infMagnitude := magUnits_lt_iff.mpr hlo
  have hh : magUnits hi.magnitude < magUnits infMagnitude := magUnits_lt_iff.mpr hhi
  rw [units_eq, units_eq] at h1 h2
  unfold signedUnits at h1 h2
  generalize magUnits infMagnitude = top at hx hl hh
  generalize magUnits x.magnitude = u at *
  generalize magUnits lo.magnitude = a at *
  generalize magUnits hi.magnitude = b at *
  generalize x.signBit = sx at *
  generalize lo.signBit = sl at *
  generalize hi.signBit = sh at *
  cases sx <;> cases sl <;> cases sh <;> simp only [Bool.false_eq_true, if_true, if_false] at h1 h2 <;> omega

theorem magnitude_le_inf_of_isFinite {x : F64} (h : x.isFinite = true) : x.magnitude ≤ infMagnitude :=
  le_of_lt ((isFinite_iff x).mp h)

/-- What a rounded signed ratio can be: finite and between any two finite bounds of the exact value. -/
theorem pack_round_between {s : Bool} {a d : Nat} {lo hi : F64} (hd : 0 < d) (hlo : lo.isFinite = true) (hhi : hi.isFinite = true)
    (h1 : lo.units * d ≤ signedUnits s a) (h2 : signedUnits s a ≤ hi.units * d) :
    (pack s (roundMag a d)).isFinite = true ∧ lo.units ≤ (pack s (roundMag a d)).units
      ∧ (pack s (roundMag a d)).units ≤ hi.units := by
  have e := units_pack s (roundMag_lt a d)
  have g1 : lo.units ≤ (pack s (roundMag a d)).units := by
    rw [e, units_eq]; exact le_signed_round hd (magnitude_le_inf_of_isFinite hlo) h1
  have g2 : (pack s (roundMag a d)).units ≤ hi.units := by
    rw [e, units_eq]; exact signed_round_le hd (magnitude_le_inf_of_isFinite hhi) h2
  exact ⟨isFinite_of_units_between hlo hhi g1 g2, g1, g2⟩

theorem unitsPerOne_pos : 0 < unitsPerOne := by unfold unitsPerOne; rw [Nat.shiftLeft_eq]; positivity

/-- `add` of finite operands: finite and between any two finite bounds of the exact sum. -/
theorem add_between {x y lo hi : F64} (hx : x.isFinite = true) (hy : y.isFinite = true) (hlo : lo.isFinite = true)
    (hhi : hi.isFinite = true) (h1 : lo.units ≤ x.units + y.units) (h2 : x.units + y.units ≤ hi.units) :
    (add x y).isFinite = true ∧ lo.units ≤ (add x y).units ∧ (add x y).units ≤ hi.units := by
  have e : add x y = addFinite x y := by
    simp [add, isNaN_of_isFinite hx, isNaN_of_isFinite hy, isInf_of_isFinite hx, isInf_of_isFinite hy]
  rw [e]
  unfold addFinite
  by_cases h0 : x.units + y.units = 0
  · simp only [h0, if_true]
    have hu : (pack (x.signBit && y.signBit) 0).units = 0 := by rw [units_pack _ (by positivity)]; simp
    have hf : (pack (x.signBit && y.signBit) 0).isFinite = true := by
      rw [isFinite_iff, magnitude_pack _ (by positivity)]; decide
    exact ⟨hf, by rw [hu]; omega, by rw [hu]; omega⟩
  · simp only [h0, if_false]
    have hs : signedUnits (decide (x.units + y.units < 0)) (x.units + y.units).natAbs = x.units + y.units := by
      unfold signedUnits
      split <;> rename_i h <;> simp at h <;> omega
    apply pack_round_between (by positivity) hlo hhi <;> rw [hs] <;> simpa

/-- `sub` of finite operands: finite and between any two finite bounds of the exact difference. -/
theorem sub_between {x y lo hi : F64} (hx : x.isFinite = true) (hy : y.isFinite = true) (hlo : lo.isFinite = true)
    (hhi : hi.isFinite = true) (h1 : lo.units ≤ x.units - y.units) (h2 : x.units - y.units ≤ hi.units) :
    (sub x y).isFinite = true ∧ lo.units ≤ (sub x y).units ∧ (sub x y).units ≤ hi.units := by
  apply add_between hx (by simpa using hy) hlo hhi <;> rw [units_neg] <;> linarith

/-- `mul` of finite operands: finite and between any two finite bounds of the exact product. -/
theorem mul_between {x y lo hi : F64} (hx : x.isFinite = true) (hy : y.isFinite = true) (hlo : lo.isFinite = true)
    (hhi : hi.isFinite = true) (h1 : lo.units * unitsPerOne ≤ x.units * y.units)
    (h2 : x.units * y.units ≤ hi.units * unitsPerOne) :
    (mul x y).isFinite = true ∧ lo.units ≤ (mul x y).units ∧ (mul x y).units ≤ hi.units := by
  have e : mul x y = mulFinite x y := by
    simp [mul, isNaN_of_isFinite hx, isNaN_of_isFinite hy, isInf_of_isFinite hx, isInf_of_isFinite hy]
  rw [e]
  unfold mulFinite
  rw [units_eq x, units_eq y, signedUnits_mul] at h1 h2
  exact pack_round_between unitsPerOne_pos hlo hhi h1 h2

/-- `div` of finite operands by a positive one: finite and between any two finite bounds of the exact quotient. -/
theorem div_between {x y lo hi : F64} (hx : x.isFinite = true) (hy : y.isFinite = true) (hlo : lo.isFinite = true)
    (hhi : hi.isFinite = true) (hpos : 0 < y.units) (h1 : lo.units * y.units ≤ x.units * unitsPerOne)
    (h2 : x.units * unitsPerOne ≤ hi.units * y.units) :
    (div x y).isFinite = true ∧ lo.units ≤ (div x y).units ∧ (div x y).units ≤ hi.units := by
  have hm : y.magnitude ≠ 0 := fun h => by rw [(units_eq_zero_iff y).mpr h] at hpos; exact lt_irrefl _ hpos
  have hs : y.signBit = false := by
    by_contra hc
    rw [units_eq] at hpos
    simp only [Bool.not_eq_false] at hc
    rw [hc] at hpos
    simp [signedUnits] at hpos
    omega
  have hu : y.units = (magUnits y.magnitude : Int) := by rw [units_eq, hs]; rfl
  have e : div x y = divFinite x y := by
    simp [div, isNaN_of_isFinite hx, isNaN_of_isFinite hy, isInf_of_isFinite hx, isInf_of_isFinite hy, hm]
  rw [e]
  unfold divFinite
  rw [hs, Bool.bne_false]
  have hxu : x.units * unitsPerOne = signedUnits x.signBit (magUnits x.magnitude * unitsPerOne) := by
    generalize unitsPerOne = one
    rw [units_eq]; cases x.signBit <;> simp [signedUnits]
  rw [hxu, hu] at h1 h2
  have hp : 0 < magUnits y.magnitude := by rw [hu] at hpos; exact_mod_cast hpos
  exact pack_round_between hp hlo hhi h1 h2

/-! ## Comparisons of finite values -/

theorem lt_iff {x y : F64} (hx : x.isFinite = true) (hy : y.isFinite = true) : lt x y = true ↔ x.units < y.units := by
  simp [lt, isNaN_of_isFinite hx, isNaN_of_isFinite hy]

theorem le_iff {x y : F64} (hx : x.isFinite = true) (hy : y.isFinite = true) : le x y = true ↔ x.units ≤ y.units := by
  simp [le, isNaN_of_isFinite hx, isNaN_of_isFinite hy]

theorem within_iff {lo hi v : F64} (hlo : lo.isFinite = true) (hhi : hi.isFinite = true) (hv : v.isFinite = true) :
    within lo hi v = true ↔ lo.units ≤ v.units ∧ v.units ≤ hi.units := by
  simp [within, le_iff hlo hv, le_iff hv hhi]

/-- A value between two finite ones is finite. -/
theorem isFinite_of_within {lo hi v : F64} (hlo : lo.isFinite = true) (hhi : hi.isFinite = true)
    (h : within lo hi v = true) : v.isFinite = true := by
  simp only [within, le, Bool.and_eq_true, Bool.not_eq_true', decide_eq_true_eq] at h
  exact isFinite_of_units_between hlo hhi h.1.2 h.2.2

/-- `clamp` of a finite value between finite bounds lies between them. -/
theorem clamp_within {v lo hi : F64} (hv : v.isFinite = true) (hlo : lo.isFinite = true) (hhi : hi.isFinite = true)
    (hle : lo.units ≤ hi.units) : within lo hi (clamp v lo hi) = true := by
  have hmax : (fmax v lo).isFinite = true ∧ lo.units ≤ (fmax v lo).units := by
    unfold fmax
    split
    · exact ⟨hlo, le_refl _⟩
    · rename_i h
      rw [lt_iff hv hlo] at h
      split
      · exact ⟨hv, by omega⟩
      · split
        · exact ⟨hv, by omega⟩
        · exact ⟨hlo, le_refl _⟩
  obtain ⟨hf, hm⟩ := hmax
  unfold clamp fmin
  split
  · rename_i h
    rw [lt_iff hf hhi] at h
    rw [within_iff hlo hhi hf]; omega
  · rename_i h
    rw [lt_iff hf hhi] at h
    split
    · rw [within_iff hlo hhi hhi]; omega
    · rename_i h'
      rw [lt_iff hhi hf] at h'
      split
      · rw [within_iff hlo hhi hf]; omega
      · rw [within_iff hlo hhi hhi]; omega

end Sys2Proof.F64
end

