-- ==== Sys2Proof/Laws/Rounding.lean ====
section
/-! SUPPORT. The operations of binary64 as exact arithmetic followed by one rounding, and what that rounding keeps: it is monotone, exact
on representable values, and so carries an interval of operands to the interval of its end points. -/

namespace Sys2Proof.F64

/-- The exact value `z / d` units after rounding. -/
def roundUnits (z : Int) (d : Nat) : Int := signedUnits (decide (z < 0)) (magUnits (roundMag z.natAbs d))

theorem signedUnits_natAbs (z : Int) : signedUnits (decide (z < 0)) z.natAbs = z := by
  unfold signedUnits; split <;> rename_i h <;> simp at h <;> omega

theorem signedUnits_round_zero (s : Bool) (d : Nat) : signedUnits s (magUnits (roundMag 0 d)) = 0 := by simp

/-- Rounding is monotone. -/
theorem roundUnits_mono {z w : Int} {d e : Nat} (hd : 0 < d) (he : 0 < e) (h : z * e ≤ w * d) :
    roundUnits z d ≤ roundUnits w e := by
  have hz := signedUnits_natAbs z
  have hw := signedUnits_natAbs w
  unfold roundUnits
  have hdz : (0 : Int) < d := by exact_mod_cast hd
  have hez : (0 : Int) < e := by exact_mod_cast he
  by_cases hzn : z < 0 <;> by_cases hwn : w < 0 <;> simp only [hzn, hwn, decide_true, decide_false, signedUnits,
    Bool.false_eq_true, if_true, if_false]
  · have : w.natAbs * d ≤ z.natAbs * e := by zify; rw [abs_of_neg hzn, abs_of_neg hwn]; linarith
    have := magUnits_le_iff.mpr (roundMag_mono he hd this)
    have : (magUnits (roundMag w.natAbs e) : Int) ≤ magUnits (roundMag z.natAbs d) := by exact_mod_cast this
    linarith
  · have h1 : (0 : Int) ≤ (magUnits (roundMag z.natAbs d) : Int) := by positivity
    have h2 : (0 : Int) ≤ (magUnits (roundMag w.natAbs e) : Int) := by positivity
    linarith
  · exfalso
    have : 0 ≤ z * e := mul_nonneg (not_lt.mp hzn) (le_of_lt hez)
    have : w * d < 0 := mul_neg_of_neg_of_pos hwn hdz
    linarith
  · have : z.natAbs * e ≤ w.natAbs * d := by
      zify; rw [abs_of_nonneg (not_lt.mp hzn), abs_of_nonneg (not_lt.mp hwn)]; exact h
    exact_mod_cast magUnits_le_iff.mpr (roundMag_mono hd he this)

/-- Rounding keeps a representable value. -/
theorem roundUnits_exact {x : F64} (hx : x.isFinite = true) {d : Nat} (hd : 0 < d) : roundUnits (x.units * d) d = x.units := by
  have hm := magnitude_le_inf_of_isFinite hx
  unfold roundUnits
  rw [units_eq]
  cases hs : x.signBit
  · simp only [signedUnits, Bool.false_eq_true, if_false]
    have e : ((magUnits x.magnitude : Int) * d).natAbs = magUnits x.magnitude * d := by
      rw [← Nat.cast_mul]; exact Int.natAbs_natCast _
    have hn : ¬((magUnits x.magnitude : Int) * d < 0) := by
      rw [← Nat.cast_mul]; exact not_lt.mpr (Int.natCast_nonneg _)
    rw [e, roundMag_exact hd hm]; simp [hn]
  · simp only [signedUnits, if_true]
    have e : (-(magUnits x.magnitude : Int) * d).natAbs = magUnits x.magnitude * d := by
      rw [neg_mul, Int.natAbs_neg, ← Nat.cast_mul]; exact Int.natAbs_natCast _
    rw [e, roundMag_exact hd hm]
    split
    · rfl
    · rename_i h
      have : (magUnits x.magnitude : Int) = 0 := by
        have h1 : (0 : Int) ≤ magUnits x.magnitude := Int.natCast_nonneg _
        have h2 : (0 : Int) < d := by exact_mod_cast hd
        by_contra hne
        have h3 : (0 : Int) < magUnits x.magnitude := lt_of_le_of_ne h1 (Ne.symm hne)
        have h4 : (0 : Int) < magUnits x.magnitude * d := mul_pos h3 h2
        simp only [decide_eq_true_eq] at h
        linarith
      rw [this]; rfl

theorem signedUnits_round (s : Bool) (a d : Nat) : signedUnits s (magUnits (roundMag a d)) = roundUnits (signedUnits s a) d := by
  unfold roundUnits signedUnits
  cases s
  · simp
  · rcases Nat.eq_zero_or_pos a with h | h
    · subst h; simp
    · simp [h]

/-! ## The operations -/

theorem units_add {x y : F64} (hx : x.isFinite = true) (hy : y.isFinite = true) :
    (add x y).units = roundUnits (x.units + y.units) 1 := by
  have e : add x y = addFinite x y := by
    simp [add, isNaN_of_isFinite hx, isNaN_of_isFinite hy, isInf_of_isFinite hx, isInf_of_isFinite hy]
  rw [e]
  unfold addFinite
  by_cases h0 : x.units + y.units = 0
  · simp only [h0, if_true]
    rw [units_pack _ (by positivity)]; simp [roundUnits]
  · simp only [h0, if_false]
    rw [units_pack _ (roundMag_lt _ _)]; rfl

theorem units_sub {x y : F64} (hx : x.isFinite = true) (hy : y.isFinite = true) :
    (sub x y).units = roundUnits (x.units - y.units) 1 := by
  unfold sub; rw [units_add hx (by simpa using hy), units_neg]; rfl

theorem units_mul {x y : F64} (hx : x.isFinite = true) (hy : y.isFinite = true) :
    (mul x y).units = roundUnits (x.units * y.units) unitsPerOne := by
  have e : mul x y = mulFinite x y := by
    simp [mul, isNaN_of_isFinite hx, isNaN_of_isFinite hy, isInf_of_isFinite hx, isInf_of_isFinite hy]
  rw [e]
  unfold mulFinite
  rw [units_pack _ (roundMag_lt _ _), signedUnits_round, units_eq x, units_eq y, signedUnits_mul]

theorem signBit_of_pos {y : F64} (h : 0 < y.units) : y.signBit = false := by
  by_contra hc
  rw [units_eq] at h
  simp only [Bool.not_eq_false] at hc
  rw [hc] at h
  have : (0 : Int) ≤ magUnits y.magnitude := Int.natCast_nonneg _
  simp only [signedUnits, if_true] at h
  linarith

theorem units_div {x y : F64} (hx : x.isFinite = true) (hy : y.isFinite = true) (hpos : 0 < y.units) :
    (div x y).units = roundUnits (x.units * unitsPerOne) y.units.toNat := by
  have hm : y.magnitude ≠ 0 := fun h => by rw [(units_eq_zero_iff y).mpr h] at hpos; exact lt_irrefl _ hpos
  have hs := signBit_of_pos hpos
  have hu : y.units.toNat = magUnits y.magnitude := by
    rw [units_eq, hs]; exact Int.toNat_natCast _
  have e : div x y = divFinite x y := by
    simp [div, isNaN_of_isFinite hx, isNaN_of_isFinite hy, isInf_of_isFinite hx, isInf_of_isFinite hy, hm]
  rw [e]
  unfold divFinite
  rw [hs, Bool.bne_false, units_pack _ (roundMag_lt _ _), signedUnits_round, hu]
  congr 1
  generalize unitsPerOne = one
  rw [units_eq]; cases x.signBit <;> simp [signedUnits]

/-! ## Intervals -/

/-- A finite value between two finite ones. -/
structure Between (lo hi x : F64) : Prop where
  lo_finite : lo.isFinite = true
  hi_finite : hi.isFinite = true
  finite : x.isFinite = true
  lo_le : lo.units ≤ x.units
  le_hi : x.units ≤ hi.units

theorem between_of_units {lo hi x : F64} (hl : lo.isFinite = true) (hh : hi.isFinite = true) (h1 : lo.units ≤ x.units)
    (h2 : x.units ≤ hi.units) : Between lo hi x := ⟨hl, hh, isFinite_of_units_between hl hh h1 h2, h1, h2⟩

theorem between_of_within {lo hi x : F64} (hl : lo.isFinite = true) (hh : hi.isFinite = true) (h : within lo hi x = true) :
    Between lo hi x := by
  have hf := isFinite_of_within hl hh h
  have := (within_iff hl hh hf).mp h
  exact ⟨hl, hh, hf, this.1, this.2⟩

theorem Between.within {lo hi x : F64} (h : Between lo hi x) : within lo hi x = true :=
  (within_iff h.lo_finite h.hi_finite h.finite).mpr ⟨h.lo_le, h.le_hi⟩

theorem Between.mono {lo hi lo' hi' x : F64} (h : Between lo hi x) (fl : lo'.isFinite = true) (fh : hi'.isFinite = true)
    (hl : lo'.units ≤ lo.units) (hh : hi.units ≤ hi'.units) : Between lo' hi' x :=
  ⟨fl, fh, h.finite, hl.trans h.lo_le, h.le_hi.trans hh⟩

theorem Between.self {x : F64} (h : x.isFinite = true) : Between x x x := ⟨h, h, h, le_refl _, le_refl _⟩

theorem Between.add {a b c d x y : F64} (hx : Between a b x) (hy : Between c d y) (hl : (F64.add a c).isFinite = true)
    (hh : (F64.add b d).isFinite = true) : Between (F64.add a c) (F64.add b d) (F64.add x y) := by
  apply between_of_units hl hh
  · rw [units_add hx.lo_finite hy.lo_finite, units_add hx.finite hy.finite]
    exact roundUnits_mono Nat.one_pos Nat.one_pos (by have := hx.lo_le; have := hy.lo_le; push_cast; linarith)
  · rw [units_add hx.hi_finite hy.hi_finite, units_add hx.finite hy.finite]
    exact roundUnits_mono Nat.one_pos Nat.one_pos (by have := hx.le_hi; have := hy.le_hi; push_cast; linarith)

theorem Between.sub {a b c d x y : F64} (hx : Between a b x) (hy : Between c d y) (hl : (F64.sub a d).isFinite = true)
    (hh : (F64.sub b c).isFinite = true) : Between (F64.sub a d) (F64.sub b c) (F64.sub x y) := by
  apply between_of_units hl hh
  · rw [units_sub hx.lo_finite hy.hi_finite, units_sub hx.finite hy.finite]
    exact roundUnits_mono Nat.one_pos Nat.one_pos (by have := hx.lo_le; have := hy.le_hi; push_cast; linarith)
  · rw [units_sub hx.hi_finite hy.lo_finite, units_sub hx.finite hy.finite]
    exact roundUnits_mono Nat.one_pos Nat.one_pos (by have := hx.le_hi; have := hy.lo_le; push_cast; linarith)

/-- Multiplication by a constant that is not negative. -/
theorem Between.mul_left {a b c x : F64} (hx : Between a b x) (hc : c.isFinite = true) (h0 : 0 ≤ c.units)
    (hl : (F64.mul c a).isFinite = true) (hh : (F64.mul c b).isFinite = true) :
    Between (F64.mul c a) (F64.mul c b) (F64.mul c x) := by
  apply between_of_units hl hh
  · rw [units_mul hc hx.lo_finite, units_mul hc hx.finite]
    exact roundUnits_mono unitsPerOne_pos unitsPerOne_pos
      (mul_le_mul_of_nonneg_right (mul_le_mul_of_nonneg_left hx.lo_le h0) (Int.natCast_nonneg _))
  · rw [units_mul hc hx.hi_finite, units_mul hc hx.finite]
    exact roundUnits_mono unitsPerOne_pos unitsPerOne_pos
      (mul_le_mul_of_nonneg_right (mul_le_mul_of_nonneg_left hx.le_hi h0) (Int.natCast_nonneg _))

theorem Between.mul_right {a b c x : F64} (hx : Between a b x) (hc : c.isFinite = true) (h0 : 0 ≤ c.units)
    (hl : (F64.mul a c).isFinite = true) (hh : (F64.mul b c).isFinite = true) :
    Between (F64.mul a c) (F64.mul b c) (F64.mul x c) := by
  apply between_of_units hl hh
  · rw [units_mul hx.lo_finite hc, units_mul hx.finite hc]
    exact roundUnits_mono unitsPerOne_pos unitsPerOne_pos
      (mul_le_mul_of_nonneg_right (mul_le_mul_of_nonneg_right hx.lo_le h0) (Int.natCast_nonneg _))
  · rw [units_mul hx.hi_finite hc, units_mul hx.finite hc]
    exact roundUnits_mono unitsPerOne_pos unitsPerOne_pos
      (mul_le_mul_of_nonneg_right (mul_le_mul_of_nonneg_right hx.le_hi h0) (Int.natCast_nonneg _))

/-- Multiplication by a constant that is not positive turns the interval round. -/
theorem Between.mul_left_neg {a b c x : F64} (hx : Between a b x) (hc : c.isFinite = true) (h0 : c.units ≤ 0)
    (hl : (F64.mul c b).isFinite = true) (hh : (F64.mul c a).isFinite = true) :
    Between (F64.mul c b) (F64.mul c a) (F64.mul c x) := by
  apply between_of_units hl hh
  · rw [units_mul hc hx.hi_finite, units_mul hc hx.finite]
    exact roundUnits_mono unitsPerOne_pos unitsPerOne_pos
      (mul_le_mul_of_nonneg_right (mul_le_mul_of_nonpos_left hx.le_hi h0) (Int.natCast_nonneg _))
  · rw [units_mul hc hx.lo_finite, units_mul hc hx.finite]
    exact roundUnits_mono unitsPerOne_pos unitsPerOne_pos
      (mul_le_mul_of_nonneg_right (mul_le_mul_of_nonpos_left hx.lo_le h0) (Int.natCast_nonneg _))

/-- Division by a positive constant. -/
theorem Between.div_right {a b c x : F64} (hx : Between a b x) (hc : c.isFinite = true) (h0 : 0 < c.units)
    (hl : (F64.div a c).isFinite = true) (hh : (F64.div b c).isFinite = true) :
    Between (F64.div a c) (F64.div b c) (F64.div x c) := by
  have hn : 0 < c.units.toNat := by omega
  apply between_of_units hl hh
  · rw [units_div hx.lo_finite hc h0, units_div hx.finite hc h0]
    exact roundUnits_mono hn hn
      (mul_le_mul_of_nonneg_right (mul_le_mul_of_nonneg_right hx.lo_le (Int.natCast_nonneg _)) (Int.natCast_nonneg _))
  · rw [units_div hx.hi_finite hc h0, units_div hx.finite hc h0]
    exact roundUnits_mono hn hn
      (mul_le_mul_of_nonneg_right (mul_le_mul_of_nonneg_right hx.le_hi (Int.natCast_nonneg _)) (Int.natCast_nonneg _))

theorem Between.clamp {a b lo hi x : F64} (hx : Between a b x) (hlo : lo.isFinite = true) (hhi : hi.isFinite = true)
    (hle : lo.units ≤ hi.units) : Between lo hi (F64.clamp x lo hi) :=
  between_of_within hlo hhi (clamp_within hx.finite hlo hhi hle)

/-! ## Maximum, minimum and clamp -/

/-- Whichever of two equal zeros is taken, the exact value is the greater one (00_scope R13). -/
theorem units_fmax {a b : F64} (ha : a.isFinite = true) (hb : b.isFinite = true) : (fmax a b).units = max a.units b.units := by
  unfold fmax
  split
  · rename_i h; rw [lt_iff ha hb] at h; rw [max_eq_right (le_of_lt h)]
  · rename_i h; rw [lt_iff ha hb] at h
    split
    · rw [max_eq_left (not_lt.mp h)]
    · rename_i h2; rw [lt_iff hb ha] at h2
      have e : a.units = b.units := le_antisymm (not_lt.mp h2) (not_lt.mp h)
      split <;> rw [e, max_self]

theorem isFinite_fmax {a b : F64} (ha : a.isFinite = true) (hb : b.isFinite = true) : (fmax a b).isFinite = true := by
  unfold fmax; split_ifs <;> assumption

theorem units_fmin {a b : F64} (ha : a.isFinite = true) (hb : b.isFinite = true) : (fmin a b).units = min a.units b.units := by
  unfold fmin
  split
  · rename_i h; rw [lt_iff ha hb] at h; rw [min_eq_left (le_of_lt h)]
  · rename_i h; rw [lt_iff ha hb] at h
    split
    · rw [min_eq_right (not_lt.mp h)]
    · rename_i h2; rw [lt_iff hb ha] at h2
      have e : a.units = b.units := le_antisymm (not_lt.mp h2) (not_lt.mp h)
      split <;> rw [e, min_self]

/-- The exact value of a clamp (00_scope R13). -/
theorem units_clamp {v lo hi : F64} (hv : v.isFinite = true) (hl : lo.isFinite = true) (hh : hi.isFinite = true) :
    (clamp v lo hi).units = min (max v.units lo.units) hi.units := by
  unfold clamp
  rw [units_fmin (isFinite_fmax hv hl) hh, units_fmax hv hl]

/-! ## Neighbours -/

/-- Equal exact values other than zero are equal bits. -/
theorem eq_of_units {x y : F64} (h : x.units = y.units) (h0 : x.units ≠ 0) : x = y := by
  have hp : ∀ {s t : Bool} {a b : Nat}, signedUnits s a = signedUnits t b → signedUnits s a ≠ 0 → s = t ∧ a = b := by
    intro s t a b
    cases s <;> cases t <;> simp only [signedUnits, Bool.false_eq_true, if_false, if_true] <;> intro h h0
    · exact ⟨trivial, by omega⟩
    · omega
    · omega
    · exact ⟨trivial, by omega⟩
  rw [units_eq, units_eq] at h
  rw [units_eq] at h0
  obtain ⟨hs, hm⟩ := hp h h0
  rw [← pack_signBit_magnitude x, ← pack_signBit_magnitude y, hs, magUnits_strictMono.injective hm]

/-- Below a positive value lies at most its predecessor. -/
theorem le_of_lt_next {x : F64} {m : Nat} (hm : m + 1 < 2 ^ 63) (h : x.units < (pack false (m + 1)).units) :
    x.units ≤ (pack false m).units := by
  rw [units_pack false hm, units_eq x] at h
  rw [units_pack false (by omega), units_eq x]
  revert h
  cases x.signBit <;> simp only [signedUnits, Bool.false_eq_true, if_false, if_true] <;> intro h
  · have : magUnits x.magnitude < magUnits (m + 1) := by exact_mod_cast h
    exact_mod_cast magUnits_le_iff.mpr (Nat.lt_succ_iff.mp (magUnits_lt_iff.mp this))
  · omega

/-- Above a value that is not negative lies at least its successor. -/
theorem next_le_of_lt {x : F64} {m : Nat} (hm : m + 1 < 2 ^ 63) (h : (pack false m).units < x.units) :
    (pack false (m + 1)).units ≤ x.units := by
  rw [units_pack false (by omega), units_eq x] at h
  rw [units_pack false hm, units_eq x]
  revert h
  cases x.signBit <;> simp only [signedUnits, Bool.false_eq_true, if_false, if_true] <;> intro h
  · have : magUnits m < magUnits x.magnitude := by exact_mod_cast h
    exact_mod_cast magUnits_le_iff.mpr (Nat.succ_le_of_lt (magUnits_lt_iff.mp this))
  · omega

/-- A clamp of a value below the range is the lower end, bit for bit. -/
theorem clamp_of_lt {v lo hi : F64} (hv : v.isFinite = true) (hl : lo.isFinite = true) (hh : hi.isFinite = true)
    (h : v.units < lo.units) (hr : lo.units < hi.units) : clamp v lo hi = lo := by
  unfold clamp fmax
  rw [if_pos ((lt_iff hv hl).mpr h)]
  unfold fmin
  rw [if_pos ((lt_iff hl hh).mpr hr)]

/-- A clamp of a value at the upper end or above it is the upper end, bit for bit, where that is not zero. -/
theorem clamp_of_ge {v lo hi : F64} (hv : v.isFinite = true) (hl : lo.isFinite = true) (hh : hi.isFinite = true)
    (h : hi.units ≤ v.units) (hr : lo.units < hi.units) (h0 : hi.units ≠ 0) : clamp v lo hi = hi := by
  have hlv : ¬lt v lo = true := by rw [lt_iff hv hl]; omega
  unfold clamp fmax
  rw [if_neg hlv, if_pos ((lt_iff hl hv).mpr (by omega))]
  unfold fmin
  rw [if_neg (by rw [lt_iff hv hh]; omega)]
  split
  · rfl
  · rename_i hx
    rw [lt_iff hh hv] at hx
    have e : hi = v := eq_of_units (by omega) h0
    split
    · exact e.symm
    · rfl

/-! ## The constants of the spec that the ranges need -/

theorem units_one : F64.one.units = unitsPerOne := by decide +kernel

theorem units_zero : F64.zero.units = 0 := by decide +kernel

theorem isFinite_one : F64.one.isFinite = true := by decide +kernel

theorem isFinite_zero : F64.zero.isFinite = true := by decide +kernel

/-! ## Representable values -/

/-- Every 53-bit count of a power of two of units, from 2^52 units up, is a binary64 value. -/
theorem exists_of_units {k e : Nat} (hk : k < 2 ^ 53) (he : 52 ≤ e) (he' : e ≤ 1500) :
    ∃ x : F64, x.isFinite = true ∧ x.units = (k * 2 ^ e : Nat) := by
  rcases Nat.eq_zero_or_pos k with h0 | h0
  · exact ⟨F64.zero, by decide +kernel, by subst h0; rw [Nat.zero_mul]; decide +kernel⟩
  · have hl : k.log2 ≤ 52 := Nat.le_of_lt_succ ((Nat.log2_lt (by omega)).mpr hk)
    have h1 : 2 ^ k.log2 ≤ k := Nat.log2_self_le (by omega)
    have h2 : k < 2 ^ (k.log2 + 1) := Nat.lt_log2_self
    generalize hj : k.log2 = j at *
    have hs1 : 2 ^ 52 ≤ k * 2 ^ (52 - j) := by
      calc 2 ^ 52 = 2 ^ j * 2 ^ (52 - j) := by rw [← pow_add]; congr 1; omega
        _ ≤ _ := Nat.mul_le_mul_right _ h1
    have hs2 : k * 2 ^ (52 - j) < 2 ^ 53 := by
      calc k * 2 ^ (52 - j) < 2 ^ (j + 1) * 2 ^ (52 - j) := Nat.mul_lt_mul_of_pos_right h2 (by positivity)
        _ = 2 ^ 53 := by rw [← pow_add]; congr 1; omega
    obtain ⟨f, hf⟩ := Nat.exists_eq_add_of_le hs1
    obtain ⟨d, hd⟩ := Nat.exists_eq_add_of_le (show 52 - j ≤ e by omega)
    have hm : magUnits ((d + 1) * 2 ^ 52 + f) = k * 2 ^ e := by
      rw [magUnits_normal d f (by omega), ← hf, hd, mul_assoc, ← pow_add]
    have hlt : (d + 1) * 2 ^ 52 + f < infMagnitude := by
      have : infMagnitude = 2047 * 2 ^ 52 := rfl
      have hd' : d + 1 ≤ 1501 := by omega
      have := Nat.mul_le_mul_right (2 ^ 52) hd'
      omega
    refine ⟨pack false ((d + 1) * 2 ^ 52 + f), ?_, ?_⟩
    · rw [isFinite_iff, magnitude_pack _ (hlt.trans infMagnitude_lt)]; exact hlt
    · rw [units_pack _ (hlt.trans infMagnitude_lt), hm]; rfl

theorem unitsPerOne_eq : unitsPerOne = 2 ^ 1074 := by unfold unitsPerOne; rw [Nat.shiftLeft_eq, one_mul]

/-- Every natural number below 2^53 is a binary64 value. -/
theorem exists_of_nat {n : Nat} (hn : n < 2 ^ 53) : ∃ x : F64, x.isFinite = true ∧ x.units = (n * unitsPerOne : Nat) := by
  rw [unitsPerOne_eq]; exact exists_of_units hn (by omega) (by omega)

/-- The conversion of a Nat below 2^53 is exact (00_scope R12). -/
theorem units_ofNat {n : Nat} (hn : n < 2 ^ 53) : (ofNat n).isFinite = true ∧ (ofNat n).units = (n * unitsPerOne : Nat) := by
  obtain ⟨x, hx, hu⟩ := exists_of_nat hn
  have h : (pack false (roundMag (n * unitsPerOne) 1)).isFinite = true ∧ x.units ≤ (pack false (roundMag (n * unitsPerOne) 1)).units
      ∧ (pack false (roundMag (n * unitsPerOne) 1)).units ≤ x.units := by
    apply pack_round_between Nat.one_pos hx hx <;> rw [hu] <;> simp [signedUnits]
  exact ⟨h.1, (le_antisymm h.2.2 h.2.1).trans hu⟩

end Sys2Proof.F64
end

