-- ==== Sys2Proof/Laws/Wave.lean ====
section
/-! SUPPORT. WRAP and OSC_STEP at the rates and frequencies that occur, and the waveform of 44_modulator R191 as segments put one after
the other. -/

namespace Sys2Proof.Machine

open Sys2Proof.F64

/-! ## Floors -/

theorem floor_lt_iff {v : F64} {n : Int} : floor v < n ↔ v.units < n * unitsPerOne := by
  unfold floor
  exact Int.ediv_lt_iff_lt_mul (by exact_mod_cast unitsPerOne_pos)

theorem le_floor_iff {v : F64} {n : Int} : n ≤ floor v ↔ n * unitsPerOne ≤ v.units := by
  unfold floor
  exact Int.le_ediv_iff_mul_le (by exact_mod_cast unitsPerOne_pos)

/-! ## WRAP and OSC_STEP -/

/-- 1.0 in units is eight times a power of two. -/
theorem unitsPerOne_eighth : unitsPerOne = 8 * 2 ^ 1071 := by rw [unitsPerOne_eq, show (1074:Nat) = 3 + 1071 from rfl, pow_add]; generalize (2:Nat)^1071 = u; omega

/-- One round of WRAP takes at least 6 from the floor of the phase and keeps it in range. -/
theorem wrap_round {p : F64} (hp : Between F64.zero (decimal 20000 0) p) (hl : le twoPi p = true) :
    Between F64.zero (decimal 20000 0) (sub p twoPi) ∧ floor (sub p twoPi) ≤ floor p - 6 := by
  have ft : twoPi.isFinite = true := by decide +kernel
  rw [le_iff ft hp.finite] at hl
  have t1 : (25 * unitsPerOne : Int) ≤ 4 * twoPi.units := by decide +kernel
  have t2 : (4 : Int) * twoPi.units ≤ 26 * unitsPerOne := by decide +kernel
  have hpm : (decimal 20000 0).units = 20000 * unitsPerOne := by decide +kernel
  have one0 : (0:Int) < unitsPerOne := by exact_mod_cast unitsPerOne_pos
  have h6 : (6 : Int) ≤ floor p := by rw [le_floor_iff]; linarith
  have hN : floor p ≤ 20000 := by
    by_contra hc
    have : 20001 ≤ floor p := by omega
    rw [le_floor_iff] at this
    have := hp.le_hi
    rw [hpm] at this
    linarith
  have hlt : p.units < (floor p + 1) * unitsPerOne := by rw [← floor_lt_iff]; omega
  obtain ⟨n, hn⟩ := Int.eq_ofNat_of_zero_le (show 0 ≤ floor p by omega)
  rw [hn] at h6 hN hlt ⊢
  have hn6 : 6 ≤ n := by exact_mod_cast h6
  have hn2 : n ≤ 20000 := by exact_mod_cast hN
  obtain ⟨c, fc, uc⟩ := exists_of_units (k := 8 * (n - 5) - 1) (e := 1071) (by omega) (by omega) (by omega)
  have he : (unitsPerOne : Int) = 8 * (2 ^ 1071 : Nat) := by exact_mod_cast unitsPerOne_eighth
  have hc : c.units = (8 * (n - 5) - 1 : Int) * (2 ^ 1071 : Nat) := by
    rw [uc]
    generalize (2 ^ 1071 : Nat) = u
    rw [Nat.cast_mul, Nat.cast_sub (by omega), Nat.cast_mul, Nat.cast_sub (by omega)]; norm_num
  clear uc
  generalize (2 ^ 1071 : Nat) = u at he hc
  have hupos : (0:Int) < u := by omega
  have := sub_between hp.finite ft isFinite_zero fc (by rw [units_zero]; linarith)
    (by rw [hc]; rw [he] at hlt t1; nlinarith)
  refine ⟨⟨isFinite_zero, hp.hi_finite, this.1, this.2.1, ?_⟩, ?_⟩
  · refine this.2.2.trans ?_
    rw [hc, hpm, he]; nlinarith
  · have : floor (sub p twoPi) < n - 5 := by
      rw [floor_lt_iff]
      refine lt_of_le_of_lt this.2.2 ?_
      rw [hc, he]; nlinarith
    omega

theorem wrapLoop_ok (fuel : Nat) {p : F64} (hp : Between F64.zero (decimal 20000 0) p) (hf : floor p < 6 * fuel) :
    ∃ q, wrapLoop .binary64 fuel p = some q ∧ Between F64.zero (decimal 20000 0) q ∧ le twoPi q = false := by
  have h0 : 0 ≤ floor p := by rw [le_floor_iff, zero_mul]; have := hp.lo_le; rw [units_zero] at this; exact this
  induction fuel generalizing p with
  | zero => simp at hf; omega
  | succ n ih =>
    by_cases hl : NumDomain.binary64.le twoPi p = true
    · obtain ⟨b, fl⟩ := wrap_round hp hl
      have hne : NumDomain.binary64.sub p twoPi ≠ p := fun e => by rw [show sub p twoPi = p from e] at fl; omega
      have h0' : 0 ≤ floor (sub p twoPi) := by rw [le_floor_iff, zero_mul]; have := b.lo_le; rw [units_zero] at this; exact this
      obtain ⟨q, hq, r⟩ := ih b (by push_cast at hf; omega) h0'
      exact ⟨q, by unfold wrapLoop; rw [if_pos hl, if_neg hne]; exact hq, r⟩
    · exact ⟨p, by unfold wrapLoop; rw [if_neg hl], hp, by simpa using hl⟩

/-- WRAP answers for every phase up to 20000, with a phase below TWO_PI. -/
theorem wrapPhase_ok {p : F64} (hp : Between F64.zero (decimal 20000 0) p) :
    ∃ q, wrapPhase .binary64 p = .ok q ∧ Between F64.zero (decimal 20000 0) q ∧ le twoPi q = false := by
  have h0 : 0 ≤ floor p := by rw [le_floor_iff, zero_mul]; have := hp.lo_le; rw [units_zero] at this; exact this
  obtain ⟨q, h, r⟩ := wrapLoop_ok ((floor p).toNat / 6 + 1) hp (by push_cast; omega)
  exact ⟨q, wrapPhase_ok_iff.mpr h, r⟩

/-- The phase lies in [0, TWO_PI) (10_state R38). -/
def phaseInTurn (p : F64) : Prop := (le F64.zero p && lt p twoPi) = true

theorem phaseInTurn_of {q : F64} (b : Between F64.zero (decimal 20000 0) q) (h : le twoPi q = false) : phaseInTurn q := by
  have ft : twoPi.isFinite = true := by decide +kernel
  unfold phaseInTurn
  rw [Bool.and_eq_true, le_iff isFinite_zero b.finite, lt_iff b.finite ft]
  refine ⟨b.lo_le, ?_⟩
  by_contra hc
  rw [(le_iff ft b.finite).mpr (by omega)] at h
  cases h

theorem phase_between {p : F64} (h : phaseInTurn p) : Between F64.zero twoPi p := by
  unfold phaseInTurn at h
  apply between_of_within isFinite_zero (by decide +kernel)
  simp only [within, le, lt, Bool.and_eq_true, Bool.not_eq_true', decide_eq_true_eq] at *
  exact ⟨h.1, ⟨⟨h.2.1.1, h.2.1.2⟩, le_of_lt h.2.2⟩⟩

/-- One advance of the phase, before WRAP, at an admitted rate and a frequency of the segment table. -/
theorem advance_between {sr f phase : F64} (hs : Between F64.one kRateMax sr) (hf : Between (decimal 1000 0) (decimal 2400 0) f) (hp : phaseInTurn phase) :
    Between F64.zero (decimal 20000 0) (add phase (phaseIncrement .binary64 sr f)) := by
  have ft : twoPi.isFinite = true := by decide +kernel
  have m := hf.mul_left (c := twoPi) ft (by decide +kernel) (by decide +kernel) (by decide +kernel)
  have one0 : (0:Int) < unitsPerOne := by exact_mod_cast unitsPerOne_pos
  have s1 : (unitsPerOne : Int) ≤ sr.units := by rw [← units_one]; exact hs.lo_le
  have m0 : 0 ≤ (mul twoPi f).units := le_trans (by decide +kernel) m.lo_le
  have d := div_between m.finite hs.finite isFinite_zero m.hi_finite (by linarith)
    (by rw [units_zero, zero_mul]; exact mul_nonneg m0 one0.le)
    (mul_le_mul m.le_hi s1 one0.le (m0.trans m.le_hi))
  have db : Between F64.zero (mul twoPi (decimal 2400 0)) (phaseIncrement .binary64 sr f) := ⟨isFinite_zero, m.hi_finite, d.1, d.2.1, d.2.2⟩
  exact ((phase_between hp).add db (by decide +kernel) (by decide +kernel)).mono (by decide +kernel) (by decide +kernel) (by decide +kernel) (by decide +kernel)

/-- OSC_STEP never faults from a phase in [0, TWO_PI) at an admitted rate and a frequency of the table. -/
theorem oscStep_ok {cfg : Config} (hN : cfg.num = .binary64) {sr f phase : F64} (hs : Between F64.one kRateMax sr) (hf : Between (decimal 1000 0) (decimal 2400 0) f) (hp : phaseInTurn phase) :
    ∃ v p, oscStep cfg sr f phase = .ok (v, p) := by
  obtain ⟨q, hq, -⟩ := wrapPhase_ok (advance_between hs hf hp)
  exact ⟨_, q, oscStep_ok_iff.mpr ⟨by rw [hN]; exact hq, rfl⟩⟩

/-- ... and leaves a phase in [0, TWO_PI). -/
theorem oscStep_phase {cfg : Config} (hN : cfg.num = .binary64) {sr f phase v p : F64} (hs : Between F64.one kRateMax sr) (hf : Between (decimal 1000 0) (decimal 2400 0) f) (hp : phaseInTurn phase)
    (h : oscStep cfg sr f phase = .ok (v, p)) : phaseInTurn p := by
  obtain ⟨q, hq, b, hl⟩ := wrapPhase_ok (advance_between hs hf hp)
  have hw := (oscStep_ok_iff.mp h).1
  rw [hN] at hw
  cases hw.symm.trans hq
  exact phaseInTurn_of b hl

/-! ## The waveform, segment by segment -/

theorem phaseInTurn_zero : phaseInTurn F64.zero := by unfold phaseInTurn; decide +kernel

/-- The samples of a segment from a phase in [0, TWO_PI). -/
theorem waveSamples_ok {cfg : Config} (hN : cfg.num = .binary64) {sr f : F64} (hs : Between F64.one kRateMax sr)
    (hf : Between (decimal 1000 0) (decimal 2400 0) f) (n : Nat) {w : WaveState} (hp : phaseInTurn w.phase) :
    ∃ w', waveSamples cfg sr f n w = .ok w' ∧ phaseInTurn w'.phase := by
  induction n generalizing w with
  | zero => exact ⟨w, rfl, hp⟩
  | succ n ih =>
    obtain ⟨v, p, ho⟩ := oscStep_ok hN hs hf hp
    obtain ⟨w', hw, hp'⟩ := ih (w := { w with sampleIndex := w.sampleIndex + 1, phase := p, samples := w.samples ++ [v] })
      (oscStep_phase hN hs hf hp ho)
    exact ⟨w', by simp only [waveSamples, bind, Except.bind, ho]; exact hw, hp'⟩

/-- One more sample. -/
theorem waveSamples_succ (cfg : Config) (sr f : F64) (n : Nat) (w : WaveState) :
    waveSamples cfg sr f (n + 1) w = (waveSamples cfg sr f n w).bind fun w' => waveSamples cfg sr f 1 w' := by
  induction n generalizing w with
  | zero => rfl
  | succ n ih =>
    rw [show n + 1 + 1 = (n + 1) + 1 from rfl]
    cases ho : oscStep cfg sr f w.phase with
    | error e => simp [waveSamples, bind, Except.bind, ho]
    | ok vp =>
      have := ih { w with sampleIndex := w.sampleIndex + 1, phase := vp.2, samples := w.samples ++ [vp.1] }
      rw [waveSamples, waveSamples]
      simp only [bind, Except.bind, ho] at this ⊢
      exact this

/-- A segment as its first `waveCount` samples and then its duration. -/
theorem waveSegment_eq (cfg : Config) (raster : Cells (Cells Pixel)) (sr : F64) (g : Segment) (w : WaveState) :
    waveSegment cfg raster sr g w =
      (wavePart cfg raster sr g (waveCount cfg.num sr (segmentDur cfg.num g) w) w).bind fun w' =>
        .ok { w' with elapsed := cfg.num.add w'.elapsed (segmentDur cfg.num g) } := by
  unfold waveSegment wavePart
  by_cases h : waveCount cfg.num sr (segmentDur cfg.num g) w = 0
  · simp only [h, if_true, bind, Except.bind]
  · simp only [h, if_false, bind, Except.bind]
    cases segmentFreq cfg.num raster g <;> rfl

/-- One more segment. -/
theorem waveFrom_succ (cfg : Config) (raster : Cells (Cells Pixel)) (sr : F64) (n k : Nat) (w : WaveState) :
    waveFrom cfg raster sr (n + 1) k w =
      (waveFrom cfg raster sr n k w).bind fun w' => (fetchSegment (k + n)).bind fun g => waveSegment cfg raster sr g w' := by
  induction n generalizing k w with
  | zero =>
    rw [waveFrom, waveFrom]
    simp only [bind, Except.bind, Nat.add_zero]
    cases fetchSegment k with
    | error e => rfl
    | ok g =>
      simp only
      cases waveSegment cfg raster sr g w <;> rfl
  | succ n ih =>
    rw [waveFrom]
    conv_rhs => rw [waveFrom]
    simp only [bind, Except.bind]
    cases fetchSegment k with
    | error e => rfl
    | ok g =>
      simp only
      cases waveSegment cfg raster sr g w with
      | error e => rfl
      | ok w' =>
        have := ih (k + 1) w'
        simp only [Except.bind] at this
        rw [show k + (n + 1) = k + 1 + n by omega]
        exact this

/-- A waveform whose segments' frequencies lie between 1000 and 2400 Hz never faults. -/
theorem waveFrom_ok {cfg : Config} (hN : cfg.num = .binary64) {raster : Cells (Cells Pixel)} {sr : F64} (hs : Between F64.one kRateMax sr)
    (hf : ∀ g f, segmentFreq .binary64 raster g = .ok f → Between (decimal 1000 0) (decimal 2400 0) f) (n : Nat) {k : Nat}
    (hk : k + n ≤ segmentTotal) {w : WaveState} (hp : phaseInTurn w.phase) :
    ∃ w', waveFrom cfg raster sr n k w = .ok w' ∧ phaseInTurn w'.phase := by
  induction n generalizing k w with
  | zero => exact ⟨w, rfl, hp⟩
  | succ n ih =>
    obtain ⟨g, hg⟩ := segmentAt_of_lt (k := k) (by omega)
    obtain ⟨f, hfr⟩ := segmentFreq_ok .binary64 raster (segmentAt_inRaster hg)
    have hw : ∃ w1, waveSegment cfg raster sr g w = .ok w1 ∧ phaseInTurn w1.phase := by
      rw [waveSegment_eq]
      unfold wavePart
      split
      · exact ⟨_, rfl, hp⟩
      · obtain ⟨w', hw, hp'⟩ := waveSamples_ok hN hs (hf g f hfr) (waveCount cfg.num sr (segmentDur cfg.num g) w) hp
        exact ⟨{ w' with elapsed := cfg.num.add w'.elapsed (segmentDur cfg.num g) }, by simp only [bind, Except.bind, hN, hfr]; rw [hN] at hw; simp only [hw], hp'⟩
    obtain ⟨w1, hw1, hp1⟩ := hw
    obtain ⟨w', hw', hp'⟩ := ih (k := k + 1) (by omega) hp1
    exact ⟨w', by rw [waveFrom]; simp only [bind, Except.bind, fetchSegment_ok_iff.mpr hg, hw1]; exact hw', hp'⟩

end Sys2Proof.Machine
end

