-- ==== Sys2Proof/Laws/Columns.lean ====
section
/-! SUPPORT. The columns of SCAN (42_scanline_decoder R153, R154) in the default domain: inside its window each column is in 0..319,
whatever the rate, so the range test of R153 and R154 never fails there. The extreme column is that of the last binary64 value inside
the window. -/

namespace Sys2Proof.Machine

open Sys2Proof.F64

/-- The last binary64 value below `hi`. -/
def lastBelow (hi : F64) : F64 := pack false (hi.magnitude - 1)

/-- A scan's position at the time t, in columns, for the window that begins at lo and a scan of d seconds. -/
def scanPosition (lo d t : F64) : F64 := mul (div (sub t lo) d) kWidth

/-- `lastBelow hi` is the predecessor of hi, and both ends of the window are finite. -/
def windowEnds (lo hi : F64) : Bool :=
  lo.isFinite && (lastBelow hi).isFinite && decide (hi.magnitude - 1 + 1 < 2 ^ 63 ∧ hi = pack false (hi.magnitude - 1 + 1))

/-- The three operations of a column stay finite at the time t. -/
def positionFinite (lo d t : F64) : Bool := (sub t lo).isFinite && (div (sub t lo) d).isFinite && (scanPosition lo d t).isFinite

/-- The facts about the window (lo, hi) and a scan of d seconds on which its columns rest: from `first` on at lo, below `bound` at the
last time inside. -/
def scanFits (lo hi d : F64) (first bound : Int) : Bool :=
  windowEnds lo hi && d.isFinite && positionFinite lo d lo && positionFinite lo d (lastBelow hi)
    && decide (0 < d.units ∧ first ≤ floor (scanPosition lo d lo) ∧ floor (scanPosition lo d (lastBelow hi)) < bound)

/-- A time inside the open window is between its lower end and the last value below its upper end. -/
theorem between_of_window {lo hi t : F64} (w : windowEnds lo hi = true) (h : (lt lo t && lt t hi) = true) :
    Between lo (lastBelow hi) t := by
  simp only [windowEnds, Bool.and_eq_true, decide_eq_true_eq] at w
  obtain ⟨⟨fl, fh⟩, hm, hs⟩ := w
  simp only [lt, Bool.and_eq_true, Bool.not_eq_true', decide_eq_true_eq] at h
  obtain ⟨⟨-, u1⟩, -, u2⟩ := h
  rw [hs] at u2
  exact between_of_units fl fh u1.le (le_of_lt_next hm u2)

/-- The column of a time inside the window lies between the columns of the window's ends. -/
theorem column_of_window {lo hi d t : F64} {first bound : Int} (w : scanFits lo hi d first bound = true)
    (h : (lt lo t && lt t hi) = true) : first ≤ floor (scanPosition lo d t) ∧ floor (scanPosition lo d t) < bound := by
  simp only [scanFits, positionFinite, Bool.and_eq_true, decide_eq_true_eq] at w
  obtain ⟨⟨⟨⟨we, fd⟩, ⟨s1, q1⟩, p1⟩, ⟨s2, q2⟩, p2⟩, hd, ha, hb⟩ := w
  have b := between_of_window we h
  have fk : kWidth.isFinite = true ∧ 0 ≤ kWidth.units := by decide +kernel
  have c := ((b.sub (Between.self b.lo_finite) s1 s2).div_right fd hd q1 q2).mul_right fk.1 fk.2 p1 p2
  exact ⟨le_floor_iff.mpr ((le_floor_iff.mp ha).trans c.lo_le), floor_lt_iff.mpr (c.le_hi.trans_lt (floor_lt_iff.mp hb))⟩

/-- The two windows of R152 with the two scans of R153 and R154. -/
theorem luma_scanFits : scanFits tPorch (kLumaHi .binary64) tYScan 0 width = true := by decide +kernel
theorem chroma_scanFits : scanFits kUvLo kUvHi tUvScan 0 width = true := by decide +kernel

/-- The luma column of every time in the luma window is in range (R153). -/
theorem lumaColumn_inRange {t : F64} (h : inLumaWindow .binary64 t = true) : columnInRange (lumaColumn .binary64 t) = true :=
  columnInRange_iff.mpr (column_of_window luma_scanFits h)

/-- The chroma column of every time in the chroma window is in range (R154). -/
theorem chromaColumn_inRange {t : F64} (h : inChromaWindow .binary64 t = true) : columnInRange (chromaColumn .binary64 t) = true :=
  columnInRange_iff.mpr (column_of_window chroma_scanFits h)

/-- The two windows do not meet (R152). -/
theorem not_inLumaWindow {t : F64} (h : inChromaWindow .binary64 t = true) : inLumaWindow .binary64 t = false := by
  have b := between_of_window (show windowEnds kUvLo kUvHi = true by decide +kernel) h
  have fk : (kLumaHi .binary64).isFinite = true ∧ (kLumaHi .binary64).units ≤ kUvLo.units := by decide +kernel
  have hn : ¬lt t (kLumaHi .binary64) = true := by
    rw [lt_iff b.finite fk.1]
    exact not_lt_of_ge (fk.2.trans b.lo_le)
  exact Bool.and_eq_false_imp.mpr fun _ => Bool.eq_false_iff.mpr hn

end Sys2Proof.Machine
end

