-- ==== Sys2Proof/Laws/PerInstr.lean ====
section
/-! SUPPORT. The statements about every instruction as syntax, one lemma for each constructor. -/

namespace Sys2Proof.Laws

/-- 30_encoding R81, R84. The word of an instruction has RSVD 0, and its UNIT and FUNC select the instruction's own row. -/
def EncodedFields.Statement (i : Instr) : Prop :=
  wordRsvd (encode i) = 0 ∧ decodeFields (wordUnit (encode i)) (wordFunc (encode i)) = .ok i

theorem EncodedFields.decReset : EncodedFields.Statement .decReset := ⟨by decide, by decide⟩
theorem EncodedFields.decSetRate : EncodedFields.Statement .decSetRate := ⟨by decide, by decide⟩
theorem EncodedFields.decSample : EncodedFields.Statement .decSample := ⟨by decide, by decide⟩
theorem EncodedFields.encEncode : EncodedFields.Statement .encEncode := ⟨by decide, by decide⟩
theorem EncodedFields.encCancel : EncodedFields.Statement .encCancel := ⟨by decide, by decide⟩
theorem EncodedFields.cvtRgb2yuv : EncodedFields.Statement .cvtRgb2yuv := ⟨by decide, by decide⟩
theorem EncodedFields.cvtYuv2rgb : EncodedFields.Statement .cvtYuv2rgb := ⟨by decide, by decide⟩
theorem EncodedFields.cvtVal2freq : EncodedFields.Statement .cvtVal2freq := ⟨by decide, by decide⟩
theorem EncodedFields.cvtFreq2val : EncodedFields.Statement .cvtFreq2val := ⟨by decide, by decide⟩
theorem EncodedFields.wavSerialize : EncodedFields.Statement .wavSerialize := ⟨by decide, by decide⟩

end Sys2Proof.Laws
end

