-- ==== Sys2Proof/Laws/Step.lean ====
section
/-! SUPPORT. What a step can do, by the move at the head of the script; what every command leaves alone; and the canonical form of the
arrays, which every memory operation keeps. -/

namespace Sys2Proof.Machine

open Sys2Proof.F64

/-! ## The step, by the next move -/

theorem step_command {s : State} {c : Command} {rest : List HostMove} (h : s.script = .command c :: rest) :
    step s = runCommand (s.present c rest) := by unfold step; rw [h]

theorem step_encStep {s : State} {rest : List HostMove} (h : s.script = .encStep :: rest) :
    step s = encoderMove { s with script := rest } := by unfold step; rw [h]

theorem step_readEvent {s : State} {rest : List HostMove} (h : s.script = .readEvent :: rest) :
    step s = .next (hostReads { s with script := rest }) := by unfold step; rw [h]

theorem step_waitEncDone {s : State} {rest : List HostMove} (h : s.script = .waitEncDone :: rest) :
    step s = if waitOver s then .next { s with script := rest } else encoderMove s := by unfold step; rw [h]

theorem step_nil {s : State} (h : s.script = []) : step s = encoderMove s := by unfold step; rw [h]

theorem runCommand_ok {s : State} {i : Instr} (h : decode s.cmd.word = .ok i) : runCommand s = exec i s := by
  unfold runCommand; rw [h]

theorem runCommand_error {s : State} {x : DecodeError} (h : decode s.cmd.word = .error x) : runCommand s = illegalWord s := by
  unfold runCommand; rw [h]

/-- What a step can do, once: a command, the encoder's move, a read of the port, or the end of a wait. -/
theorem step_cases (s : State) :
    (∃ c rest i, s.script = .command c :: rest ∧ decode c.word = .ok i ∧ step s = exec i (s.present c rest))
    ∨ (∃ c rest x, s.script = .command c :: rest ∧ decode c.word = .error x ∧ step s = illegalWord (s.present c rest))
    ∨ (∃ rest, step s = encoderMove { s with script := rest })
    ∨ (∃ rest, s.script = .readEvent :: rest ∧ step s = .next (hostReads { s with script := rest }))
    ∨ (∃ rest, s.script = .waitEncDone :: rest ∧ waitOver s = true ∧ step s = .next { s with script := rest }) := by
  cases h : s.script with
  | nil => exact .inr (.inr (.inl ⟨[], by rw [step_nil h, ← h]⟩))
  | cons m rest =>
    cases m with
    | command c =>
      cases hd : decode c.word with
      | ok i => exact .inl ⟨c, rest, i, rfl, hd, by rw [step_command h]; exact runCommand_ok hd⟩
      | error x => exact .inr (.inl ⟨c, rest, x, rfl, hd, by rw [step_command h]; exact runCommand_error hd⟩)
    | encStep => exact .inr (.inr (.inl ⟨rest, step_encStep h⟩))
    | readEvent => exact .inr (.inr (.inr (.inl ⟨rest, rfl, step_readEvent h⟩)))
    | waitEncDone =>
      cases hw : waitOver s with
      | true => exact .inr (.inr (.inr (.inr ⟨rest, rfl, rfl, by rw [step_waitEncDone h, hw]; rfl⟩)))
      | false =>
        refine .inr (.inr (.inl ⟨.waitEncDone :: rest, ?_⟩))
        rw [step_waitEncDone h, hw, ← h]; rfl

/-! ## Runs -/

theorem hostRun_next {M : Host.Core} {k : Nat} {s t : M.State} (h : M.step s = .next t) : M.run (k + 1) s = M.run k t := by
  simp only [Host.Core.run, h]

theorem hostRun_succ {M : Host.Core} {k : Nat} {s t : M.State} (h : M.run (k + 1) s = .next t) :
    ∃ u, M.step s = .next u ∧ M.run k u = .next t := by
  rw [Host.Core.run] at h
  split at h
  · exact ⟨_, by assumption, h⟩
  · cases h
  · cases h

/-- A run whose first step answers u goes on from u. -/
theorem run_next {k : Nat} {s t : State} (h : step s = .next t) : Sys2Proof.core.run (k + 1) s = Sys2Proof.core.run k t :=
  hostRun_next (M := Sys2Proof.core) h

/-- A run of k + 1 steps that completes is a step and a run of k steps that completes. -/
theorem run_succ {k : Nat} {s t : State} (h : Sys2Proof.core.run (k + 1) s = .next t) :
    ∃ u, step s = .next u ∧ Sys2Proof.core.run k u = .next t := hostRun_succ (M := Sys2Proof.core) h

/-! ## What every command leaves alone -/

/-- The fields that no command writes. -/
def sameFixed (s t : State) : Prop := t.cfg = s.cfg ∧ t.script = s.script ∧ t.cmd = s.cmd

/-- An outcome that answers a next state answers one with the fields of s that no command writes. -/
def keepsFixed (s : State) (o : Host.Outcome State Fault Refusal) : Prop := ∀ t, o = .next t → sameFixed s t

theorem keepsFixed_next {s u : State} (h : sameFixed s u) : keepsFixed s (.next u) := fun _ e => Host.Outcome.next.inj e ▸ h

theorem keepsFixed_fault {s : State} (f : Fault) : keepsFixed s (.fault f) := fun _ e => nomatch e

theorem keepsFixed_ite {s : State} {c : Prop} [Decidable c] {o o' : Host.Outcome State Fault Refusal} (h : keepsFixed s o)
    (h' : keepsFixed s o') : keepsFixed s (if c then o else o') := by
  by_cases hc : c
  · rw [if_pos hc]; exact h
  · rw [if_neg hc]; exact h'

theorem sameFixed_respond (s : State) (fill : Response → Response) : sameFixed s (s.respond fill) := ⟨rfl, rfl, rfl⟩

theorem keepsFixed_refuse (s : State) (why : RefusalReason) : keepsFixed s (.next (s.refuse why)) :=
  keepsFixed_next (sameFixed_respond s id)

theorem keepsFixed_decSample (s : State) : keepsFixed s (execDecSample s) := by
  rcases execDecSample_cases s with ⟨-, he⟩ | ⟨_, -, -, he⟩ | ⟨_, d, es, -, -, -, he⟩ | ⟨_, f, -, -, -, he⟩ <;> rw [he]
  · exact keepsFixed_refuse s _
  · exact keepsFixed_refuse s _
  · exact keepsFixed_next (sameFixed_respond { s.emit es with dec := d } _)
  · exact keepsFixed_fault f

theorem keepsFixed_encEncode (s : State) : keepsFixed s (execEncEncode s) := by
  unfold execEncEncode
  refine keepsFixed_ite (keepsFixed_ite (keepsFixed_next (sameFixed_respond s _)) (keepsFixed_ite ?_
    (keepsFixed_next (sameFixed_respond s _)))) (keepsFixed_refuse s _)
  cases rasterCells (bulkRaster s.cmd.b0) with
  | none => exact keepsFixed_refuse s _
  | some raster =>
    exact keepsFixed_next (sameFixed_respond { s with enc := encodeStart s.cfg.num s.cmd.a0 raster s.enc, cancelled := false } _)

theorem keepsFixed_wavSerialize (s : State) : keepsFixed s (execWavSerialize s) := by
  rcases execWavSerialize_cases s with ⟨-, he⟩ | ⟨_, -, -, he⟩ | ⟨_, -, -, he⟩ | ⟨_, -, -, -, -, he⟩ | ⟨_, -, -, -, -, he⟩ <;>
    rw [he] <;> exact keepsFixed_next ⟨rfl, rfl, rfl⟩

/-- No command writes the configuration, the script or the command channel. -/
theorem exec_fixed {i : Instr} {s t : State} (h : exec i s = .next t) : sameFixed s t := by
  have admitted {c : Prop} [Decidable c] {u : State} {why : RefusalReason} (hu : sameFixed s u) :
      keepsFixed s (if c then .next u else .next (s.refuse why)) := keepsFixed_ite (keepsFixed_next hu) (keepsFixed_refuse s why)
  have kept : keepsFixed s (exec i s) := by
    cases i with
    | decReset => exact keepsFixed_next (sameFixed_respond { s with dec := _ } _)
    | encCancel => exact keepsFixed_next (sameFixed_respond { s with enc := _, cancelled := _ } _)
    | decSetRate => exact admitted (sameFixed_respond { s with dec := _ } _)
    | cvtRgb2yuv => exact admitted (sameFixed_respond s _)
    | cvtYuv2rgb => exact admitted (sameFixed_respond s _)
    | cvtVal2freq => exact admitted (sameFixed_respond s _)
    | cvtFreq2val => exact admitted (sameFixed_respond s _)
    | decSample => exact keepsFixed_decSample s
    | encEncode => exact keepsFixed_encEncode s
    | wavSerialize => exact keepsFixed_wavSerialize s
  exact kept t h

/-! ## The canonical form of the arrays -/

theorem Memory.wf_iff {m : Memory} :
    m.wf = true ↔ cellsWf F64.zero width (fun _ => true) 0 m.luma = true ∧ cellsWf F64.zero width (fun _ => true) 0 m.cr = true
      ∧ cellsWf F64.zero width (fun _ => true) 0 m.cb = true ∧ imgWf (fun _ => true) m.img = true := by
  unfold Memory.wf imgWf
  simp only [Bool.and_eq_true, and_assoc]

theorem Memory.wf_setLuma {m : Memory} {x : Nat} {v : F64} (hx : x < width) (h : m.wf = true) :
    Memory.wf { m with luma := cellsSet F64.zero m.luma x v } = true := by
  rw [Memory.wf_iff] at *
  exact ⟨cellsWf_set _ x v (Nat.zero_le _) hx (fun _ => rfl) h.1, h.2⟩

theorem Memory.wf_chromaSet {m : Memory} {line x : Nat} {v : F64} (hx : x < width) (h : m.wf = true) :
    (chromaSet m line x v).wf = true := by
  rw [Memory.wf_iff] at *
  unfold chromaSet
  split
  · exact ⟨h.1, cellsWf_set _ x v (Nat.zero_le _) hx (fun _ => rfl) h.2.1, h.2.2⟩
  · exact ⟨h.1, h.2.1, cellsWf_set _ x v (Nat.zero_le _) hx (fun _ => rfl) h.2.2.1, h.2.2.2⟩

theorem Memory.wf_setImg {m : Memory} {x y : Nat} {c : RGB} (hx : x < width) (hy : y < height) (h : m.wf = true) :
    Memory.wf { m with img := imgSet m.img x y c } = true := by
  rw [Memory.wf_iff] at *
  exact ⟨h.1, h.2.1, h.2.2.1, imgWf_set hx hy (fun _ => rfl) h.2.2.2⟩

/-- SCAN keeps the canonical form. -/
theorem Memory.wf_scan {cfg : Config} {t freq : F64} {line : Nat} {m m' : Memory} {es : List Event}
    (h : scanMemory cfg t freq line m = .ok (m', es)) (hw : m.wf = true) : m'.wf = true := by
  rcases scanMemory_cases h with ⟨-, hr, he⟩ | ⟨-, -, hr, hl, he⟩ | ⟨he, -⟩ <;> cases he
  · exact Memory.wf_setLuma (columnInRange_toNat hr) hw
  · rw [← chromaSet_img m line (chromaColumn cfg.num t).toNat (freq2val cfg.num freq)]
    exact Memory.wf_setImg (columnInRange_toNat hr) hl (Memory.wf_chromaSet (columnInRange_toNat hr) hw)
  · exact hw

theorem lineEnd_mem (N : NumDomain) (sr : F64) (d : Decoder) : (lineEnd N sr d).1.mem = d.mem := by
  rcases lineEnd_cases N sr d with ⟨-, -, h⟩ | ⟨-, -, h⟩ | ⟨-, -, h⟩ | ⟨-, -, h⟩ <;> rw [h] <;> rfl

theorem armWait_mem (d : Decoder) : (armWait d).1.mem = d.mem := by
  unfold armWait; split <;> rfl

/-- A sample tick keeps the canonical form. -/
theorem Memory.wf_sampleTick {cfg : Config} {sr raw : F64} {d d' : Decoder} {es : List Event}
    (h : sampleTick cfg sr raw d = .ok (d', es)) (hw : d.mem.wf = true) : d'.mem.wf = true := by
  rcases sampleTick_cases h with ⟨-, he⟩ | ⟨-, he⟩ | ⟨-, m, es', hm, he⟩
  · cases he; rw [armSearch_mem, est_mem]; exact hw
  · rw [show d' = (armWait (est cfg.num sr raw d)).1 from congrArg Prod.fst he, armWait_mem, est_mem]; exact hw
  · rw [show d' = (lineEnd cfg.num sr { countLine (est cfg.num sr raw d) with mem := m }).1 from congrArg Prod.fst he, lineEnd_mem]
    exact Memory.wf_scan hm hw

/-- DEC_RESET keeps the canonical form. -/
theorem Memory.wf_decoderReset (k : Bool) (d : Decoder) (hw : d.mem.wf = true) : (decoderReset k d).mem.wf = true := by
  rw [decoderReset_mem]
  cases k
  · rfl
  · rw [Memory.wf_iff] at *; exact ⟨hw.1, hw.2.1, hw.2.2.1, rfl⟩

/-! ## The raster of ENC_ENCODE -/

/-- What an element-wise conversion can do. -/
theorem convertAll_some_iff {α β : Type} {f : α → Option β} {l : List α} {r : List β} :
    convertAll f l = some r ↔ List.Forall₂ (fun a b => f a = some b) l r := by
  induction l generalizing r with
  | nil => simp [convertAll, eq_comm]
  | cons a rest ih =>
    cases hf : f a with
    | none =>
      simp only [convertAll, hf]
      constructor
      · intro h; cases h
      · intro h; cases h with | cons h1 _ => rw [hf] at h1; cases h1
    | some b =>
      cases hr : convertAll f rest with
      | none =>
        simp only [convertAll, hf, hr]
        constructor
        · intro h; cases h
        · intro h; cases h with | cons _ h2 => rw [ih.mpr h2] at hr; cases hr
      | some bs =>
        simp only [convertAll, hf, hr, Option.some.injEq]
        constructor
        · intro h; subst h; exact .cons hf (ih.mp hr)
        · intro h
          cases h with
          | cons h1 h2 =>
            rw [hf] at h1
            have := ih.mpr h2
            rw [hr] at this
            cases h1; cases this; rfl

theorem pixelOf_le {c : RGB} {p : Pixel} (h : pixelOf c = some p) : p.r ≤ 255 ∧ p.g ≤ 255 ∧ p.b ≤ 255 := by
  have hb : ∀ {v : F64} {n : Nat}, byteComponent v = some n → n ≤ 255 := by
    intro v n hn
    unfold byteComponent at hn
    split at hn
    · split at hn
      · cases hn; assumption
      · cases hn
    · cases hn
  unfold pixelOf at h
  split at h
  · rename_i r g b hr hg hbb
    cases h; exact ⟨hb hr, hb hg, hb hbb⟩
  · cases h

/-- An accepted raster is in canonical form with every component in 0..255 (10_state R36). -/
theorem rasterCells_wf {rows : List (List RGB)} {raster : Cells (Cells Pixel)} (hs : rasterShape rows = true)
    (h : rasterCells rows = some raster) : rasterWf raster = true := by
  unfold rasterCells at h
  cases hc : convertAll (convertAll pixelOf) rows with
  | none => rw [hc] at h; cases h
  | some pixels =>
    rw [hc] at h; cases h
    rw [convertAll_some_iff] at hc
    simp only [rasterShape, Bool.and_eq_true, decide_eq_true_eq, List.all_eq_true] at hs
    unfold rasterWf
    refine cellsWf_ofList _ (by rw [List.length_map, ← hc.length_eq, hs.1]; exact le_of_eq (Nat.zero_add _)) ?_
    intro row hrow hne
    clear hne
    rw [List.mem_map] at hrow
    obtain ⟨ps, hps, rfl⟩ := hrow
    obtain ⟨src, hsrc, hconv⟩ : ∃ src ∈ rows, convertAll pixelOf src = some ps := by
      clear hs
      induction hc with
      | nil => simp at hps
      | cons h1 _ ih =>
        rcases List.mem_cons.mp hps with rfl | hmem
        · exact ⟨_, by simp, h1⟩
        · obtain ⟨src, hm, he⟩ := ih hmem; exact ⟨src, by simp [hm], he⟩
    rw [convertAll_some_iff] at hconv
    refine cellsWf_ofList _ (by rw [← hconv.length_eq, hs.2 src hsrc]; exact le_of_eq (Nat.zero_add _)) ?_
    intro p hp _
    obtain ⟨c, -, hcp⟩ : ∃ c ∈ src, pixelOf c = some p := by
      clear hs hsrc hps
      induction hconv with
      | nil => simp at hp
      | cons h1 _ ih =>
        rcases List.mem_cons.mp hp with rfl | hmem
        · exact ⟨_, by simp, h1⟩
        · obtain ⟨c, hm, he⟩ := ih hmem; exact ⟨c, by simp [hm], he⟩
    have := pixelOf_le hcp
    simp [this.1, this.2.1, this.2.2]

end Sys2Proof.Machine
end

