-- ==== Sys2Proof/Tests/Slice0.lean ====
section
/-! SUPPORT. Small tests. The expected results come from the spec (each test's comment says where), and every statement with hypotheses
has a witness here: a state and operands that meet them together. -/

namespace Sys2Proof.Tests

open Sys2Proof Sys2Proof.Machine

-- The theorems of this file are checked one after another: each kernel evaluation that waits for another would hold a thread.
set_option Elab.async false

/-! ## Helpers -/

/-- The state an outcome answers with; reset where it does not answer a next state. -/
def nextOf (o : Host.Outcome State Fault Refusal) : State :=
  match o with
  | .next t => t
  | .fault _ => State.reset
  | .refused _ => State.reset

def isNext (o : Host.Outcome State Fault Refusal) : Bool :=
  match o with
  | .next _ => true
  | .fault _ => false
  | .refused _ => false

theorem eq_nextOf {o : Host.Outcome State Fault Refusal} (h : isNext o = true) : o = .next (nextOf o) := by
  cases o <;> first | rfl | cases h

/-- A command on the channel, with scalar operands or a bulk one. -/
def call (i : Instr) (a0 a1 a2 : F64) (b0 : Bulk) : Command := { word := encode i, a0 := a0, a1 := a1, a2 := a2, b0 := b0 }

/-- The state reset with this command on the channel. -/
def given (c : Command) : State := { State.reset with cmd := c }

/-- What exec makes of a command from the state s. -/
def after (i : Instr) (s : State) : State := nextOf (exec i s)

/-- A decoder at 48 kHz with this state, line counter, line, frequency and streak. -/
def decoderAt (st : SyncState) (sls line : Nat) (freq : F64) (streak : Nat) : Decoder :=
  { Decoder.reset with
    sr := some (F64.decimal 48000 0)
    syncState := st
    samplesSinceLineStart := sls
    currentLine := line
    currentFreq := freq
    syncStreak := streak }

/-- A DEC_SAMPLE of this sample at this decoder. -/
def sampleAt (d : Decoder) (raw : F64) : State := { given (call .decSample raw F64.zero F64.zero .none) with dec := d }

/-- A busy encoder at 48 kHz in segment k with n samples to come, of the all-black raster. -/
def encoderAt (k n : Nat) : Encoder :=
  { Encoder.reset with busy := true, sr := F64.decimal 48000 0, segIndex := k, segRemaining := n }

/-- An encoder step of this encoder. -/
def encoderTurn (e : Encoder) : State := { State.reset with enc := e, script := [.encStep] }

/-- The raster of n rows of m triples c. -/
def flat (n m : Nat) (c : RGB) : List (List RGB) := List.replicate n (List.replicate m c)

/-! ## Well-formedness: an ill-formed term for each check, which the check refuses -/

theorem test_wf_encode_needs_raster : Command.wellFormed .encEncode (call .encEncode F64.one F64.zero F64.zero (.samples [])) = false := by
  decide +kernel
theorem test_wf_encode_takes_raster : Command.wellFormed .encEncode (call .encEncode F64.one F64.zero F64.zero (.raster [])) = true := by
  decide +kernel
theorem test_wf_wav_needs_samples : Command.wellFormed .wavSerialize (call .wavSerialize F64.one F64.zero F64.zero (.raster [])) = false := by
  decide +kernel
theorem test_wf_wav_needs_bulk : Command.wellFormed .wavSerialize (call .wavSerialize F64.one F64.zero F64.zero .none) = false := by
  decide +kernel
/-- A progress period of 0, an amplitude above 1, a rate interval that starts below 1 and a domain other than binary64 are refused. -/
theorem test_cfg_period : configOk { Config.standard with progressPeriod := 0 } = false := by decide +kernel
theorem test_cfg_amp : configOk { Config.standard with amp := F64.decimal 2 0 } = false := by decide +kernel
theorem test_cfg_rates : configOk { Config.standard with srAdmit := [(F64.decimal 5 1, F64.decimal 8000 0)] } = false := by decide +kernel
theorem test_cfg_num : configOk { Config.standard with num := .implementation 0 } = false := by decide +kernel
theorem test_cfg_standard : configOk Config.standard = true := by decide +kernel
/-- A list of cells out of order, past the bound, with a default entry, or with a value out of range is refused. -/
theorem test_cells_order : cellsWf 0 320 (fun _ => true) 0 [(3, 1), (2, 1)] = false := by decide
theorem test_cells_bound : cellsWf 0 320 (fun _ => true) 0 [(320, 1)] = false := by decide
theorem test_cells_default : cellsWf 0 320 (fun _ => true) 0 [(3, 0)] = false := by decide
theorem test_cells_value : cellsWf F64.zero 320 byteRange 0 [(3, F64.decimal 256 0)] = false := by decide +kernel

/-! ## Decoding: every command's word written out from 30_encoding R81 and R84, UNIT ++ FUNC ++ RSVD -/

theorem test_word_decReset : decode 0b0001_0000_000000000000000000000000#32 = .ok .decReset := by decide
theorem test_word_decSetRate : decode 0b0001_0001_000000000000000000000000#32 = .ok .decSetRate := by decide
theorem test_word_decSample : decode 0b0001_0010_000000000000000000000000#32 = .ok .decSample := by decide
theorem test_word_encEncode : decode 0b0010_0000_000000000000000000000000#32 = .ok .encEncode := by decide
theorem test_word_encCancel : decode 0b0010_0001_000000000000000000000000#32 = .ok .encCancel := by decide
theorem test_word_cvtRgb2yuv : decode 0b0011_0000_000000000000000000000000#32 = .ok .cvtRgb2yuv := by decide
theorem test_word_cvtYuv2rgb : decode 0b0011_0001_000000000000000000000000#32 = .ok .cvtYuv2rgb := by decide
theorem test_word_cvtVal2freq : decode 0b0011_0010_000000000000000000000000#32 = .ok .cvtVal2freq := by decide
theorem test_word_cvtFreq2val : decode 0b0011_0011_000000000000000000000000#32 = .ok .cvtFreq2val := by decide
theorem test_word_wavSerialize : decode 0b0100_0000_000000000000000000000000#32 = .ok .wavSerialize := by decide

/-- 95_test_vectors V11: the illegal words, each rejected for the reason the table gives. -/
theorem test_illegal_words :
    decode 0x00000000#32 = .error (.reservedUnit 0) ∧ decode 0x12000001#32 = .error (.reservedBits 1)
    ∧ decode 0x12800000#32 = .error (.reservedBits 0x800000) ∧ decode 0x13000000#32 = .error (.reservedFunc 1 3)
    ∧ decode 0x22000000#32 = .error (.reservedFunc 2 2) ∧ decode 0x34000000#32 = .error (.reservedFunc 3 4)
    ∧ decode 0x41000000#32 = .error (.reservedFunc 4 1) ∧ decode 0x50000000#32 = .error (.reservedUnit 5)
    ∧ decode 0xFFFFFFFF#32 = .error (.reservedBits 0xFFFFFF) := by decide

/-! ## Constants with the bits the spec prints -/

/-- 00_scope R11: 0.16. 10_state R45: the luma window's upper bound. 43 R174: INC(1900) at 48 kHz. 44 R192: the pixel durations. -/
theorem test_constants :
    F64.decimal 16 2 = ⟨0x3FC47AE147AE147B#64⟩ ∧ kLumaHi .binary64 = ⟨0x3FB74BC6A7EF9DB2#64⟩
    ∧ phaseIncrement .binary64 (F64.decimal 48000 0) fLeader = F64.decimal 24870941840919197 17
    ∧ segmentDur .binary64 (.yScan 0 0) = F64.decimal 27499999999999996 20
    ∧ segmentDur .binary64 (.uvScan 0 0) = F64.decimal 13749999999999998 20 := by decide +kernel

/-- 00_scope R12: the subnormal fixed point of dcOffset under silence, -9 units, and the previousValue of +9 units there. -/
theorem test_subnormal_fixed_point :
    dcBlockOffset .binary64 F64.zero ⟨0x8000000000000009#64⟩ = ⟨0x8000000000000009#64⟩
    ∧ F64.sub F64.zero ⟨0x8000000000000009#64⟩ = ⟨0x0000000000000009#64⟩ := by decide +kernel

/-! ## The commands -/

/-- 41 R140, worked example: in Scanning with currentLine = 120. -/
theorem test_decReset :
    let t := after .decReset (sampleAt (decoderAt .scanning 5 120 (F64.decimal 1900 0) 0) F64.zero)
    t.dec.syncState = .searchingSync ∧ t.dec.currentLine = 0 ∧ t.dec.sr = some (F64.decimal 48000 0) := by decide +kernel

/-- 41 R131, worked example; 95 P1 gives the bits of 48000.0. -/
theorem test_decSetRate :
    (after .decSetRate (given (call .decSetRate ⟨0x40E7700000000000#64⟩ F64.zero F64.zero .none))).dec.sr
      = some (F64.decimal 48000 0) := by decide +kernel

/-- 41 R120, worked example: from reset at 48 kHz, DEC_SAMPLE 1.0. -/
theorem test_decSample :
    let t := after .decSample (sampleAt (decoderAt .searchingSync 0 0 F64.zero 0) F64.one)
    t.dec = { decoderAt .searchingSync 0 0 F64.zero 0 with dcOffset := F64.decimal 5 2, previousValue := F64.decimal 95 2 } := by
  decide +kernel

/-- 41 R127, worked example: currentLine = 239 and the counter becoming 7681 at 48 kHz. -/
theorem test_decSample_watchdog :
    let t := after .decSample (sampleAt (decoderAt .scanning 7680 239 F64.zero 0) F64.zero)
    t.events = [.frameComplete []] ∧ t.dec.currentLine = 0 ∧ t.dec.syncState = .searchingSync := by decide +kernel

/-- 44 R190, R253: a raster with no rows is CONFIG_DIMENSION, status 0x02. -/
theorem test_encEncode_dimension :
    let t := after .encEncode (given (call .encEncode (F64.decimal 48000 0) F64.zero F64.zero (.raster [])))
    t.enc.busy = false ∧ t.resp.map (fun r => r.status) = some 0x02#8 := by decide +kernel

/-- 44 R190, worked example: SEQ = (0, 14400) at 48 kHz. -/
theorem test_encodeStart :
    let e := encodeStart .binary64 (F64.decimal 48000 0) [] Encoder.reset
    e.busy = true ∧ e.segIndex = 0 ∧ e.segRemaining = 14400 := by decide +kernel

/-- 44 R198: a cancelled encode leaves no buffer and no event. -/
theorem test_encCancel :
    let t := after .encCancel { given (call .encCancel F64.zero F64.zero F64.zero .none) with enc := { encoderAt 7 3 with outRev := [F64.one] } }
    t.enc.busy = false ∧ t.enc.out = [] ∧ t.events = [] := by decide +kernel

/-- The defined result slots of a command from reset. -/
def results (i : Instr) (a0 a1 a2 : F64) : Option (F64 × F64 × F64) :=
  (after i (given (call i a0 a1 a2 .none))).resp.map fun r => (r.q0, r.q1, r.q2)

/-- 45 R214, worked example: (255, 0, 0). -/
theorem test_cvtRgb2yuv :
    results .cvtRgb2yuv (F64.decimal 255 0) F64.zero F64.zero
      = some (F64.decimal 81481 3, F64.decimal 90203 3, F64.decimal 240 0) := by decide +kernel

/-- 45 R215, worked example: back from (81.481, 90.203, 240). -/
theorem test_cvtYuv2rgb :
    results .cvtYuv2rgb (F64.decimal 81481 3) (F64.decimal 90203 3) (F64.decimal 240 0)
      = some (F64.decimal 238505 3, F64.decimal 14515168000000003 15, F64.decimal 14504716000000002 15) := by decide +kernel

/-- 45 R216, worked example: 128. -/
theorem test_cvtVal2freq :
    (results .cvtVal2freq (F64.decimal 128 0) F64.zero F64.zero).map (fun q => q.1) = some (F64.decimal 19015686274509803 13) := by
  decide +kernel

/-- 45 R217, worked example: back from 1901.5686274509803. -/
theorem test_cvtFreq2val :
    (results .cvtFreq2val (F64.decimal 19015686274509803 13) F64.zero F64.zero).map (fun q => q.1)
      = some (F64.decimal 12799999999999997 14) := by decide +kernel

/-- 95 V8.1: the five samples and the whole file. -/
theorem test_wavSerialize :
    (after .wavSerialize (given (call .wavSerialize (F64.decimal 8000 0) F64.zero F64.zero
        (.samples [F64.zero, F64.decimal 5 1, F64.neg (F64.decimal 5 1), F64.one, F64.neg F64.one])))).resp.map (fun r => r.bq)
      = some [0x52, 0x49, 0x46, 0x46, 0x2e, 0x00, 0x00, 0x00, 0x57, 0x41, 0x56, 0x45, 0x66, 0x6d, 0x74, 0x20,
          0x10, 0x00, 0x00, 0x00, 0x01, 0x00, 0x01, 0x00, 0x40, 0x1f, 0x00, 0x00, 0x80, 0x3e, 0x00, 0x00,
          0x02, 0x00, 0x10, 0x00, 0x64, 0x61, 0x74, 0x61, 0x0a, 0x00, 0x00, 0x00, 0x00, 0x00, 0xff, 0x3f,
          0x00, 0xc0, 0xff, 0x7f, 0x00, 0x80] := by decide +kernel

/-- 43 R174, worked example: the second and third samples of the 1900 Hz tone at 48 kHz. -/
theorem test_oscillator :
    let e1 := encoderAt 0 14400
    let s1 := nextOf (step (encoderTurn e1))
    let s2 := nextOf (step (encoderTurn s1.enc))
    let s3 := nextOf (step (encoderTurn s2.enc))
    s3.enc.out = [F64.zero, F64.decimal 24615329302899305 17, F64.decimal 4771587602596084 16] := by decide +kernel

/-! ## Witnesses: command words and the host's moves -/

/-- A host command at the head of the script. -/
def scripted (w : CmdWord) : State :=
  { State.reset with script := [.command { word := w, a0 := F64.one, a1 := F64.zero, a2 := F64.zero, b0 := .none }] }

theorem witness_StepRunsTheDecodedCommand :
    ∃ c rest i, (scripted 0x12000000#32).script = .command c :: rest ∧ decode c.word = .ok i := ⟨_, _, .decSample, rfl, by decide⟩

theorem witness_EveryWord_legal : ∃ c rest, (scripted 0x40000000#32).script = .command c :: rest ∧ c.word = encode .wavSerialize :=
  ⟨_, _, rfl, by decide⟩

theorem witness_EveryWord_illegal : ∃ c rest, (scripted 0x40000001#32).script = .command c :: rest ∧ ∀ i, c.word ≠ encode i :=
  ⟨_, _, rfl, by intro i; cases i <;> decide⟩

/-- One state for each kind of move: a read of an empty port, an encoder step while idle and while busy, a wait that an ENC_DONE or an
ENC_CANCEL ends, one that blocks an idle machine, and the end of the script. -/
theorem witness_MovesThatTakeNoCommand :
    (∃ s : State, s.script = [.readEvent] ∧ s.events = [])
    ∧ (∃ s : State, s.script = [.encStep] ∧ s.enc.busy = false)
    ∧ (∃ (s : State) (e : Encoder) (es : List Event), s.enc.busy = true ∧ encStep s.cfg s.enc = .ok (e, es))
    ∧ (∃ s : State, s.script = [.waitEncDone] ∧ (∃ buf, .encDone buf ∈ s.events) ∧ s.cancelled = false)
    ∧ (∃ s : State, s.script = [.waitEncDone] ∧ s.cancelled = true)
    ∧ (∃ s : State, s.script = [.waitEncDone] ∧ ¬((∃ buf, .encDone buf ∈ s.events) ∨ s.cancelled = true) ∧ s.enc.busy = false)
    ∧ ∃ s : State, s.script = [] :=
  ⟨⟨{ State.reset with script := [.readEvent] }, rfl, rfl⟩, ⟨{ State.reset with script := [.encStep] }, rfl, rfl⟩,
    ⟨{ State.reset with enc := encoderAt 3 0 }, _, _, rfl, rfl⟩,
    ⟨{ State.reset with script := [.waitEncDone], events := [.encDone []] }, rfl, ⟨[], List.mem_singleton.mpr rfl⟩, rfl⟩,
    ⟨{ State.reset with script := [.waitEncDone], cancelled := true }, rfl, rfl⟩,
    ⟨{ State.reset with script := [.waitEncDone] }, rfl, (by rintro (⟨buf, h⟩ | h) <;> cases h), rfl⟩, ⟨State.reset, rfl⟩⟩

/-- 30 R87: a wait with no ENC_DONE and no ENC_CANCEL blocks the host, whose next command is not taken. -/
theorem test_wait_blocks :
    let s : State := { scripted 0x10000000#32 with script := .waitEncDone :: (scripted 0x10000000#32).script }
    step s = .next s := rfl

/-- 30 R87, 44 R198: the status of an ENC_CANCEL that found an encode ends a wait; that of one on an idle encoder does not. -/
theorem test_wait_cancel :
    waitOver (after .encCancel { State.reset with enc := encoderAt 7 3 }) = true ∧ waitOver (after .encCancel State.reset) = false :=
  ⟨rfl, rfl⟩

/-- A read of a port with two records. -/
theorem witness_EventPort_read :
    ∃ s t : State, step s = .next t ∧ s.script = [.readEvent] ∧ s.events = [.lineStart 1, .lineStart 2] ∧ t.events = [.lineStart 2] :=
  ⟨{ State.reset with script := [.readEvent], events := [.lineStart 1, .lineStart 2] }, _, rfl, rfl, rfl, rfl⟩

/-- A read of an empty port. -/
theorem witness_EventPort_empty : ∃ s t : State, step s = .next t ∧ s.script = [.readEvent] ∧ s.events = [] ∧ t.events = [] :=
  ⟨{ State.reset with script := [.readEvent] }, _, rfl, rfl, rfl, rfl⟩

theorem witness_EventPort_append : ∃ s t : State, step s = .next t ∧ (∀ rest, s.script ≠ .readEvent :: rest) :=
  ⟨State.reset, _, rfl, by intro rest h; cases h⟩

/-! ## Witnesses: resets and rates -/

theorem witness_DecReset_buffers :
    State.reset.cfg.resetKeepsBuffers = false
    ∧ ({ State.reset with cfg := { Config.standard with resetKeepsBuffers := true } } : State).cfg.resetKeepsBuffers = true := ⟨rfl, rfl⟩

/-- The ends of the default SR_ADMIT are admitted, their outer neighbours are not. -/
theorem witness_DecSetRate :
    srAdmitted Config.standard F64.one = true ∧ srAdmitted Config.standard kRateMax = true
    ∧ srAdmitted Config.standard ⟨0x3FEFFFFFFFFFFFFF#64⟩ = false ∧ srAdmitted Config.standard ⟨0x41F0000000000001#64⟩ = false := by
  decide +kernel

theorem witness_DecSetRate_same : ∃ s : State, srAdmitted s.cfg s.cmd.a0 = true ∧ s.dec.sr = some s.cmd.a0 :=
  ⟨sampleAt (decoderAt .searchingSync 0 0 F64.zero 0) (F64.decimal 48000 0), by decide +kernel, rfl⟩

/-! ## Witnesses: sample ticks -/

/-- A tick at 48 kHz that answers. -/
theorem tick48 (d : Decoder) (raw : F64) (hd : d.sr = some (F64.decimal 48000 0)) (hr : unitSample raw = true)
    (h : isNext (exec .decSample (sampleAt d raw)) = true) :
    tickOf (F64.decimal 48000 0) (sampleAt d raw) (after .decSample (sampleAt d raw)) := ⟨hd, hr, eq_nextOf h⟩

/-- The two ends of the sample domain, on the last line. -/
theorem witness_DecSampleCompletes :
    ∃ (s : State) (sr : F64), s.dec.sr = some sr ∧ unitSample s.cmd.a0 = true ∧ s.cmd.a0 = F64.neg F64.one ∧ s.dec.currentLine < 240 :=
  ⟨sampleAt (decoderAt .scanning 5 239 F64.zero 0) (F64.neg F64.one), F64.decimal 48000 0, rfl, by decide +kernel, rfl, by decide⟩

/-- A rising crossing with the shortest accepted period of 11, and one with the rejected period of 10. -/
def crossingAt (n : Nat) : State := sampleAt { decoderAt .searchingSync 0 0 (F64.decimal 1200 0) 4 with samplesSinceCrossing := n } F64.one

theorem witness_Estimator :
    (∃ sr t, tickOf sr (crossingAt 10) t ∧ t.dec.currentFreq ≠ F64.decimal 1200 0)
    ∧ ∃ sr t, tickOf sr (crossingAt 9) t ∧ t.dec.currentFreq = F64.decimal 1200 0 :=
  ⟨⟨_, _, tick48 _ _ rfl (by decide +kernel) (by decide +kernel), by decide +kernel⟩,
    ⟨_, _, tick48 _ _ rfl (by decide +kernel) (by decide +kernel), by decide +kernel⟩⟩

theorem witness_SmoothedFrequencyIsBounded :
    ∃ s t sr, tickOf sr s t ∧ s.cfg.num = .binary64 ∧ F64.within F64.one kRateMax sr = true
      ∧ F64.within F64.zero kRateMax s.dec.currentFreq = true :=
  ⟨crossingAt 10, _, _, tick48 _ _ rfl (by decide +kernel) (by decide +kernel), rfl, by decide +kernel, by decide +kernel⟩

/-- dcOffset at the end of its range. -/
theorem witness_DcOffset :
    ∃ s t : State, step s = .next t ∧ s.cfg.num = .binary64 ∧ s.dec.dcOffset = F64.neg F64.one
      ∧ F64.within (F64.neg F64.one) F64.one s.dec.dcOffset = true :=
  ⟨{ scripted 0x12000000#32 with dec := { decoderAt .searchingSync 0 0 F64.zero 0 with dcOffset := F64.neg F64.one } }, _,
    eq_nextOf (by decide +kernel), rfl, rfl, by decide +kernel⟩

/-- The step of a scripted DEC_SAMPLE 1.0 at this decoder. -/
def scriptedTick (d : Decoder) : State := { scripted 0x12000000#32 with dec := d }

/-- One step for each transition of R121. -/
theorem witness_SyncTransitions :
    (nextOf (step (scriptedTick (decoderAt .searchingSync 0 0 (F64.decimal 1200 0) 4)))).dec.syncState = .waitSyncEnd
    ∧ (nextOf (step (scriptedTick (decoderAt .waitSyncEnd 0 0 (F64.decimal 1350 0) 9)))).dec.syncState = .scanning
    ∧ (nextOf (step (scriptedTick (decoderAt .scanning 7680 3 F64.zero 0)))).dec.syncState = .searchingSync
    ∧ (nextOf (step (scriptedTick (decoderAt .scanning 6720 3 (F64.decimal 1200 0) 9)))).dec.syncState = .waitSyncEnd
    ∧ isNext (step (scriptedTick (decoderAt .scanning 6720 3 (F64.decimal 1200 0) 9))) = true
    ∧ isNext (step { scripted 0x10000000#32 with dec := decoderAt .scanning 5 3 F64.zero 0 }) = true := by decide +kernel

/-- At the boundary: a streak that becomes 4, and one that becomes 5. -/
theorem witness_SearchArm :
    (∃ t, tickOf (F64.decimal 48000 0) (sampleAt (decoderAt .searchingSync 0 0 (F64.decimal 1200 0) 3) F64.zero) t ∧ t.dec.syncStreak = 4)
    ∧ ∃ t, tickOf (F64.decimal 48000 0) (sampleAt (decoderAt .searchingSync 0 0 (F64.decimal 1200 0) 4) F64.zero) t
      ∧ t.dec.syncStreak = 5 :=
  ⟨⟨_, tick48 _ _ rfl (by decide +kernel) (by decide +kernel), by decide +kernel⟩,
    ⟨_, tick48 _ _ rfl (by decide +kernel) (by decide +kernel), by decide +kernel⟩⟩

/-- At the boundary: a streak that becomes 1, and one that becomes 2. -/
theorem witness_WaitArm :
    (∃ t, tickOf (F64.decimal 48000 0) (sampleAt (decoderAt .waitSyncEnd 0 7 (F64.decimal 1200 0) 0) F64.zero) t
      ∧ t.events = [.lineStart 7])
    ∧ ∃ t, tickOf (F64.decimal 48000 0) (sampleAt (decoderAt .waitSyncEnd 0 7 (F64.decimal 1200 0) 1) F64.zero) t ∧ t.events = [] :=
  ⟨⟨_, tick48 _ _ rfl (by decide +kernel) (by decide +kernel), by decide +kernel⟩,
    ⟨_, tick48 _ _ rfl (by decide +kernel) (by decide +kernel), by decide +kernel⟩⟩

/-- What a tick in Scanning at this counter and line makes: the state, the line and the number of records. -/
def scanned (sls line streak : Nat) : SyncState × Nat × Nat :=
  let t := after .decSample (sampleAt (decoderAt .scanning sls line (F64.decimal 1200 0) streak) F64.zero)
  (t.dec.syncState, t.dec.currentLine, t.events.length)

/-- The ends of the windows of R127 and R128 at 48 kHz: 7681 and 7680, 6721 and 6720, and the last line. -/
theorem witness_ScanArm :
    scanned 7680 5 9 = (.searchingSync, 6, 0) ∧ scanned 7680 239 9 = (.searchingSync, 0, 1)
    ∧ scanned 7679 239 9 = (.waitSyncEnd, 0, 0) ∧ scanned 6720 5 9 = (.waitSyncEnd, 6, 1)
    ∧ scanned 6719 5 9 = (.scanning, 5, 1) ∧ scanned 6800 5 3 = (.scanning, 5, 0) := by decide +kernel

theorem witness_ScanArm_tick :
    ∃ s t, tickOf (F64.decimal 48000 0) s t ∧ s.dec.syncState = .scanning :=
  ⟨_, _, tick48 (decoderAt .scanning 7680 239 F64.zero 0) F64.zero rfl (by decide +kernel) (by decide +kernel), rfl⟩

/-- Silence, out of the band and in it, in both idle states. -/
theorem witness_Silence :
    (∃ s t, tickOf (F64.decimal 48000 0) s t ∧ (F64.lt F64.zero t.dec.previousValue && F64.le s.dec.previousValue F64.zero) = false
      ∧ inBand s.cfg.num s.dec.currentFreq = false ∧ s.dec.syncState = .searchingSync)
    ∧ (∃ s t, tickOf (F64.decimal 48000 0) s t ∧ (F64.lt F64.zero t.dec.previousValue && F64.le s.dec.previousValue F64.zero) = false
      ∧ inBand s.cfg.num s.dec.currentFreq = false ∧ s.dec.syncState = .waitSyncEnd)
    ∧ ∃ s t, tickOf (F64.decimal 48000 0) s t ∧ (F64.lt F64.zero t.dec.previousValue && F64.le s.dec.previousValue F64.zero) = false
      ∧ inBand s.cfg.num s.dec.currentFreq = true ∧ s.dec.syncState = .waitSyncEnd ∧ 1 ≤ s.dec.syncStreak :=
  ⟨⟨_, _, tick48 (decoderAt .searchingSync 0 0 (F64.decimal 1300 0) 0) F64.zero rfl (by decide +kernel) (by decide +kernel),
      by decide +kernel, by decide +kernel, rfl⟩,
    ⟨_, _, tick48 (decoderAt .waitSyncEnd 0 0 (F64.decimal 1100 0) 9) F64.zero rfl (by decide +kernel) (by decide +kernel),
      by decide +kernel, by decide +kernel, rfl⟩,
    ⟨_, _, tick48 (decoderAt .waitSyncEnd 0 0 (F64.decimal 1200 0) 1) F64.zero rfl (by decide +kernel) (by decide +kernel),
      by decide +kernel, by decide +kernel, rfl, by decide⟩⟩

theorem witness_FrameComplete :
    ∃ s t : State, ∃ es img, step s = .next t ∧ t.events = s.events ++ es ∧ Event.frameComplete img ∈ es :=
  ⟨scriptedTick (decoderAt .scanning 7680 239 F64.zero 0), _, [.frameComplete []], [], eq_nextOf (by decide +kernel),
    by decide +kernel, by simp⟩

theorem witness_TickEmits :
    ∃ s t sr, tickOf sr s t ∧ s.cfg.num = .binary64 ∧ F64.within F64.one kRateMax sr = true ∧ t.events.length = 1 :=
  ⟨_, _, _, tick48 (decoderAt .scanning 7680 239 F64.zero 0) F64.zero rfl (by decide +kernel) (by decide +kernel), rfl, by decide +kernel,
    by decide +kernel⟩

/-! ## Witnesses: the windows of SCAN -/

theorem zero_unit : unitSample F64.zero = true := by decide +kernel

/-- The counter after a tick is n. -/
def scanTickAt (n line : Nat) : State := sampleAt (decoderAt .scanning (n - 1) line (F64.decimal 1900 0) 0) F64.zero

theorem scanTick (n line : Nat) (h : isNext (exec .decSample (scanTickAt n line)) = true) :
    tickOf (F64.decimal 48000 0) (scanTickAt n line) (after .decSample (scanTickAt n line)) := ⟨rfl, zero_unit, eq_nextOf h⟩

/-- The hypotheses of the three statements about the windows, at the counter n, 48 kHz and the default domain. -/
def inLuma (n : Nat) : Bool :=
  let τ := F64.div (F64.ofNat n) (F64.decimal 48000 0)
  F64.lt (F64.decimal 3 3) τ && F64.lt τ (F64.add (F64.decimal 3 3) (F64.decimal 88 3))
def inChroma (n : Nat) : Bool :=
  let τ := F64.div (F64.ofNat n) (F64.decimal 48000 0)
  F64.lt (F64.decimal 97 3) τ && F64.lt τ (F64.decimal 141 3)

/-- The ends of the windows at 48 kHz, as 42 R152 lists them. -/
theorem test_windows :
    inLuma 144 = false ∧ inLuma 145 = true ∧ inLuma 4367 = true ∧ inLuma 4368 = false
    ∧ inChroma 4656 = false ∧ inChroma 4657 = true ∧ inChroma 6767 = true ∧ inChroma 6768 = false := by decide +kernel

/-- The first and the last tick of the luma window. -/
theorem witness_LumaWindow :
    (∃ s t, tickOf (F64.decimal 48000 0) s t ∧ s.dec.syncState = .scanning ∧ Memory.wf s.dec.mem = true
      ∧ s.dec.samplesSinceLineStart + 1 = 145 ∧ inLuma 145 = true)
    ∧ ∃ s t, tickOf (F64.decimal 48000 0) s t ∧ s.dec.syncState = .scanning ∧ Memory.wf s.dec.mem = true
      ∧ s.dec.samplesSinceLineStart + 1 = 4367 ∧ inLuma 4367 = true :=
  ⟨⟨_, _, scanTick 145 0 (by decide +kernel), rfl, rfl, rfl, by decide +kernel⟩,
    ⟨_, _, scanTick 4367 0 (by decide +kernel), rfl, rfl, rfl, by decide +kernel⟩⟩

/-- The first and the last tick of the chroma window, on an even and on an odd line. -/
theorem witness_ChromaWindow :
    (∃ s t, tickOf (F64.decimal 48000 0) s t ∧ s.dec.syncState = .scanning ∧ Memory.wf s.dec.mem = true
      ∧ s.dec.samplesSinceLineStart + 1 = 4657 ∧ s.dec.currentLine = 4)
    ∧ (∃ s t, tickOf (F64.decimal 48000 0) s t ∧ s.dec.syncState = .scanning ∧ Memory.wf s.dec.mem = true
      ∧ s.dec.samplesSinceLineStart + 1 = 6767 ∧ s.dec.currentLine = 239)
    ∧ inLuma 4657 = false ∧ inChroma 4657 = true ∧ inLuma 6767 = false ∧ inChroma 6767 = true
    ∧ chromaColumn .binary64 (lineTime .binary64 (F64.decimal 48000 0) 4657) = 0 ∧ chromaColumn .binary64 (lineTime .binary64 (F64.decimal 48000 0) 6767) = 319 :=
  ⟨⟨_, _, scanTick 4657 4 (by decide +kernel), rfl, rfl, rfl, rfl⟩, ⟨_, _, scanTick 6767 239 (by decide +kernel), rfl, rfl, rfl, rfl⟩,
    by decide +kernel, by decide +kernel, by decide +kernel, by decide +kernel, by decide +kernel, by decide +kernel⟩

/-- The porch, the separator and the end of the line. -/
theorem witness_OutsideTheWindows :
    (∃ s t, tickOf (F64.decimal 48000 0) s t ∧ s.dec.syncState = .scanning ∧ s.dec.samplesSinceLineStart + 1 = 4368)
    ∧ inLuma 4368 = false ∧ inChroma 4368 = false ∧ inLuma 6768 = false ∧ inChroma 6768 = false :=
  ⟨⟨_, _, scanTick 4368 0 (by decide +kernel), rfl, rfl⟩, by decide +kernel, by decide +kernel, by decide +kernel, by decide +kernel⟩

/-- 42 R158: a tie to the even integer on either side, and the ends of the range. -/
theorem witness_Quantisation :
    (pixelRange ⟨F64.decimal 25 1, F64.decimal 35 1, F64.decimal 255 0⟩ = true
      ∧ quantise .binary64 .roundToByte ⟨F64.decimal 25 1, F64.decimal 35 1, F64.decimal 255 0⟩
          = ⟨F64.decimal 2 0, F64.decimal 4 0, F64.decimal 255 0⟩)
    ∧ pixelRange ⟨F64.zero, F64.neg F64.zero, F64.decimal 2546 1⟩ = true := by decide +kernel

/-- A tick that writes a pixel keeps the form of a memory that has one. -/
theorem witness_StepKeepsTheMemoryForm :
    ∃ s t : State, step s = .next t ∧ Memory.wf s.dec.mem = true ∧ t.dec.mem ≠ s.dec.mem :=
  ⟨scriptedTick (decoderAt .scanning 4656 4 (F64.decimal 1900 0) 0), _, eq_nextOf (by decide +kernel), rfl, by decide +kernel⟩

/-! ## Witnesses: the invariant -/

/-- A decoder in the middle of its last line, with the counter at the watchdog's threshold, and an encoder at its first sample. -/
def running : State := { State.reset with dec := decoderAt .scanning 7680 239 (F64.decimal 1900 0) 0, enc := encoderAt 0 14400 }

theorem running_inv : Inv running where
  cfg := by decide +kernel
  dec :=
    { line := by decide
      rate := by intro sr h; cases h; decide +kernel
      dc := by decide +kernel
      previous := by decide +kernel
      freq := by decide +kernel
      mem := ⟨rfl, rfl, rfl, rfl⟩ }
  enc :=
    { idle := by intro h; cases h
      segment := fun _ => by decide
      rate := fun _ => by decide +kernel
      raster := fun _ => rfl
      count := fun _ => rfl
      samples := by intro _ v hv; cases hv
      phase := fun _ => by decide +kernel }

theorem running_counter : lineCounterOk running.cfg.num running.dec := by
  intro sr h _; cases h; decide +kernel

/-- For the statements over steps from the invariant, and for the completion of an encode. -/
theorem witness_Inv : ∃ s t : State, Inv s ∧ step s = .next t ∧ s.script = [] ∧ s.enc.busy = true :=
  ⟨running, _, running_inv, eq_nextOf (by decide +kernel), rfl, rfl⟩

/-- An encode in progress with a wait and a read still to come. -/
theorem witness_EveryEncodeCompletes :
    ∃ s : State, Inv s ∧ s.script ≠ [] ∧ (∀ m ∈ s.script, isCommand m = false) ∧ runEnded s = false :=
  ⟨{ running with script := [.waitEncDone, .readEvent] }, ⟨running_inv.cfg, running_inv.dec, running_inv.enc⟩, by simp,
    by decide +kernel, rfl⟩

theorem witness_LineCounter :
    ∃ s t : State, Inv s ∧ step s = .next t ∧ t.dec.sr = s.dec.sr ∧ lineCounterOk s.cfg.num s.dec ∧ s.dec.syncState = .scanning :=
  ⟨running, _, running_inv, eq_nextOf (by decide +kernel), by decide +kernel, running_counter, rfl⟩

/-- One sample takes the counter from 7680, its largest value at 48 kHz, past the threshold. -/
theorem witness_ScanningEnds :
    ∃ (s : State) (sr : F64) (raws : List F64) (rest : List HostMove), Inv s ∧ lineCounterOk s.cfg.num s.dec ∧ s.dec.sr = some sr
      ∧ s.dec.syncState = .scanning ∧ s.script = sampleMoves raws ++ rest ∧ (∀ raw ∈ raws, unitSample raw = true)
      ∧ lastLineSample s.cfg.num sr + 1 ≤ (s.dec.samplesSinceLineStart + raws.length : Nat) :=
  ⟨{ running with script := sampleMoves [F64.one] }, F64.decimal 48000 0, [F64.one], [],
    ⟨running_inv.cfg, running_inv.dec, running_inv.enc⟩, running_counter, rfl, rfl, rfl,
    by intro raw h; rw [List.mem_singleton.mp h]; decide +kernel, by decide +kernel⟩

/-! ## Witnesses: refusals and statuses -/

/-- Just outside each domain of 60 R258, and a NaN. -/
theorem witness_RefusedOperands :
    unitSample ⟨0x3FF0000000000001#64⟩ = false ∧ unitSample ⟨0xBFF0000000000001#64⟩ = false ∧ unitSample F64.nan = false
    ∧ cvtOperand ⟨0x40F0000000000001#64⟩ = false ∧ cvtOperand F64.nan = false
    ∧ wavRate F64.zero = none ∧ wavRate (F64.decimal 5 1) = none ∧ wavRate (F64.decimal 2147483648 0) = none
    ∧ wavRate (F64.decimal 2147483647 0) = some 2147483647 ∧ wavRate F64.one = some 1 := by decide +kernel

/-- The shortest buffer that is too long. -/
theorem too_long :
    ∃ (s : State) (n : Nat) (l : List F64), wavRate s.cmd.a0 = some n ∧ s.cmd.b0 = .samples l ∧ 2147483629 < l.length := by
  have h : ∀ m : Nat, ∃ l : List F64, l.length = m := fun m => ⟨List.replicate m F64.zero, List.length_replicate⟩
  obtain ⟨l, hl⟩ := h 2147483630
  have hr : wavRate F64.one = some 1 := by decide +kernel
  exact ⟨given (call .wavSerialize F64.one F64.zero F64.zero (.samples l)), 1, l, hr, rfl, by omega⟩

/-- A state for each clause; ENC_ENCODE's raster clause is witnessed by witness_EncEncode_refused. -/
theorem witness_RefusedOperands_states :
    (∃ s : State, srAdmitted s.cfg s.cmd.a0 = false)
    ∧ (∃ s : State, s.dec.sr = none)
    ∧ (∃ (s : State) (sr : F64), s.dec.sr = some sr ∧ unitSample s.cmd.a0 = false)
    ∧ (∃ s : State, (cvtOperand s.cmd.a0 && cvtOperand s.cmd.a1 && cvtOperand s.cmd.a2) = false)
    ∧ (∃ s : State, cvtOperand s.cmd.a0 = false)
    ∧ (∃ s : State, wavRate s.cmd.a0 = none)
    ∧ (∃ (s : State) (n : Nat) (l : List F64), wavRate s.cmd.a0 = some n ∧ s.cmd.b0 = .samples l ∧ 2147483629 < l.length)
    ∧ ∃ (s : State) (n : Nat) (l : List F64), wavRate s.cmd.a0 = some n ∧ s.cmd.b0 = .samples l ∧ l.length ≤ 2147483629
      ∧ ∃ v ∈ l, unitSample v = false :=
  ⟨⟨State.reset, by decide +kernel⟩, ⟨State.reset, rfl⟩,
    ⟨sampleAt (decoderAt .searchingSync 0 0 F64.zero 0) (F64.decimal 2 0), _, rfl, by decide +kernel⟩,
    ⟨given (call .cvtRgb2yuv F64.zero F64.zero F64.nan .none), by decide +kernel⟩,
    ⟨given (call .cvtVal2freq F64.nan F64.zero F64.zero .none), by decide +kernel⟩,
    ⟨given (call .wavSerialize F64.zero F64.zero F64.zero .none), by decide +kernel⟩,
    too_long,
    ⟨given (call .wavSerialize F64.one F64.zero F64.zero (.samples [F64.decimal 2 0])), 1, _, by decide +kernel, rfl, by decide,
      _, List.mem_singleton.mpr rfl, by decide +kernel⟩⟩

/-- A step from a marked state, and one that sets the mark. -/
theorem witness_RefusedMark :
    (∃ s t : State, step s = .next t ∧ s.refused = some .refRate)
    ∧ ∃ s t : State, step s = .next t ∧ t.refused ≠ s.refused :=
  ⟨⟨{ State.reset with refused := some .refRate }, _, rfl, rfl⟩,
    ⟨scripted 0x12000000#32, _, eq_nextOf (by decide +kernel), by decide +kernel⟩⟩

theorem witness_OnlyOk :
    ∃ (i : Instr) (s t : State), exec i s = .next t ∧ ¬(t.dec = s.dec ∧ t.enc = s.enc ∧ t.events = s.events) :=
  ⟨.decReset, { running with enc := Encoder.reset }, _, rfl, by decide +kernel⟩

/-- A command of each agent, the encoder's own step, and two states that share one agent only. -/
theorem witness_AgentsShareNoState :
    (∃ s t : State, exec .decReset s = .next t ∧ t.dec ≠ s.dec) ∧ (∃ s t : State, exec .encCancel s = .next t ∧ t.enc ≠ s.enc)
    ∧ (∃ s t : State, encoderMove s = .next t ∧ t.enc ≠ s.enc)
    ∧ ∃ s s' : State, s'.cfg = s.cfg ∧ s'.cmd = s.cmd ∧ s'.dec = s.dec ∧ s'.enc ≠ s.enc ∧ isNext (exec .decReset s) = true
      ∧ isNext (exec .decReset s') = true ∧ ∃ u t : State, u.cfg = s.cfg ∧ u.enc = s.enc ∧ u.dec ≠ s.dec ∧ encoderMove s = .next t :=
  ⟨⟨running, _, rfl, by decide +kernel⟩, ⟨running, _, rfl, by decide +kernel⟩, ⟨running, _, eq_nextOf (by decide +kernel), by decide +kernel⟩,
    ⟨running, { running with enc := Encoder.reset }, rfl, rfl, rfl, by decide +kernel, rfl, rfl,
      { running with dec := Decoder.reset }, _, rfl, rfl, by decide +kernel, eq_nextOf (by decide +kernel)⟩⟩

/-- A schedule of a command, an encoder step and a command, and its commands alone. -/
def scheduled : State := { running with script := sampleMoves [F64.one] ++ [.encStep] ++ sampleMoves [F64.zero] }
def unscheduled : State := { scheduled with script := scheduled.script.filter isCommand }

/-- The outcome of a run, in the model's own types. -/
def runOf (k : Nat) (s : State) : Host.Outcome State Fault Refusal := Sys2Proof.core.run k s

theorem runOf_next (k : Nat) (s : State) (h : isNext (runOf k s) = true) : ∃ t, Sys2Proof.core.run k s = .next t := ⟨_, eq_nextOf h⟩

theorem witness_Schedule :
    (∀ m ∈ scheduled.script, isCommand m = true ∨ m = .encStep) ∧ scheduled.enc.busy = true
    ∧ (∃ t, Sys2Proof.core.run scheduled.script.length scheduled = .next t)
    ∧ ∃ t, Sys2Proof.core.run (scheduled.script.filter isCommand).length unscheduled = .next t :=
  ⟨by decide +kernel, rfl, runOf_next _ _ (by decide +kernel), runOf_next _ _ (by decide +kernel)⟩

/-! ## Witnesses: the encoder's commands -/

theorem flat_shape (n m : Nat) (c : RGB) : (flat n m c).length = n ∧ ∀ row ∈ flat n m c, row.length = m :=
  ⟨List.length_replicate, fun row h => by rw [List.eq_of_mem_replicate h, List.length_replicate]⟩

theorem flat_bytes {n m : Nat} {c : RGB} (hc : ∀ v ∈ [c.r, c.g, c.b], byteComponent v ≠ none) :
    ∀ row ∈ flat n m c, ∀ c ∈ row, ∀ v ∈ [c.r, c.g, c.b], byteComponent v ≠ none := by
  intro row hr c' hc'
  rw [List.eq_of_mem_replicate hr] at hc'
  rw [List.eq_of_mem_replicate hc']
  exact hc

theorem flat_not_bytes {n m : Nat} {c : RGB} (hc : byteComponent c.r = none) :
    ¬∀ row ∈ flat (n + 1) (m + 1) c, ∀ c ∈ row, ∀ v ∈ [c.r, c.g, c.b], byteComponent v ≠ none := fun h =>
  h (List.replicate (m + 1) c) (by simp [flat]) c (by simp) c.r (by simp) hc

/-- An ENC_ENCODE of this raster at this rate by this encoder. -/
def encodeOf (rows : List (List RGB)) (sr : F64) (e : Encoder) : State :=
  { given (call .encEncode sr F64.zero F64.zero (.raster rows)) with enc := e }

theorem encodeOf_rate (rows : List (List RGB)) (sr : F64) (e : Encoder) (h : srAdmitted Config.standard sr = true) :
    srAdmitted (encodeOf rows sr e).cfg (encodeOf rows sr e).cmd.a0 = true := h
theorem encodeOf_no_rate (rows : List (List RGB)) (sr : F64) (e : Encoder) (h : srAdmitted Config.standard sr = false) :
    srAdmitted (encodeOf rows sr e).cfg (encodeOf rows sr e).cmd.a0 = false := h

theorem one_admitted : srAdmitted Config.standard F64.one = true := by decide +kernel
theorem zero_not_admitted : srAdmitted Config.standard F64.zero = false := by decide +kernel

/-- One state for each clause; 256 is the first component that is no byte, 255 the last that is. -/
theorem witness_EncEncode (rows : List (List RGB)) :
    (∃ s : State, s.cmd.b0 = .raster rows ∧ srAdmitted s.cfg s.cmd.a0 = false)
    ∧ (∃ s : State, s.cmd.b0 = .raster rows ∧ srAdmitted s.cfg s.cmd.a0 = true ∧ s.enc.busy = true)
    ∧ ∃ s : State, s.cmd.b0 = .raster rows ∧ srAdmitted s.cfg s.cmd.a0 = true ∧ s.enc.busy = false :=
  ⟨⟨encodeOf rows F64.zero Encoder.reset, rfl, encodeOf_no_rate _ _ _ zero_not_admitted⟩,
    ⟨encodeOf rows F64.one (encoderAt 0 14400), rfl, encodeOf_rate _ _ _ one_admitted, rfl⟩,
    ⟨encodeOf rows F64.one Encoder.reset, rfl, encodeOf_rate _ _ _ one_admitted, rfl⟩⟩

/-- The rasters of the last three clauses: rows and columns swapped, a component 256, and every component 255. -/
theorem witness_EncEncode_rasters :
    (∃ rows : List (List RGB), ¬(rows.length = 240 ∧ ∀ row ∈ rows, row.length = 320))
    ∧ (∃ rows : List (List RGB), (rows.length = 240 ∧ ∀ row ∈ rows, row.length = 320)
      ∧ ¬∀ row ∈ rows, ∀ c ∈ row, ∀ v ∈ [c.r, c.g, c.b], byteComponent v ≠ none)
    ∧ ∃ rows : List (List RGB), (rows.length = 240 ∧ ∀ row ∈ rows, row.length = 320)
      ∧ ∀ row ∈ rows, ∀ c ∈ row, ∀ v ∈ [c.r, c.g, c.b], byteComponent v ≠ none := by
  have h256 : byteComponent (F64.decimal 256 0) = none := by decide +kernel
  have h255 : byteComponent (F64.decimal 255 0) ≠ none := by decide +kernel
  refine ⟨⟨flat 320 240 black, fun h => ?_⟩,
    ⟨flat 240 320 ⟨F64.decimal 256 0, F64.zero, F64.zero⟩, flat_shape _ _ _, flat_not_bytes (n := 239) (m := 319) h256⟩,
    ⟨flat 240 320 ⟨F64.decimal 255 0, F64.decimal 255 0, F64.decimal 255 0⟩, flat_shape _ _ _, flat_bytes ?_⟩⟩
  · rw [(flat_shape 320 240 black).1] at h; exact absurd h.1 (by decide)
  · intro v hv; simp at hv; rw [hv]; exact h255

/-- The hypotheses of the last three clauses of EncEncodeResult, each met by one state and raster. -/
theorem witness_EncEncode_states :
    (∃ (s : State) (rows : List (List RGB)), (s.cmd.b0 = .raster rows ∧ srAdmitted s.cfg s.cmd.a0 = true ∧ s.enc.busy = false)
      ∧ ¬(rows.length = 240 ∧ ∀ row ∈ rows, row.length = 320))
    ∧ (∃ (s : State) (rows : List (List RGB)), (s.cmd.b0 = .raster rows ∧ srAdmitted s.cfg s.cmd.a0 = true ∧ s.enc.busy = false)
      ∧ (rows.length = 240 ∧ ∀ row ∈ rows, row.length = 320)
      ∧ ¬∀ row ∈ rows, ∀ c ∈ row, ∀ v ∈ [c.r, c.g, c.b], byteComponent v ≠ none)
    ∧ ∃ (s : State) (rows : List (List RGB)), (s.cmd.b0 = .raster rows ∧ srAdmitted s.cfg s.cmd.a0 = true ∧ s.enc.busy = false)
      ∧ (rows.length = 240 ∧ ∀ row ∈ rows, row.length = 320)
      ∧ ∀ row ∈ rows, ∀ c ∈ row, ∀ v ∈ [c.r, c.g, c.b], byteComponent v ≠ none := by
  obtain ⟨⟨r1, h1⟩, ⟨r2, h2⟩, r3, h3⟩ := witness_EncEncode_rasters
  obtain ⟨-, -, s1, e1⟩ := witness_EncEncode r1
  obtain ⟨-, -, s2, e2⟩ := witness_EncEncode r2
  obtain ⟨-, -, s3, e3⟩ := witness_EncEncode r3
  exact ⟨⟨s1, r1, e1, h1⟩, ⟨s2, r2, e2, h2⟩, s3, r3, e3, h3⟩

/-- The hypotheses of RefusedOperands' clause on rasters. -/
theorem witness_EncEncode_refused :
    ∃ (s : State) (rows : List (List RGB)), s.cmd.b0 = .raster rows ∧ srAdmitted s.cfg s.cmd.a0 = true ∧ s.enc.busy = false
      ∧ (rows.length = 240 ∧ ∀ row ∈ rows, row.length = 320)
      ∧ ∃ row ∈ rows, ∃ c ∈ row, ∃ v ∈ [c.r, c.g, c.b], byteComponent v = none := by
  obtain ⟨-, ⟨s, rows, h, hs, hb⟩, -⟩ := witness_EncEncode_states
  simp only [not_forall, not_not] at hb
  obtain ⟨row, hr, c, hc, v, hv, hn⟩ := hb
  exact ⟨s, rows, h.1, h.2.1, h.2.2, hs, row, hr, c, hc, v, hv, hn⟩

theorem witness_EncCancel : running.enc.busy = true ∧ State.reset.enc.busy = false := ⟨rfl, rfl⟩

/-! ## Witnesses: the encoder's steps -/

/-- A row of the table that exists. -/
theorem row_exists {raster : Cells (Cells Pixel)} {k : Nat} {g : Segment} (h : segmentAt k = some g) :
    ∃ d f, segmentRow .binary64 raster k = .ok (d, f) := by
  obtain ⟨f, hf⟩ := segmentFreq_ok .binary64 raster (segmentAt_inRaster h)
  exact ⟨_, _, by simp only [segmentRow, fetchSegment_ok_iff.mpr h, hf, bind, Except.bind]; rfl⟩

/-- A segment with two samples left, its last sample, and the last sample of all. -/
theorem witness_EncoderStepEmits :
    (∃ (s t : State) (d f : F64), s.enc.busy = true ∧ segmentRow s.cfg.num s.enc.raster s.enc.segIndex = .ok (d, f) ∧ s.enc.segRemaining = 2
      ∧ encoderMove s = .next t)
    ∧ (∃ (s t : State) (d f : F64), s.enc.busy = true ∧ segmentRow s.cfg.num s.enc.raster s.enc.segIndex = .ok (d, f) ∧ s.enc.segRemaining = 1
      ∧ encoderMove s = .next t ∧ t.enc.busy = true)
    ∧ ∃ (s t : State) (d f : F64), s.enc.busy = true ∧ segmentRow s.cfg.num s.enc.raster s.enc.segIndex = .ok (d, f) ∧ s.enc.segRemaining = 1
      ∧ encoderMove s = .next t ∧ t.enc.busy = false := by
  obtain ⟨d, f, h⟩ := row_exists (raster := []) (show segmentAt 154563 = some (.uvScan 239 319) by decide +kernel)
  exact ⟨⟨encoderTurn (encoderAt 0 2), _, _, _, rfl, rfl, rfl, eq_nextOf (by decide +kernel)⟩,
    ⟨encoderTurn (encoderAt 0 1), _, _, _, rfl, rfl, rfl, eq_nextOf (by decide +kernel), by decide +kernel⟩,
    ⟨encoderTurn (encoderAt 154563 1), _, d, f, rfl, h, rfl, eq_nextOf (by decide +kernel), by decide +kernel⟩⟩

/-- The last sample of a segment, a segment without samples, and the last segment. -/
theorem witness_EncoderStepEnds :
    (∃ (s t : State) (d f : F64), s.enc.busy = true ∧ segmentRow s.cfg.num s.enc.raster s.enc.segIndex = .ok (d, f) ∧ s.enc.segRemaining = 1
      ∧ encoderMove s = .next t)
    ∧ (∃ (s t : State) (d f : F64), s.enc.busy = true ∧ segmentRow s.cfg.num s.enc.raster s.enc.segIndex = .ok (d, f) ∧ s.enc.segRemaining = 0
      ∧ encoderMove s = .next t)
    ∧ ∃ (s t : State) (d f : F64), s.enc.busy = true ∧ segmentRow s.cfg.num s.enc.raster s.enc.segIndex = .ok (d, f) ∧ s.enc.segRemaining ≤ 1
      ∧ s.enc.segIndex + 1 = 154564 ∧ encoderMove s = .next t := by
  obtain ⟨d, f, h⟩ := row_exists (raster := []) (show segmentAt 154563 = some (.uvScan 239 319) by decide +kernel)
  exact ⟨⟨encoderTurn (encoderAt 0 1), _, _, _, rfl, rfl, rfl, eq_nextOf (by decide +kernel)⟩,
    ⟨encoderTurn (encoderAt 3 0), _, _, _, rfl, rfl, rfl, eq_nextOf (by decide +kernel)⟩,
    ⟨encoderTurn (encoderAt 154563 1), _, d, f, rfl, h, by decide, rfl, eq_nextOf (by decide +kernel)⟩⟩

/-- Just below TWO_PI, at it, and two turns. -/
theorem witness_Wrap :
    wrapPhase .binary64 ⟨0x401921FB54442D17#64⟩ = .ok ⟨0x401921FB54442D17#64⟩ ∧ wrapPhase .binary64 twoPi = .ok F64.zero
    ∧ wrapPhase .binary64 (F64.add twoPi twoPi) = .ok F64.zero :=
  ⟨wrapPhase_ok_iff.mpr (by decide +kernel), wrapPhase_ok_iff.mpr (by decide +kernel), wrapPhase_ok_iff.mpr (by decide +kernel)⟩

theorem witness_OscillatorSample :
    Config.standard.num = .binary64 ∧ F64.within (F64.neg F64.one) F64.one Config.standard.amp = true
    ∧ F64.within (F64.neg F64.one) F64.one ({ Config.standard with amp := F64.neg F64.one } : Config).amp = true := by
  decide +kernel

/-- The step into line 0's SYNC, and the one into line 1's, which emits nothing. -/
theorem witness_Progress :
    (∃ s t : State, encoderMove s = .next t ∧ t.events = s.events ++ [.progress 0 240])
    ∧ ∃ s t : State, encoderMove s = .next t ∧ t.events = s.events ++ [] ∧ t.enc.segIndex = 648 :=
  ⟨⟨encoderTurn (encoderAt 3 1), _, eq_nextOf (by decide +kernel), by decide +kernel⟩,
    ⟨encoderTurn (encoderAt 647 1), _, eq_nextOf (by decide +kernel), by decide +kernel, by decide +kernel⟩⟩

/-! ## Witnesses: the waveform of the all-black raster -/

theorem black_freqs : F64.within (F64.decimal 1000 0) (F64.decimal 2400 0) (lumaFreq .binary64 blackPixel) = true
    ∧ F64.within (F64.decimal 1000 0) (F64.decimal 2400 0) (chromaFreq .binary64 0 blackPixel) = true
    ∧ F64.within (F64.decimal 1000 0) (F64.decimal 2400 0) (chromaFreq .binary64 1 blackPixel) = true := by decide +kernel

theorem tones : ∀ f ∈ [fLeader, fSync, fPorch, fSep, fPorchUv], F64.within (F64.decimal 1000 0) (F64.decimal 2400 0) f = true := by
  decide +kernel

theorem range_finite : (F64.decimal 1000 0).isFinite = true ∧ (F64.decimal 2400 0).isFinite = true := by decide +kernel

theorem black_segmentFreq (g : Segment) (f : F64) (h : segmentFreq .binary64 [] g = .ok f) :
    F64.Between (F64.decimal 1000 0) (F64.decimal 2400 0) f := by
  apply F64.between_of_within range_finite.1 range_finite.2
  have pix : ∀ x y p, readRaster [] x y = .ok p → p = blackPixel := fun x y p hp => (readRaster_ok_iff.mp hp).2.2
  cases g with
  | yScan line x =>
    simp only [segmentFreq, bind, Except.bind] at h
    cases hp : readRaster [] x line with
    | error e => rw [hp] at h; cases h
    | ok p => rw [hp, pix _ _ _ hp] at h; rw [← Except.ok.inj h]; exact black_freqs.1
  | uvScan line x =>
    simp only [segmentFreq, bind, Except.bind] at h
    cases hp : readRaster [] x line with
    | error e => rw [hp] at h; cases h
    | ok p =>
      rw [hp, pix _ _ _ hp] at h
      rw [← Except.ok.inj h]
      by_cases hl : line % 2 = 0
      · rw [show chromaFreq .binary64 line blackPixel = chromaFreq .binary64 0 blackPixel by unfold chromaFreq; rw [if_pos hl, if_pos rfl]]; exact black_freqs.2.1
      · rw [show chromaFreq .binary64 line blackPixel = chromaFreq .binary64 1 blackPixel by unfold chromaFreq; rw [if_neg hl, if_neg (by decide)]]
        exact black_freqs.2.2
  | leader1 => rw [← Except.ok.inj h]; exact tones _ (by simp)
  | headerBreak => rw [← Except.ok.inj h]; exact tones _ (by simp)
  | leader2 => rw [← Except.ok.inj h]; exact tones _ (by simp)
  | headerStart => rw [← Except.ok.inj h]; exact tones _ (by simp)
  | sync line => rw [← Except.ok.inj h]; exact tones _ (by simp)
  | porch line => rw [← Except.ok.inj h]; exact tones _ (by simp)
  | sep line => rw [← Except.ok.inj h]; exact tones _ (by simp)
  | porchUv line => rw [← Except.ok.inj h]; exact tones _ (by simp)

theorem rate48 : F64.within F64.one kRateMax (F64.decimal 48000 0) = true := by decide +kernel

theorem rate48_between : F64.Between F64.one kRateMax (F64.decimal 48000 0) :=
  F64.between_of_within F64.isFinite_one (by decide +kernel) rate48

/-- The points of the waveform at 48 kHz exist, up to the start of the last segment and past it. -/
theorem witness_SegmentCounts :
    ∃ w, waveFrom Config.standard [] (F64.decimal 48000 0) 154563 0 waveStart = .ok w ∧ segmentAt 154563 = some (.uvScan 239 319)
      ∧ phaseInTurn w.phase := by
  obtain ⟨w, h, hp⟩ := waveFrom_ok (cfg := Config.standard) rfl (raster := []) rate48_between black_segmentFreq 154563 (k := 0) (by decide)
    (w := waveStart) phaseInTurn_zero
  exact ⟨w, h, by decide +kernel, hp⟩

theorem witness_SampleCount :
    Config.standard.num = .binary64 ∧ F64.within F64.one kRateMax (F64.decimal 48000 0) = true ∧ rasterWf [] = true
    ∧ ∃ w, waveFrom Config.standard [] (F64.decimal 48000 0) (154563 + 1) 0 waveStart = .ok w := by
  obtain ⟨w, h, -⟩ := waveFrom_ok (cfg := Config.standard) rfl (raster := []) rate48_between black_segmentFreq (154563 + 1) (k := 0) (by decide)
    (w := waveStart) phaseInTurn_zero
  exact ⟨rfl, rate48, rfl, w, h⟩

/-- The start of an encode lies on the waveform. -/
theorem witness_OnWave : ∃ s t : State, step s = .next t ∧ s.enc.busy = true ∧ OnWave s.cfg s.enc :=
  ⟨running, _, eq_nextOf (by decide +kernel), rfl, waveStart, waveStart, 0, .leader1, rfl, rfl, by decide +kernel, rfl, rfl, rfl, rfl, rfl⟩

/-- The state and the events of a busy encoder's step. -/
theorem busy_step {s : State} {e : Encoder} {es : List Event} (hs : s.script = [.encStep]) (hb : s.enc.busy = true)
    (h : encStep s.cfg s.enc = .ok (e, es)) : ∃ t, step s = .next t ∧ t.events = s.events ++ es := by
  rw [step_encStep hs]
  unfold encoderMove
  rw [if_pos hb, h]
  exact ⟨_, rfl, rfl⟩

/-- An encoder that has emitted every sample and stands before COMPLETE lies on the waveform, and its step emits ENC_DONE. -/
theorem witness_EncDone :
    ∃ (s t : State) (es : List Event) (buf : List F64), step s = .next t ∧ s.enc.busy = true ∧ OnWave s.cfg s.enc
      ∧ t.events = s.events ++ es ∧ .encDone buf ∈ es := by
  obtain ⟨w, h, hseg, hp⟩ := witness_SegmentCounts
  obtain ⟨f, hf⟩ := segmentFreq_ok .binary64 [] (segmentAt_inRaster hseg)
  obtain ⟨w', hw', -⟩ := waveSamples_ok (cfg := Config.standard) rfl rate48_between (black_segmentFreq _ _ hf)
    (waveCount .binary64 (F64.decimal 48000 0) (segmentDur .binary64 (.uvScan 239 319)) w) hp
  have hpart : ∃ w'', wavePart Config.standard [] (F64.decimal 48000 0) (.uvScan 239 319)
      (waveCount .binary64 (F64.decimal 48000 0) (segmentDur .binary64 (.uvScan 239 319)) w) w = .ok w'' := by
    unfold wavePart
    split
    · exact ⟨w, rfl⟩
    · exact ⟨w', by simp only [bind, Except.bind, show Config.standard.num = .binary64 from rfl, hf, hw']⟩
  obtain ⟨w'', hw''⟩ := hpart
  let e : Encoder := { encoderAt 154563 0 with
    sampleIndex := w''.sampleIndex, phase := w''.phase, elapsed := w''.elapsed, outRev := w''.samples.reverse }
  have hstep : encStep Config.standard e = .ok (complete { e with elapsed := F64.add e.elapsed (segmentDur .binary64 (.uvScan 239 319)) }) := by
    unfold encStep
    rw [show fetchSegment e.segIndex = .ok (.uvScan 239 319) from fetchSegment_ok_iff.mpr hseg]
    rfl
  have hout : (({ e with elapsed := F64.add e.elapsed (segmentDur .binary64 (.uvScan 239 319)) } : Encoder)).out = w''.samples := by
    unfold Encoder.out; exact List.reverse_reverse _
  obtain ⟨t, ht, hev⟩ := busy_step (s := encoderTurn e) rfl rfl hstep
  refine ⟨encoderTurn e, t, _, w''.samples, ht, rfl, ?_, hev, ?_⟩
  · exact ⟨w, w'', _, .uvScan 239 319, h, hseg, rfl, hw'', rfl, rfl, rfl, by unfold Encoder.out; exact List.reverse_reverse _⟩
  · exact List.mem_singleton.mpr (congrArg Event.encDone hout.symm)

/-! ## Witnesses: the converter and the container -/

/-- The ends of the CVT domain, on one state. -/
theorem witness_Cvt :
    ∃ s : State, cvtOperand s.cmd.a0 = true ∧ cvtOperand s.cmd.a1 = true ∧ cvtOperand s.cmd.a2 = true :=
  ⟨given (call .cvtRgb2yuv (F64.decimal 65536 0) (F64.neg (F64.decimal 65536 0)) F64.zero .none), by decide +kernel⟩

theorem witness_byteRange : byteRange F64.zero = true ∧ byteRange (F64.decimal 255 0) = true := by decide +kernel

/-- Both sides of the saturation of FREQ2VAL at their ends, and the largest finite frequency of each sign. -/
theorem witness_FrequencyMap :
    (⟨0x7FEFFFFFFFFFFFFF#64⟩ : F64).isFinite = true ∧ (⟨0xFFEFFFFFFFFFFFFF#64⟩ : F64).isFinite = true
    ∧ cvtOperand (F64.decimal 1500 0) = true ∧ F64.le (F64.decimal 1500 0) (F64.decimal 1500 0) = true
    ∧ cvtOperand (F64.decimal 2300 0) = true ∧ F64.le (F64.decimal 2300 0) (F64.decimal 2300 0) = true := by decide +kernel

/-- An empty buffer, and one with the two ends of the sample domain, at the largest rate. -/
theorem witness_Wav :
    (∃ s : State, s.cmd.b0 = .samples [] ∧ wavRate s.cmd.a0 = some 2147483647)
    ∧ ∃ (s : State) (l : List F64), s.cmd.b0 = .samples l ∧ wavRate s.cmd.a0 = some 2147483647 ∧ l ≠ [] ∧ l.length ≤ 2147483629
      ∧ ∀ v ∈ l, unitSample v = true :=
  ⟨⟨given (call .wavSerialize (F64.decimal 2147483647 0) F64.zero F64.zero (.samples [])), rfl, by decide +kernel⟩,
    ⟨given (call .wavSerialize (F64.decimal 2147483647 0) F64.zero F64.zero (.samples [F64.one, F64.neg F64.one])), _, rfl,
      by decide +kernel, by simp, by decide, by decide +kernel⟩⟩

theorem witness_Pcm16 : unitSample (F64.neg F64.one) = true ∧ unitSample F64.one = true ∧ pcm16 .binary64 (F64.neg F64.one) = -32768
    ∧ pcm16 .binary64 F64.one = 32767 := by decide +kernel

end Sys2Proof.Tests
end

