-- ==== Sys2Proof/Proofs/Scope.lean ====
section
/-! PROOFS. The two agents share no state (spec/00_scope.md R4): what a command makes of each agent, as a function of that agent, the
configuration and the operands alone; and what the encoder's own step does, by its two outcomes. -/

namespace Sys2Proof.Proofs

open Sys2Proof Sys2Proof.Machine

/-! ## What a command makes of each agent -/

/-- The decoder after DEC_SAMPLE of the sample `raw` (41 R120): unchanged where the command is refused. A tick that faults leaves no next
state, so its value here is read by nothing. -/
def decoderAfterSample (cfg : Config) (raw : F64) (d : Decoder) : Decoder :=
  match d.sr with
  | none => d
  | some sr =>
    if unitSample raw then
      match sampleTick cfg sr raw d with
      | .ok (d', _) => d'
      | .error _ => d
    else d

/-- The decoder after a command that completes (R4): the three decoder commands write it, and no other does. `exec_actsOnAgents` ties it
to `exec`. -/
def decoderAfter (cfg : Config) (cmd : Command) (d : Decoder) : Instr → Decoder
  | .decReset => decoderReset cfg.resetKeepsBuffers d
  | .decSetRate => if srAdmitted cfg cmd.a0 then { d with sr := some cmd.a0 } else d
  | .decSample => decoderAfterSample cfg cmd.a0 d
  | .encEncode | .encCancel | .cvtRgb2yuv | .cvtYuv2rgb | .cvtVal2freq | .cvtFreq2val | .wavSerialize => d

/-- The encoder after ENC_ENCODE (44 R190): a new encode where the four checks pass, unchanged where one fails. -/
def encoderAfterEncode (cfg : Config) (cmd : Command) (e : Encoder) : Encoder :=
  if srAdmitted cfg cmd.a0 ∧ e.busy = false ∧ rasterShape (bulkRaster cmd.b0) then
    match rasterCells (bulkRaster cmd.b0) with
    | some raster => encodeStart cfg.num cmd.a0 raster e
    | none => e
  else e

/-- The encoder after a command that completes (R4, R199): the two encoder commands write it, and no other does. `exec_actsOnAgents` ties
it to `exec`. -/
def encoderAfter (cfg : Config) (cmd : Command) (e : Encoder) : Instr → Encoder
  | .encEncode => encoderAfterEncode cfg cmd e
  | .encCancel => encodeCancel e
  | .decReset | .decSetRate | .decSample | .cvtRgb2yuv | .cvtYuv2rgb | .cvtVal2freq | .cvtFreq2val | .wavSerialize => e

theorem decoderAfter_of_not_decoder (cfg : Config) (cmd : Command) (d : Decoder) {i : Instr} (hreset : i ≠ .decReset)
    (hrate : i ≠ .decSetRate) (hsample : i ≠ .decSample) : decoderAfter cfg cmd d i = d := by
  cases i with
  | decReset => exact absurd rfl hreset
  | decSetRate => exact absurd rfl hrate
  | decSample => exact absurd rfl hsample
  | encEncode | encCancel | cvtRgb2yuv | cvtYuv2rgb | cvtVal2freq | cvtFreq2val | wavSerialize => rfl

theorem encoderAfter_of_not_encoder (cfg : Config) (cmd : Command) (e : Encoder) {i : Instr} (hencode : i ≠ .encEncode)
    (hcancel : i ≠ .encCancel) : encoderAfter cfg cmd e i = e := by
  cases i with
  | encEncode => exact absurd rfl hencode
  | encCancel => exact absurd rfl hcancel
  | decReset | decSetRate | decSample | cvtRgb2yuv | cvtYuv2rgb | cvtVal2freq | cvtFreq2val | wavSerialize => rfl

/-! ## What each command does to the agents -/

/-- The two agents of s, and the mark of a cancelled encode, stand in t unchanged. -/
structure SameAgents (s t : State) : Prop where
  dec : t.dec = s.dec
  enc : t.enc = s.enc
  cancelled : t.cancelled = s.cancelled

theorem sameAgents_respond (s : State) (fill : Response → Response) : SameAgents s (s.respond fill) := ⟨rfl, rfl, rfl⟩

theorem sameAgents_raise (s : State) (st : Status) : SameAgents s (s.raise st) := ⟨rfl, rfl, rfl⟩

theorem sameAgents_refuse (s : State) (why : RefusalReason) : SameAgents s (s.refuse why) := ⟨rfl, rfl, rfl⟩

/-- A command of the converter answers or refuses, and leaves the agents either way (45 R214 to R217, 60 R258). -/
theorem sameAgents_of_checked {s t : State} {c : Prop} [Decidable c] {fill : Response → Response} {why : RefusalReason}
    (h : (if c then .next (s.respond fill) else .next (s.refuse why) : Host.Outcome State Fault Refusal) = .next t) :
    SameAgents s t := by
  split at h
  · cases h; exact sameAgents_respond s fill
  · cases h; exact sameAgents_refuse s why

/-- WAV_SERIALIZE leaves the agents (46 R230). -/
theorem execWavSerialize_sameAgents {s t : State} (h : execWavSerialize s = .next t) : SameAgents s t := by
  rcases execWavSerialize_cases s with ⟨-, he⟩ | ⟨_, -, -, he⟩ | ⟨_, -, -, he⟩ | ⟨_, -, -, -, -, he⟩ | ⟨_, -, -, -, -, he⟩ <;>
    (cases he.symm.trans h; exact ⟨rfl, rfl, rfl⟩)

/-- What a command that completes does to the agents: each becomes what its own function makes of it, and only the encoder's commands
touch the mark of a cancelled encode. -/
structure ActsOnAgents (i : Instr) (s t : State) : Prop where
  dec : t.dec = decoderAfter s.cfg s.cmd s.dec i
  enc : t.enc = encoderAfter s.cfg s.cmd s.enc i
  cancelled : i ≠ .encEncode → i ≠ .encCancel → t.cancelled = s.cancelled

theorem SameAgents.actsOnAgents {i : Instr} {s t : State} (h : SameAgents s t) (hdec : decoderAfter s.cfg s.cmd s.dec i = s.dec)
    (henc : encoderAfter s.cfg s.cmd s.enc i = s.enc) : ActsOnAgents i s t :=
  ⟨h.dec.trans hdec.symm, h.enc.trans henc.symm, fun _ _ => h.cancelled⟩

theorem execDecSetRate_actsOnAgents {s t : State} (h : execDecSetRate s = .next t) : ActsOnAgents .decSetRate s t := by
  unfold execDecSetRate at h
  split at h
  next hrate => cases h; exact ⟨(if_pos hrate).symm, rfl, fun _ _ => rfl⟩
  next hrate => cases h; exact (sameAgents_refuse s .refRate).actsOnAgents (if_neg hrate) rfl

theorem execDecSample_actsOnAgents {s t : State} (h : execDecSample s = .next t) : ActsOnAgents .decSample s t := by
  rcases execDecSample_cases s with ⟨hsr, he⟩ | ⟨sr, hsr, hu, he⟩ | ⟨sr, d, es, hsr, hu, htick, he⟩ | ⟨_, f, -, -, -, he⟩ <;>
    cases he.symm.trans h
  · exact (sameAgents_refuse s .refRateUnset).actsOnAgents (by simp [decoderAfter, decoderAfterSample, hsr]) rfl
  · exact (sameAgents_refuse s .refSampleRange).actsOnAgents (by simp [decoderAfter, decoderAfterSample, hsr, hu]) rfl
  · exact ⟨by simp [decoderAfter, decoderAfterSample, hsr, hu, htick], rfl, fun _ _ => rfl⟩

theorem execEncEncode_actsOnAgents {s t : State} (h : execEncEncode s = .next t) : ActsOnAgents .encEncode s t := by
  rcases execEncEncode_cases s with ⟨hrate, he⟩ | ⟨-, hbusy, he⟩ | ⟨-, -, hshape, he⟩ | ⟨-, -, -, hcells, he⟩ |
    ⟨hrate, hidle, hshape, raster, hcells, he⟩ <;> cases he.symm.trans h
  · exact (sameAgents_refuse s .refRate).actsOnAgents rfl (by simp [encoderAfter, encoderAfterEncode, hrate])
  · exact (sameAgents_raise s .encBusyErr).actsOnAgents rfl (by simp [encoderAfter, encoderAfterEncode, hbusy])
  · exact (sameAgents_raise s .configDimension).actsOnAgents rfl (by simp [encoderAfter, encoderAfterEncode, hshape])
  · exact (sameAgents_refuse s .refRasterValue).actsOnAgents rfl (by simp [encoderAfter, encoderAfterEncode, hcells])
  · exact ⟨rfl, by simp [encoderAfter, encoderAfterEncode, hrate, hidle, hshape, hcells], fun hi => absurd rfl hi⟩

/-- Each command that completes acts on each agent through that agent's own function (R4, R199, R230, R268). -/
theorem exec_actsOnAgents {i : Instr} {s t : State} (h : exec i s = .next t) : ActsOnAgents i s t := by
  cases i with
  | decReset => cases h; exact ⟨rfl, rfl, fun _ _ => rfl⟩
  | decSetRate => exact execDecSetRate_actsOnAgents h
  | decSample => exact execDecSample_actsOnAgents h
  | encEncode => exact execEncEncode_actsOnAgents h
  | encCancel => cases h; exact ⟨rfl, rfl, fun _ hi => absurd rfl hi⟩
  | cvtRgb2yuv | cvtYuv2rgb | cvtVal2freq | cvtFreq2val => exact (sameAgents_of_checked h).actsOnAgents rfl rfl
  | wavSerialize => exact (execWavSerialize_sameAgents h).actsOnAgents rfl rfl

/-! ## The encoder's own step -/

theorem encoderMove_idle {s : State} (hidle : s.enc.busy = false) : encoderMove s = .next s := by
  simp [encoderMove, hidle]

theorem encoderMove_busy {s : State} {e : Encoder} {es : List Event} (hbusy : s.enc.busy = true)
    (hstep : encStep s.cfg s.enc = .ok (e, es)) : encoderMove s = .next { s.emit es with enc := e } := by
  simp [encoderMove, hbusy, hstep]

/-- The encoder's step writes the encoder and the port only (44 R194). -/
theorem encoderMove_frame {s t : State} (h : encoderMove s = .next t) :
    t.dec = s.dec ∧ t.refused = s.refused ∧ t.resp = s.resp ∧ t.cancelled = s.cancelled := by
  rcases encoderMove_cases s with ⟨-, he⟩ | ⟨-, e, es, -, he⟩ | ⟨-, f, -, he⟩ <;> cases he.symm.trans h
  · exact ⟨rfl, rfl, rfl, rfl⟩
  · exact ⟨rfl, rfl, rfl, rfl⟩

/-- From two states with one encoder and one configuration, the encoder's step leaves the same encoder and appends the same records. -/
theorem encoderMove_congr {s s' t : State} (hcfg : s'.cfg = s.cfg) (henc : s'.enc = s.enc) (h : encoderMove s = .next t) :
    ∃ t' es, encoderMove s' = .next t' ∧ t'.enc = t.enc ∧ t.events = s.events ++ es ∧ t'.events = s'.events ++ es := by
  rcases encoderMove_cases s with ⟨hidle, he⟩ | ⟨hbusy, e, es, hstep, he⟩ | ⟨-, f, -, he⟩ <;> cases he.symm.trans h
  · rw [← henc] at hidle
    exact ⟨s', [], encoderMove_idle hidle, henc, (List.append_nil _).symm, (List.append_nil _).symm⟩
  · rw [← henc] at hbusy
    rw [← hcfg, ← henc] at hstep
    exact ⟨_, es, encoderMove_busy hbusy hstep, rfl, rfl, rfl⟩

/-- Settles O35: each agent after a command is `decoderAfter` or `encoderAfter` of that agent alone, and the encoder's step reads the
encoder and the configuration only. -/
theorem agentsShareNoState : Obligations.AgentsShareNoState := by
  unfold Obligations.AgentsShareNoState
  refine ⟨fun i s t h => ⟨fun hreset hrate hsample => ?_, fun hencode hcancel => ⟨?_, ?_⟩⟩, fun s t => encoderMove_frame,
    fun i s s' t t' hcfg hcmd hdec h h' => ?_, fun i s s' t t' hcfg hcmd henc h h' => ?_, fun s s' t => encoderMove_congr⟩
  · exact (exec_actsOnAgents h).dec.trans (decoderAfter_of_not_decoder _ _ _ hreset hrate hsample)
  · exact (exec_actsOnAgents h).enc.trans (encoderAfter_of_not_encoder _ _ _ hencode hcancel)
  · exact (exec_actsOnAgents h).cancelled hencode hcancel
  · rw [(exec_actsOnAgents h').dec, (exec_actsOnAgents h).dec, hcfg, hcmd, hdec]
  · rw [(exec_actsOnAgents h').enc, (exec_actsOnAgents h).enc, hcfg, hcmd, henc]

end Sys2Proof.Proofs
end

