-- ==== Sys2Proof/Proofs/Agents.lean ====
section
/-! PROOFS. What one step of the machine can make of each agent (spec/20_memory.md R70, 44_modulator R199), said once for the invariants of
10_state: every move keeps the agent, or is one of its own commands, or is the encoder's own step. -/

namespace Sys2Proof.Proofs

open Sys2Proof Sys2Proof.Machine

/-- The decoders that one step can make of `d`: kept, reset (41 R140), given a new rate (41 R131) or moved on by one sample (41 R120). -/
inductive DecoderNext (cfg : Config) (d : Decoder) : Decoder → Prop
  | same : DecoderNext cfg d d
  | reset : DecoderNext cfg d (decoderReset cfg.resetKeepsBuffers d)
  | rate {sr : F64} (hrate : srAdmitted cfg sr = true) : DecoderNext cfg d { d with sr := some sr }
  | tick {sr raw : F64} {d' : Decoder} {es : List Event} (hsr : d.sr = some sr) (hraw : unitSample raw = true)
      (htick : sampleTick cfg sr raw d = .ok (d', es)) : DecoderNext cfg d d'

/-- The encoders that one step can make of `e`: kept, started on an admitted rate and raster (44 R190), cancelled (44 R198) or moved on by
its own step (44 R194). -/
inductive EncoderNext (cfg : Config) (e : Encoder) : Encoder → Prop
  | same : EncoderNext cfg e e
  | start {sr : F64} {raster : Cells (Cells Pixel)} (hrate : srAdmitted cfg sr = true) (hraster : rasterWf raster = true) :
      EncoderNext cfg e (encodeStart cfg.num sr raster e)
  | cancel : EncoderNext cfg e (encodeCancel e)
  | step {e' : Encoder} {es : List Event} (hbusy : e.busy = true) (hstep : encStep cfg e = .ok (e', es)) : EncoderNext cfg e e'

theorem decoderNext_afterSample (cfg : Config) (raw : F64) (d : Decoder) : DecoderNext cfg d (decoderAfterSample cfg raw d) := by
  unfold decoderAfterSample
  split
  next => exact .same
  next sr hsr =>
    split
    next hraw =>
      split
      next d' es htick => exact .tick hsr hraw htick
      next => exact .same
    next => exact .same

/-- A command leaves the decoder in one of the states of `DecoderNext`. -/
theorem decoderNext_after (cfg : Config) (cmd : Command) (d : Decoder) (i : Instr) :
    DecoderNext cfg d (decoderAfter cfg cmd d i) := by
  cases i with
  | decReset => exact .reset
  | decSetRate =>
    simp only [decoderAfter]
    split
    next hrate => exact .rate hrate
    next => exact .same
  | decSample => exact decoderNext_afterSample cfg cmd.a0 d
  | encEncode | encCancel | cvtRgb2yuv | cvtYuv2rgb | cvtVal2freq | cvtFreq2val | wavSerialize => exact .same

theorem encoderNext_afterEncode (cfg : Config) (cmd : Command) (e : Encoder) : EncoderNext cfg e (encoderAfterEncode cfg cmd e) := by
  unfold encoderAfterEncode
  split
  next hchecks =>
    obtain ⟨hrate, -, hshape⟩ := hchecks
    split
    next raster hcells => exact .start hrate (rasterCells_wf hshape hcells)
    next => exact .same
  next => exact .same

/-- A command leaves the encoder in one of the states of `EncoderNext`. -/
theorem encoderNext_after (cfg : Config) (cmd : Command) (e : Encoder) (i : Instr) :
    EncoderNext cfg e (encoderAfter cfg cmd e i) := by
  cases i with
  | encEncode => exact encoderNext_afterEncode cfg cmd e
  | encCancel => exact .cancel
  | decReset | decSetRate | decSample | cvtRgb2yuv | cvtYuv2rgb | cvtVal2freq | cvtFreq2val | wavSerialize => exact .same

/-- What a step makes of the state, agent by agent; the configuration stays (00_scope R9). -/
structure AgentsNext (s t : State) : Prop where
  cfg : t.cfg = s.cfg
  dec : DecoderNext s.cfg s.dec t.dec
  enc : EncoderNext s.cfg s.enc t.enc

/-- A state with the agents of `s` is a next one. -/
theorem agentsNext_of_eq {s t : State} (hcfg : t.cfg = s.cfg) (hdec : t.dec = s.dec) (henc : t.enc = s.enc) : AgentsNext s t :=
  ⟨hcfg, hdec ▸ .same, henc ▸ .same⟩

theorem exec_agentsNext {i : Instr} {s t : State} (h : exec i s = .next t) : AgentsNext s t where
  cfg := (exec_fixed h).1
  dec := (exec_actsOnAgents h).dec ▸ decoderNext_after s.cfg s.cmd s.dec i
  enc := (exec_actsOnAgents h).enc ▸ encoderNext_after s.cfg s.cmd s.enc i

theorem encoderMove_agentsNext {s t : State} (h : encoderMove s = .next t) : AgentsNext s t := by
  rcases encoderMove_cases s with ⟨-, he⟩ | ⟨hbusy, e, es, hstep, he⟩ | ⟨-, f, -, he⟩ <;> cases he.symm.trans h
  · exact agentsNext_of_eq rfl rfl rfl
  · exact ⟨rfl, .same, .step hbusy hstep⟩

/-- Every step is one of the agents' own moves or leaves both as they are. -/
theorem step_agentsNext {s t : State} (h : step s = .next t) : AgentsNext s t := by
  rcases step_cases s with ⟨c, rest, i, -, -, he⟩ | ⟨c, rest, x, -, -, he⟩ | ⟨rest, he⟩ | ⟨rest, -, he⟩ | ⟨rest, -, -, he⟩ <;>
    rw [he] at h
  · obtain ⟨hcfg, hdec, henc⟩ := exec_agentsNext h
    exact ⟨hcfg, hdec, henc⟩
  · cases h; exact agentsNext_of_eq rfl rfl rfl
  · obtain ⟨hcfg, hdec, henc⟩ := encoderMove_agentsNext h
    exact ⟨hcfg, hdec, henc⟩
  · cases h; exact agentsNext_of_eq rfl rfl rfl
  · cases h; exact agentsNext_of_eq rfl rfl rfl

/-! ## The registers of the estimator -/

/-- The registers that the state machine and SCAN read but never write. -/
structure SameEstimator (d d' : Decoder) : Prop where
  sr : d'.sr = d.sr
  dcOffset : d'.dcOffset = d.dcOffset
  previousValue : d'.previousValue = d.previousValue
  currentFreq : d'.currentFreq = d.currentFreq

theorem armWait_sameEstimator (d : Decoder) : SameEstimator d (armWait d).1 := by
  unfold armWait
  split <;> exact ⟨rfl, rfl, rfl, rfl⟩

theorem lineEnd_sameEstimator (N : NumDomain) (sr : F64) (d : Decoder) : SameEstimator d (lineEnd N sr d).1 := by
  rcases lineEnd_cases N sr d with ⟨-, -, h⟩ | ⟨-, -, h⟩ | ⟨-, -, h⟩ | ⟨-, -, h⟩ <;> rw [h] <;> exact ⟨rfl, rfl, rfl, rfl⟩

/-- After a tick these registers hold what EST left in them (41 R120). -/
theorem sampleTick_sameEstimator {cfg : Config} {sr raw : F64} {d d' : Decoder} {es : List Event}
    (h : sampleTick cfg sr raw d = .ok (d', es)) : SameEstimator (est cfg.num sr raw d) d' := by
  rcases sampleTick_cases h with ⟨-, he⟩ | ⟨-, he⟩ | ⟨-, m, es', -, he⟩ <;> obtain rfl := congrArg Prod.fst he
  · exact ⟨armSearch_sr _, armSearch_dcOffset _, armSearch_previousValue _, armSearch_currentFreq _⟩
  · exact armWait_sameEstimator _
  · obtain ⟨hsr, hdc, hprev, hfreq⟩ := lineEnd_sameEstimator cfg.num sr { countLine (est cfg.num sr raw d) with mem := m }
    exact ⟨hsr, hdc, hprev, hfreq⟩

end Sys2Proof.Proofs
end

