-- ==== Sys2Proof/Proofs/Ranges.lean ====
section
/-! PROOFS. The ranges of the model's formulas in the default domain NUM = binary64: each formula carries the intervals of its operands
to the interval between its values at their end points (Laws/Rounding.lean). -/

namespace Sys2Proof.Proofs

open Sys2Proof Sys2Proof.Machine Sys2Proof.F64

/-! ## Intervals of the operands -/

theorem isFinite_kRateMax : kRateMax.isFinite = true := by decide +kernel

theorem isFinite_kVmax : kVmax.isFinite = true := by decide +kernel

theorem isFinite_neg_one : (neg F64.one).isFinite = true := by decide +kernel

theorem unit_between {v : F64} (h : within (neg F64.one) F64.one v = true) : Between (neg F64.one) F64.one v :=
  between_of_within isFinite_neg_one isFinite_one h

theorem unitSample_between {v : F64} (h : unitSample v = true) : Between (neg F64.one) F64.one v := by
  simp only [unitSample, Bool.and_eq_true] at h
  exact unit_between h.2

theorem byteRange_iff {v : F64} : byteRange v = true ↔ Between F64.zero kVmax v :=
  ⟨between_of_within isFinite_zero isFinite_kVmax, Between.within⟩

/-- A configuration in its ranges computes in binary64 (00_scope R9). -/
theorem configOk_num {cfg : Config} (h : configOk cfg = true) : cfg.num = .binary64 := by
  simp only [configOk, Bool.and_eq_true, decide_eq_true_eq] at h
  obtain ⟨⟨⟨hnum, -⟩, -⟩, -⟩ := h
  exact hnum

theorem configOk_amp {cfg : Config} (h : configOk cfg = true) : Between (neg F64.one) F64.one cfg.amp := by
  simp only [configOk, Bool.and_eq_true] at h
  obtain ⟨⟨-, hamp⟩, -⟩ := h
  exact unit_between hamp

/-- A rate that such a configuration admits lies in 1..2^32 (00_scope R9). -/
theorem srAdmitted_between {cfg : Config} {sr : F64} (h : configOk cfg = true) (hrate : srAdmitted cfg sr = true) :
    Between F64.one kRateMax sr := by
  simp only [configOk, Bool.and_eq_true, List.all_eq_true, rateInterval] at h
  simp only [srAdmitted, Bool.and_eq_true, List.any_eq_true] at hrate
  obtain ⟨-, i, hi, hin⟩ := hrate
  obtain ⟨hi1, hi2⟩ := h.2 i hi
  have hlo := between_of_within isFinite_one isFinite_kRateMax hi1
  have hhi := between_of_within isFinite_one isFinite_kRateMax hi2
  exact (between_of_within hlo.finite hhi.finite hin).mono isFinite_one isFinite_kRateMax hlo.lo_le hhi.le_hi

/-- A Nat up to 255 as a value (00_scope R12). -/
theorem ofNat_byte {n : Nat} (hn : n ≤ 255) : Between F64.zero kVmax (F64.ofNat n) := by
  obtain ⟨hfin, hunits⟩ := units_ofNat (n := n) (by omega)
  refine ⟨isFinite_zero, isFinite_kVmax, hfin, ?_, ?_⟩
  · rw [units_zero, hunits]; exact Int.natCast_nonneg _
  · rw [hunits, show kVmax.units = (255 * unitsPerOne : Nat) by decide +kernel]
    exact_mod_cast Nat.mul_le_mul_right _ hn

/-! ## The estimator (40_frequency_estimator R102) -/

/-- The two coefficients of DC_BLOCK add up to 1.0 after rounding, so that the offset stays in [-1, 1] (10_state R22). -/
theorem dcBlockOffset_between {raw dc : F64} (hraw : Between (neg F64.one) F64.one raw) (hdc : Between (neg F64.one) F64.one dc) :
    Between (neg F64.one) F64.one (dcBlockOffset .binary64 raw dc) := by
  have hsum : Between (dcBlockOffset .binary64 (neg F64.one) (neg F64.one)) (dcBlockOffset .binary64 F64.one F64.one)
      (dcBlockOffset .binary64 raw dc) := by
    refine (hraw.mul_right ?_ ?_ ?_ ?_).add (hdc.mul_right ?_ ?_ ?_ ?_) ?_ ?_ <;> decide +kernel
  refine hsum.mono isFinite_neg_one isFinite_one ?_ ?_ <;> decide +kernel

/-- The filtered value of a sample in [-1, 1] (95_test_vectors V1.4). -/
theorem filtered_between {raw dc : F64} (hraw : Between (neg F64.one) F64.one raw) (hdc : Between (neg F64.one) F64.one dc) :
    Between (neg (decimal 2 0)) (decimal 2 0) (F64.sub raw dc) := by
  have hdiff : Between (F64.sub (neg F64.one) F64.one) (F64.sub F64.one (neg F64.one)) (F64.sub raw dc) := by
    refine hraw.sub hdc ?_ ?_ <;> decide +kernel
  refine hdiff.mono ?_ ?_ ?_ ?_ <;> decide +kernel

/-! ## The smoothed frequency (40 R105, 10_state R25) -/

/-- A value that is not negative has its magnitude's units. -/
theorem magUnits_of_nonneg {x : F64} (h : 0 ≤ x.units) : (magUnits x.magnitude : Int) = x.units := by
  rw [units_eq] at h ⊢
  cases hs : x.signBit
  · rfl
  · rw [hs] at h
    simp only [signedUnits, if_true] at h ⊢
    omega

/-- A value of at least 2^53 units has a half. -/
theorem exists_half {x : F64} (hx : x.isFinite = true) (hlarge : 2 ^ 53 ≤ magUnits x.magnitude) :
    ∃ y : F64, y.isFinite = true ∧ y.units * 2 = x.units := by
  rw [isFinite_iff] at hx
  obtain ⟨e, f, hf, hmag⟩ : ∃ e f, f < 2 ^ 52 ∧ x.magnitude = (e + 1 + 1) * 2 ^ 52 + f := by
    rcases magnitude_cases x.magnitude with hsub | ⟨_ | e, f, hf, hmag⟩
    · rw [magUnits_small hsub] at hlarge; omega
    · rw [hmag, magUnits_normal 0 f hf] at hlarge; omega
    · exact ⟨e, f, hf, hmag⟩
  have hlt : (e + 1) * 2 ^ 52 + f < infMagnitude := by omega
  refine ⟨pack x.signBit ((e + 1) * 2 ^ 52 + f), ?_, ?_⟩
  · rw [isFinite_iff, magnitude_pack _ (hlt.trans infMagnitude_lt)]; exact hlt
  · rw [units_pack _ (hlt.trans infMagnitude_lt), units_eq x, hmag, magUnits_normal e f hf, magUnits_normal (e + 1) f hf, pow_succ 2 e,
      ← mul_assoc]
    cases x.signBit <;> simp [signedUnits]

/-- Halving such a value is exact. -/
theorem mul_half {x : F64} (hx : x.isFinite = true) (hlarge : 2 ^ 53 ≤ x.units) :
    (F64.mul x kSmooth).isFinite = true ∧ (F64.mul x kSmooth).units * 2 = x.units := by
  have hmag : 2 ^ 53 ≤ magUnits x.magnitude := by
    rw [← magUnits_of_nonneg (by omega)] at hlarge
    exact_mod_cast hlarge
  obtain ⟨y, hy, hyx⟩ := exists_half hx hmag
  have hk : kSmooth.isFinite = true ∧ kSmooth.units * 2 = unitsPerOne := by decide +kernel
  have hprod : x.units * kSmooth.units = y.units * unitsPerOne := by rw [← hyx, ← hk.2]; ring
  have hunits : (F64.mul x kSmooth).units = y.units := by
    rw [units_mul hx hk.1, hprod, roundUnits_exact hy unitsPerOne_pos]
  exact ⟨isFinite_of_units_between hy hy hunits.ge hunits.le, by rw [hunits, hyx]⟩

/-- The mean of two values of [0, top] as R105 computes it lies in [0, top]: the half of `top` is exact. -/
theorem mean_between {a b top : F64} (ha : Between F64.zero top a) (hb : Between F64.zero top b) (hlarge : 2 ^ 53 ≤ top.units) :
    Between F64.zero top (F64.add (F64.mul a kSmooth) (F64.mul b kSmooth)) := by
  obtain ⟨hfin, hhalf⟩ := mul_half ha.hi_finite hlarge
  have hk : kSmooth.isFinite = true ∧ 0 ≤ kSmooth.units := by decide +kernel
  have hzero : (F64.mul F64.zero kSmooth).isFinite = true ∧ (F64.mul F64.zero kSmooth).units = 0 := by decide +kernel
  have ha' := ha.mul_right hk.1 hk.2 hzero.1 hfin
  have hb' := hb.mul_right hk.1 hk.2 hzero.1 hfin
  have la := ha'.lo_le
  have lb := hb'.lo_le
  rw [hzero.2] at la lb
  obtain ⟨hsum, hlo, hhi⟩ := add_between ha'.finite hb'.finite isFinite_zero ha.hi_finite
    (by rw [units_zero]; omega) (by have := ha'.le_hi; have := hb'.le_hi; omega)
  exact ⟨isFinite_zero, ha.hi_finite, hsum, hlo, hhi⟩

/-- Dividing a value that is not negative by more gives no more. -/
theorem div_le_div {x y z : F64} (hx : x.isFinite = true) (hy : y.isFinite = true) (hz : z.isFinite = true) (hx0 : 0 ≤ x.units)
    (hpos : 0 < y.units) (hyz : y.units ≤ z.units) : (F64.div x z).units ≤ (F64.div x y).units := by
  rw [units_div hx hz (by omega), units_div hx hy hpos]
  refine roundUnits_mono (by omega) (by omega) ?_
  rw [Int.toNat_of_nonneg (by omega), Int.toNat_of_nonneg (by omega)]
  exact mul_le_mul_of_nonneg_left hyz (mul_nonneg hx0 (Int.natCast_nonneg _))

/-- The quotient at the shortest accepted period, sampleRate/11 (10_state R25): far above the subnormal range, and below 2^32. -/
theorem shortestPeriod_between {sr : F64} (hsr : Between F64.one kRateMax sr) :
    Between F64.zero kRateMax (F64.div sr (decimal 11 0)) ∧ 2 ^ 53 ≤ (F64.div sr (decimal 11 0)).units := by
  have h : Between (F64.div F64.one (decimal 11 0)) (F64.div kRateMax (decimal 11 0)) (F64.div sr (decimal 11 0)) := by
    refine hsr.div_right ?_ ?_ ?_ ?_ <;> decide +kernel
  constructor
  · refine h.mono ?_ ?_ ?_ ?_ <;> decide +kernel
  · exact le_trans (by decide +kernel) h.lo_le

/-- The quotient at any accepted period lies in [0, sampleRate/11] (40 R105). -/
theorem period_between {sr : F64} {n : Nat} (hsr : Between F64.one kRateMax sr) (hlo : kCycLo < n) (hhi : n < kCycHi) :
    Between F64.zero (F64.div sr (decimal 11 0)) (F64.div sr (F64.ofNat n)) := by
  unfold kCycLo at hlo
  unfold kCycHi at hhi
  obtain ⟨hn, hunits⟩ := units_ofNat (n := n) (by omega)
  have h11 : (decimal 11 0).isFinite = true ∧ (decimal 11 0).units = (11 * unitsPerOne : Nat) := by decide +kernel
  have hone := unitsPerOne_pos
  have hpos : 0 < (decimal 11 0).units := by rw [h11.2]; exact_mod_cast Nat.mul_pos (by omega) hone
  have hle : (decimal 11 0).units ≤ (F64.ofNat n).units := by
    rw [h11.2, hunits]; exact_mod_cast Nat.mul_le_mul_right _ (by omega)
  have hsr0 : 0 ≤ sr.units := le_trans (by decide +kernel) hsr.lo_le
  have hquot := div_le_div hsr.finite h11.1 hn hsr0 hpos hle
  obtain ⟨hfin, hnonneg, -⟩ := div_between hsr.finite hn isFinite_zero hsr.finite (by omega)
    (by rw [units_zero, zero_mul]; exact mul_nonneg hsr0 (Int.natCast_nonneg _))
    (mul_le_mul_of_nonneg_left (by rw [hunits]; exact_mod_cast Nat.le_mul_of_pos_left _ (by omega)) hsr0)
  exact ⟨isFinite_zero, (shortestPeriod_between hsr).1.finite, hfin, hnonneg, hquot⟩

/-- In 0..2^32, and not above the larger of the frequency before and sampleRate/11 (10_state R25). -/
structure FreqBounded (sr old new : F64) : Prop where
  between : Between F64.zero kRateMax new
  le : new.units ≤ old.units ∨ new.units ≤ (F64.div sr (decimal 11 0)).units

theorem freqBounded_self {sr f : F64} (hf : Between F64.zero kRateMax f) : FreqBounded sr f f := ⟨hf, .inl (le_refl _)⟩

/-- FREQ_UPDATE's new frequency is a mean of the old one and a quotient of at most sampleRate/11. -/
theorem smoothedFreq_bounded {sr f : F64} {n : Nat} (hsr : Between F64.one kRateMax sr) (hf : Between F64.zero kRateMax f)
    (hlo : kCycLo < n) (hhi : n < kCycHi) : FreqBounded sr f (smoothedFreq .binary64 sr f n) := by
  have hperiod := period_between hsr hlo hhi
  obtain ⟨hquot, hlarge⟩ := shortestPeriod_between hsr
  rcases le_total f.units (F64.div sr (decimal 11 0)).units with hle | hle
  · have hmean := mean_between ⟨isFinite_zero, hquot.finite, hf.finite, hf.lo_le, hle⟩ hperiod hlarge
    exact ⟨hmean.mono isFinite_zero isFinite_kRateMax (le_refl _) hquot.le_hi, .inr hmean.le_hi⟩
  · have hmean := mean_between ⟨isFinite_zero, hf.finite, hf.finite, hf.lo_le, le_refl _⟩
      (hperiod.mono isFinite_zero hf.finite (le_refl _) hle) (hlarge.trans hle)
    exact ⟨hmean.mono isFinite_zero isFinite_kRateMax (le_refl _) hf.le_hi, .inl hmean.le_hi⟩

theorem est_freqBounded {sr raw : F64} {d : Decoder} (hsr : Between F64.one kRateMax sr) (hf : Between F64.zero kRateMax d.currentFreq) :
    FreqBounded sr d.currentFreq (est .binary64 sr raw d).currentFreq := by
  rw [est_freq]
  split
  · split
    next hperiod => exact smoothedFreq_bounded hsr hf hperiod.1 hperiod.2
    next => exact freqBounded_self hf
  · exact freqBounded_self hf

/-! ## The colour of a pixel (45_color_converter R211, R213, 42_scanline_decoder R158) -/

theorem freq2val_byte {f : F64} (hf : Between F64.zero kRateMax f) : Between F64.zero kVmax (freq2val .binary64 f) := by
  refine (((hf.sub (Between.self ?_) ?_ ?_).div_right ?_ ?_ ?_ ?_).mul_right ?_ ?_ ?_ ?_).clamp ?_ ?_ ?_ <;> decide +kernel

/-- Rounded to an integer, a value that is not negative keeps its sign or is zero. -/
theorem signedUnits_roundHalfEven {x : F64} (h : 0 ≤ x.units) :
    signedUnits x.signBit (roundHalfEven (magUnits x.magnitude) unitsPerOne * unitsPerOne)
      = (roundHalfEven (magUnits x.magnitude) unitsPerOne * unitsPerOne : Nat) := by
  cases hs : x.signBit
  · rfl
  · have hzero : magUnits x.magnitude = 0 := by
      rw [units_eq, hs] at h
      simp only [signedUnits, if_true] at h
      omega
    have hround : roundHalfEven 0 unitsPerOne = 0 := by simpa using roundHalfEven_exact 0 unitsPerOne unitsPerOne_pos
    simp [hzero, hround]

/-- The nearest integer of a value of [0, 255] lies there too. -/
theorem roundToInteger_byte {v : F64} (hv : Between F64.zero kVmax v) : Between F64.zero kVmax (F64.roundToInteger v) := by
  have hmax : kVmax.units = (255 * unitsPerOne : Nat) := by decide +kernel
  have h0 : 0 ≤ v.units := by rw [← units_zero]; exact hv.lo_le
  have hle : magUnits v.magnitude ≤ 255 * unitsPerOne := by
    have hhi := hv.le_hi
    rw [hmax, ← magUnits_of_nonneg h0] at hhi
    exact_mod_cast hhi
  have hround : roundHalfEven (magUnits v.magnitude) unitsPerOne ≤ 255 := by
    rw [← roundHalfEven_exact 255 unitsPerOne unitsPerOne_pos]
    exact roundHalfEven_mono unitsPerOne_pos unitsPerOne_pos (Nat.mul_le_mul_right _ hle)
  obtain ⟨hfin, hlo, hhi⟩ := pack_round_between (s := v.signBit) Nat.one_pos isFinite_zero isFinite_kVmax
    (by rw [signedUnits_roundHalfEven h0, units_zero, zero_mul]; exact Int.natCast_nonneg _)
    (by rw [signedUnits_roundHalfEven h0, hmax, Nat.cast_one, mul_one]; exact_mod_cast Nat.mul_le_mul_right _ hround)
  unfold F64.roundToInteger ofRatio
  rw [if_pos hv.finite]
  exact ⟨isFinite_zero, isFinite_kVmax, hfin, hlo, hhi⟩

/-- A pixel with its three channels in [0, 255]. -/
structure PixelBetween (c : RGB) : Prop where
  r : Between F64.zero kVmax c.r
  g : Between F64.zero kVmax c.g
  b : Between F64.zero kVmax c.b

theorem PixelBetween.range {c : RGB} (h : PixelBetween c) : pixelRange c = true := by
  simp only [pixelRange, Bool.and_eq_true, byteRange_iff]
  exact ⟨⟨h.r, h.g⟩, h.b⟩

/-- Every channel of R211 ends in a clamp, here of a finite value. -/
theorem yuv2rgb_between {y cb cr : F64} (hy : Between F64.zero kVmax y) (hcb : Between F64.zero kVmax cb)
    (hcr : Between F64.zero kVmax cr) : PixelBetween (yuv2rgb .binary64 y cb cr) where
  r := by
    refine (hy.add ((hcr.sub (Between.self ?_) ?_ ?_).mul_left ?_ ?_ ?_ ?_) ?_ ?_).clamp ?_ ?_ ?_ <;> decide +kernel
  g := by
    refine ((hy.sub ((hcb.sub (Between.self ?_) ?_ ?_).mul_left ?_ ?_ ?_ ?_) ?_ ?_).sub
      ((hcr.sub (Between.self ?_) ?_ ?_).mul_left ?_ ?_ ?_ ?_) ?_ ?_).clamp ?_ ?_ ?_ <;> decide +kernel
  b := by
    refine (hy.add ((hcb.sub (Between.self ?_) ?_ ?_).mul_left ?_ ?_ ?_ ?_) ?_ ?_).clamp ?_ ?_ ?_ <;> decide +kernel

theorem quantise_between {q : PixelQuant} {c : RGB} (h : PixelBetween c) : PixelBetween (quantise .binary64 q c) := by
  cases q with
  | none => exact h
  | roundToByte => exact ⟨roundToInteger_byte h.r, roundToInteger_byte h.g, roundToInteger_byte h.b⟩

/-! ## The tones of the segment table (44_modulator R192, R193) -/

/-- Luma rises in every component (45 R210). -/
theorem lumaOf_between {r g b : F64} (hr : Between F64.zero kVmax r) (hg : Between F64.zero kVmax g) (hb : Between F64.zero kVmax b) :
    Between (lumaOf .binary64 F64.zero F64.zero F64.zero) (lumaOf .binary64 kVmax kVmax kVmax) (lumaOf .binary64 r g b) := by
  refine (Between.self ?_).add ((((hr.mul_left ?_ ?_ ?_ ?_).add (hg.mul_left ?_ ?_ ?_ ?_) ?_ ?_).add
    (hb.mul_left ?_ ?_ ?_ ?_) ?_ ?_).div_right ?_ ?_ ?_ ?_) ?_ ?_ <;> decide +kernel

/-- Cb falls in red and green and rises in blue. -/
theorem cbOf_between {r g b : F64} (hr : Between F64.zero kVmax r) (hg : Between F64.zero kVmax g) (hb : Between F64.zero kVmax b) :
    Between (cbOf .binary64 kVmax kVmax F64.zero) (cbOf .binary64 F64.zero F64.zero kVmax) (cbOf .binary64 r g b) := by
  refine (Between.self ?_).add ((((hr.mul_left_neg ?_ ?_ ?_ ?_).sub (hg.mul_left ?_ ?_ ?_ ?_) ?_ ?_).add
    (hb.mul_left ?_ ?_ ?_ ?_) ?_ ?_).div_right ?_ ?_ ?_ ?_) ?_ ?_ <;> decide +kernel

/-- Cr rises in red and falls in green and blue. -/
theorem crOf_between {r g b : F64} (hr : Between F64.zero kVmax r) (hg : Between F64.zero kVmax g) (hb : Between F64.zero kVmax b) :
    Between (crOf .binary64 F64.zero kVmax kVmax) (crOf .binary64 kVmax F64.zero F64.zero) (crOf .binary64 r g b) := by
  refine (Between.self ?_).add ((((hr.mul_left ?_ ?_ ?_ ?_).sub (hg.mul_left ?_ ?_ ?_ ?_) ?_ ?_).sub
    (hb.mul_left ?_ ?_ ?_ ?_) ?_ ?_).div_right ?_ ?_ ?_ ?_) ?_ ?_ <;> decide +kernel

/-- The frequencies for which the phase accumulator's laws hold (Laws/Wave.lean). -/
abbrev ToneBetween (f : F64) : Prop := Between (decimal 1000 0) (decimal 2400 0) f

/-- VAL2FREQ of a value of [0, 255] lies in 1500..2300 Hz, inside the range of the tones. -/
theorem val2freq_tone {v : F64} (hv : Between F64.zero kVmax v) : ToneBetween (val2freq .binary64 v) := by
  have hfreq : Between (val2freq .binary64 F64.zero) (val2freq .binary64 kVmax) (val2freq .binary64 v) := by
    refine (Between.self ?_).add (hv.mul_right ?_ ?_ ?_ ?_) ?_ ?_ <;> decide +kernel
  refine hfreq.mono ?_ ?_ ?_ ?_ <;> decide +kernel

/-- A raster pixel with its components in 0..255 (10_state R36). -/
def pixelOk (p : Pixel) : Bool := decide (p.r ≤ 255) && decide (p.g ≤ 255) && decide (p.b ≤ 255)

/-- `pixelOk` is the check of `rasterWf` on each pixel, which holds for every one that a raster in canonical form reads as. -/
theorem rasterWf_read {raster : Cells (Cells Pixel)} {x y : Nat} {p : Pixel} (hw : rasterWf raster = true)
    (hread : readRaster raster x y = .ok p) : pixelOk p = true := by
  obtain ⟨-, -, rfl⟩ := readRaster_ok_iff.mp hread
  have hrow : cellsWf blackPixel width pixelOk 0 (cellsGet [] raster y) = true := by
    rcases cellsGet_ok raster y hw with h | h
    · rw [h]; rfl
    · exact h
  rcases cellsGet_ok (cellsGet [] raster y) x hrow with h | h
  · rw [h]; rfl
  · exact h

theorem pixelTones {p : Pixel} (hp : pixelOk p = true) (line : Nat) :
    ToneBetween (lumaFreq .binary64 p) ∧ ToneBetween (chromaFreq .binary64 line p) := by
  simp only [pixelOk, Bool.and_eq_true, decide_eq_true_eq] at hp
  obtain ⟨⟨hr, hg⟩, hb⟩ := hp
  have hy := lumaOf_between (ofNat_byte hr) (ofNat_byte hg) (ofNat_byte hb)
  have hcb := cbOf_between (ofNat_byte hr) (ofNat_byte hg) (ofNat_byte hb)
  have hcr := crOf_between (ofNat_byte hr) (ofNat_byte hg) (ofNat_byte hb)
  refine ⟨val2freq_tone (hy.mono isFinite_zero isFinite_kVmax ?_ ?_), ?_⟩
  · decide +kernel
  · decide +kernel
  · unfold chromaFreq
    split
    · exact val2freq_tone (hcr.mono isFinite_zero isFinite_kVmax (by decide +kernel) (by decide +kernel))
    · exact val2freq_tone (hcb.mono isFinite_zero isFinite_kVmax (by decide +kernel) (by decide +kernel))

/-- The fixed tones of R192. -/
theorem fixedTones : ToneBetween fLeader ∧ ToneBetween fSync ∧ ToneBetween fPorch ∧ ToneBetween fSep ∧ ToneBetween fPorchUv := by
  have hends : (decimal 1000 0).isFinite = true ∧ (decimal 2400 0).isFinite = true := by decide +kernel
  refine ⟨?_, ?_, ?_, ?_, ?_⟩ <;> exact between_of_within hends.1 hends.2 (by decide +kernel)

/-- Every row of the segment table over a raster of bytes has a frequency between 1000 and 2400 Hz. -/
theorem segmentFreq_tone {raster : Cells (Cells Pixel)} (hw : rasterWf raster = true) {g : Segment} {f : F64}
    (h : segmentFreq .binary64 raster g = .ok f) : ToneBetween f := by
  obtain ⟨hleader, hsync, hporch, hsep, hporchUv⟩ := fixedTones
  cases g with
  | leader1 | leader2 => cases h; exact hleader
  | headerBreak | headerStart | sync => cases h; exact hsync
  | porch => cases h; exact hporch
  | sep => cases h; exact hsep
  | porchUv => cases h; exact hporchUv
  | yScan line x =>
    cases hread : readRaster raster x line with
    | error e => simp [segmentFreq, bind, Except.bind, hread] at h
    | ok p =>
      simp only [segmentFreq, bind, Except.bind, hread, Except.ok.injEq] at h
      exact h ▸ (pixelTones (rasterWf_read hw hread) line).1
  | uvScan line x =>
    cases hread : readRaster raster x line with
    | error e => simp [segmentFreq, bind, Except.bind, hread] at h
    | ok p =>
      simp only [segmentFreq, bind, Except.bind, hread, Except.ok.injEq] at h
      exact h ▸ (pixelTones (rasterWf_read hw hread) line).2

/-! ## The oscillator's sample (43_phase_accumulator R175) -/

theorem sine_between (source : SineSource) (v : F64) : Between (neg F64.one) F64.one (sine source v) := by
  unfold sine
  split
  next h => exact unit_between h
  next => exact unit_between (by decide +kernel)

/-- The product of two values of [-1, 1] lies there too. -/
theorem mul_unit_between {a b : F64} (ha : Between (neg F64.one) F64.one a) (hb : Between (neg F64.one) F64.one b) :
    Between (neg F64.one) F64.one (F64.mul a b) := by
  have h1 := ha.lo_le
  have h2 := ha.le_hi
  have h3 := hb.lo_le
  have h4 := hb.le_hi
  rw [units_neg] at h1 h3
  obtain ⟨hfin, hlo, hhi⟩ := mul_between ha.finite hb.finite isFinite_neg_one isFinite_one
    (by rw [units_neg, ← units_one]; nlinarith) (by rw [← units_one]; nlinarith)
  exact ⟨isFinite_neg_one, isFinite_one, hfin, hlo, hhi⟩

theorem oscSample_unit {cfg : Config} (h : configOk cfg = true) (phase : F64) :
    within (neg F64.one) F64.one (oscSample cfg phase) = true := by
  unfold oscSample
  rw [configOk_num h]
  exact (mul_unit_between (configOk_amp h) (sine_between cfg.sine phase)).within

end Sys2Proof.Proofs
end

