-- ==== Sys2Proof/Proofs/State.lean ====
section
/-! PROOFS. The invariants of spec/10_state.md: the range of each register and array cell (R21 to R41) is kept by every step of the
machine, agent by agent. -/

namespace Sys2Proof.Proofs

open Sys2Proof Sys2Proof.Machine Sys2Proof.F64

/-! ## The decoder's arrays (10_state R30 to R33) -/

theorem memoryOk_reset : MemoryOk Memory.reset := ⟨rfl, rfl, rfl, rfl⟩

/-- What a buffer with cells in [0, 255] reads as. -/
theorem cellsGet_between {c : Cells F64} (x : Nat) (hw : cellsWf F64.zero width byteRange 0 c = true) :
    Between F64.zero kVmax (cellsGet F64.zero c x) := by
  rcases cellsGet_ok c x hw with h | h
  · rw [h]; exact ⟨isFinite_zero, isFinite_kVmax, isFinite_zero, le_refl _, by decide +kernel⟩
  · exact byteRange_iff.mp h

theorem cellsWf_setByte {c : Cells F64} {x : Nat} {v : F64} (hx : x < width) (hv : Between F64.zero kVmax v)
    (hw : cellsWf F64.zero width byteRange 0 c = true) : cellsWf F64.zero width byteRange 0 (cellsSet F64.zero c x v) = true :=
  cellsWf_set c x v (Nat.zero_le _) hx (fun _ => byteRange_iff.mpr hv) hw

theorem memoryOk_chromaSet {m : Memory} {line x : Nat} {v : F64} (hx : x < width) (hv : Between F64.zero kVmax v)
    (h : MemoryOk m) : MemoryOk (chromaSet m line x v) := by
  unfold chromaSet
  split
  · exact ⟨h.luma, cellsWf_setByte hx hv h.cr, h.cb, h.img⟩
  · exact ⟨h.luma, h.cr, cellsWf_setByte hx hv h.cb, h.img⟩

theorem scanPixel_between {cfg : Config} {m : Memory} (hnum : cfg.num = .binary64) (x : Nat) (h : MemoryOk m) :
    PixelBetween (scanPixel cfg m x) := by
  unfold scanPixel
  rw [hnum]
  exact quantise_between (yuv2rgb_between (cellsGet_between x h.luma) (cellsGet_between x h.cb) (cellsGet_between x h.cr))

/-- SCAN writes only values of [0, 255], and only inside the arrays (42 R153 to R157). -/
theorem memoryOk_scan {cfg : Config} {t freq : F64} {line : Nat} {m m' : Memory} {es : List Event} (hnum : cfg.num = .binary64)
    (hfreq : Between F64.zero kRateMax freq) (h : scanMemory cfg t freq line m = .ok (m', es)) (hm : MemoryOk m) : MemoryOk m' := by
  have hval : Between F64.zero kVmax (freq2val cfg.num freq) := by rw [hnum]; exact freq2val_byte hfreq
  rcases scanMemory_cases h with ⟨-, hcol, he⟩ | ⟨-, -, hcol, hline, he⟩ | ⟨he, -⟩ <;> cases he
  · exact ⟨cellsWf_setByte (columnInRange_toNat hcol) hval hm.luma, hm.cr, hm.cb, hm.img⟩
  · have hx := columnInRange_toNat hcol
    have hc := memoryOk_chromaSet (line := line) hx hval hm
    exact ⟨hc.luma, hc.cr, hc.cb, imgWf_set hx hline (fun _ => (scanPixel_between hnum _ hc).range) hm.img⟩
  · exact hm

theorem memoryOk_sampleTick {cfg : Config} {sr raw : F64} {d d' : Decoder} {es : List Event} (hnum : cfg.num = .binary64)
    (hfreq : Between F64.zero kRateMax (est cfg.num sr raw d).currentFreq) (h : sampleTick cfg sr raw d = .ok (d', es))
    (hm : MemoryOk d.mem) : MemoryOk d'.mem := by
  rcases sampleTick_cases h with ⟨-, he⟩ | ⟨-, he⟩ | ⟨-, m, es', hscan, he⟩ <;> obtain rfl := congrArg Prod.fst he
  · rw [armSearch_mem, est_mem]; exact hm
  · rw [armWait_mem, est_mem]; exact hm
  · rw [lineEnd_mem]; exact memoryOk_scan hnum hfreq hscan hm

/-! ## The line and its counter (10_state R28, R29) -/

theorem armWait_currentLine (d : Decoder) : (armWait d).1.currentLine = d.currentLine := by
  unfold armWait; split <;> rfl

/-- The end of a line moves to a line of the raster (41 R127, R128). -/
theorem lineEnd_currentLine (N : NumDomain) (sr : F64) {d : Decoder} (h : d.currentLine < height) :
    (lineEnd N sr d).1.currentLine < height := by
  rcases lineEnd_cases N sr d with ⟨-, -, he⟩ | ⟨-, hnext, he⟩ | ⟨-, -, he⟩ | ⟨-, -, he⟩ <;> rw [he]
  · exact Nat.zero_lt_of_lt h
  · exact hnext
  · rw [earlyResync_currentLine]; exact Nat.mod_lt _ (Nat.zero_lt_of_lt h)
  · exact h

theorem sampleTick_currentLine {cfg : Config} {sr raw : F64} {d d' : Decoder} {es : List Event}
    (h : sampleTick cfg sr raw d = .ok (d', es)) (hline : d.currentLine < height) : d'.currentLine < height := by
  rcases sampleTick_cases h with ⟨-, he⟩ | ⟨-, he⟩ | ⟨-, m, es', -, he⟩ <;> obtain rfl := congrArg Prod.fst he
  · rw [armSearch_currentLine, est_currentLine]; exact hline
  · rw [armWait_currentLine, est_currentLine]; exact hline
  · exact lineEnd_currentLine cfg.num sr (by rw [countLine_currentLine, est_currentLine]; exact hline)

/-- The threshold of the watchdog at an admitted rate is a finite value, not below zero. -/
theorem watchdogThreshold_between {sr : F64} (hsr : Between F64.one kRateMax sr) :
    Between F64.zero (F64.mul kWd kRateMax) (F64.mul kWd sr) := by
  have h : Between (F64.mul kWd F64.one) (F64.mul kWd kRateMax) (F64.mul kWd sr) := by
    refine hsr.mul_left ?_ ?_ ?_ ?_ <;> decide +kernel
  exact h.mono isFinite_zero h.hi_finite (by decide +kernel) (le_refl _)

/-- While the watchdog is not due the counter is at most floor(0.16 · sr) (41 R127). -/
theorem le_lastLineSample_of_not_due {sr : F64} {n : Nat} (hsr : Between F64.one kRateMax sr)
    (h : watchdogDue .binary64 sr n = false) : (n : Int) ≤ lastLineSample .binary64 sr := by
  have hfin := (watchdogThreshold_between hsr).finite
  refine le_floor_iff.mpr ?_
  simp only [watchdogDue, NumDomain.natGt_binary64, NumDomain.mul_binary64, natGt, isNaN_of_isFinite hfin, Bool.not_false,
    Bool.true_and, decide_eq_false_iff_not, not_lt, Nat.cast_mul] at h
  exact h

theorem lastLineSample_nonneg {sr : F64} (hsr : Between F64.one kRateMax sr) : 0 ≤ lastLineSample .binary64 sr := by
  refine le_floor_iff.mpr ?_
  rw [zero_mul, ← units_zero]
  exact (watchdogThreshold_between hsr).lo_le

/-- A tick that ends in Scanning has either started the line, with the counter at 0, or found the watchdog not due. -/
theorem sampleTick_lineCounter {cfg : Config} {sr raw : F64} {d d' : Decoder} {es : List Event} (hnum : cfg.num = .binary64)
    (hsr : Between F64.one kRateMax sr) (h : sampleTick cfg sr raw d = .ok (d', es)) (hscan : d'.syncState = .scanning) :
    (d'.samplesSinceLineStart : Int) ≤ lastLineSample .binary64 sr := by
  rcases sampleTick_cases h with ⟨hst, he⟩ | ⟨hst, he⟩ | ⟨-, m, es', -, he⟩ <;> obtain rfl := congrArg Prod.fst he
  · revert hscan
    unfold armSearch
    split
    · exact nofun
    · rw [est_syncState, hst]; exact nofun
  · revert hscan
    unfold armWait
    split
    · exact fun _ => lastLineSample_nonneg hsr
    · rw [est_syncState, hst]; exact nofun
  · revert hscan
    rcases lineEnd_cases cfg.num sr { countLine (est cfg.num sr raw d) with mem := m } with
      ⟨-, -, he⟩ | ⟨-, -, he⟩ | ⟨-, -, he⟩ | ⟨hdue, -, he⟩ <;> rw [he]
    · exact nofun
    · exact nofun
    · rw [earlyResync_syncState]; exact nofun
    · rw [hnum] at hdue ⊢
      exact fun _ => le_lastLineSample_of_not_due hsr hdue

/-- A tick leaves the counter within the threshold, whatever it was before. -/
theorem lineCounterOk_sampleTick {cfg : Config} {sr raw : F64} {d d' : Decoder} {es : List Event} (hnum : cfg.num = .binary64)
    (hrate : Between F64.one kRateMax sr) (hsr : d.sr = some sr) (h : sampleTick cfg sr raw d = .ok (d', es)) :
    lineCounterOk cfg.num d' := by
  intro sr' hsr' hscan
  rw [(sampleTick_sameEstimator h).sr, est_sr, hsr] at hsr'
  rw [← Option.some.inj hsr', hnum]
  exact sampleTick_lineCounter hnum hrate h hscan

/-! ## The decoder as a whole -/

/-- DC_BLOCK keeps the offset in [-1, 1] on every admitted sample (10_state R22). -/
theorem sampleTick_dcOffset {cfg : Config} {sr raw : F64} {d d' : Decoder} {es : List Event} (hnum : cfg.num = .binary64)
    (hraw : unitSample raw = true) (hdc : Between (neg F64.one) F64.one d.dcOffset) (h : sampleTick cfg sr raw d = .ok (d', es)) :
    Between (neg F64.one) F64.one d'.dcOffset := by
  rw [(sampleTick_sameEstimator h).dcOffset, est_dcOffset, hnum]
  exact dcBlockOffset_between (unitSample_between hraw) hdc

theorem sampleTick_previousValue {cfg : Config} {sr raw : F64} {d d' : Decoder} {es : List Event} (hnum : cfg.num = .binary64)
    (hraw : unitSample raw = true) (hdc : Between (neg F64.one) F64.one d.dcOffset) (h : sampleTick cfg sr raw d = .ok (d', es)) :
    Between (neg (decimal 2 0)) (decimal 2 0) d'.previousValue := by
  rw [(sampleTick_sameEstimator h).previousValue, est_previousValue, hnum]
  exact filtered_between (unitSample_between hraw) (dcBlockOffset_between (unitSample_between hraw) hdc)

theorem sampleTick_freqBounded {cfg : Config} {sr raw : F64} {d d' : Decoder} {es : List Event} (hnum : cfg.num = .binary64)
    (hsr : Between F64.one kRateMax sr) (hf : Between F64.zero kRateMax d.currentFreq) (h : sampleTick cfg sr raw d = .ok (d', es)) :
    FreqBounded sr d.currentFreq d'.currentFreq := by
  rw [(sampleTick_sameEstimator h).currentFreq, hnum]
  exact est_freqBounded hsr hf

theorem decoderOk_sampleTick {cfg : Config} {sr raw : F64} {d d' : Decoder} {es : List Event} (hcfg : configOk cfg = true)
    (hsr : d.sr = some sr) (hraw : unitSample raw = true) (h : sampleTick cfg sr raw d = .ok (d', es)) (hd : DecoderOk cfg d) :
    DecoderOk cfg d' := by
  have hnum := configOk_num hcfg
  have hrate := srAdmitted_between hcfg (hd.rate sr hsr)
  have hdc := unit_between hd.dc
  have hfreq := between_of_within isFinite_zero isFinite_kRateMax hd.freq
  have hfreq' := (sampleTick_freqBounded hnum hrate hfreq h).between
  have hsame := sampleTick_sameEstimator h
  exact
    { line := sampleTick_currentLine h hd.line
      rate := by rw [hsame.sr, est_sr]; exact hd.rate
      dc := (sampleTick_dcOffset hnum hraw hdc h).within
      previous := (sampleTick_previousValue hnum hraw hdc h).within
      freq := hfreq'.within
      mem := memoryOk_sampleTick hnum (hsame.currentFreq ▸ hfreq') h hd.mem }

theorem decoderOk_reset {cfg : Config} {d : Decoder} (k : Bool) (hd : DecoderOk cfg d) : DecoderOk cfg (decoderReset k d) where
  line := by rw [decoderReset_currentLine]; decide
  rate := hd.rate
  dc := by rw [decoderReset_dcOffset]; decide +kernel
  previous := by rw [decoderReset_previousValue]; decide +kernel
  freq := by rw [decoderReset_currentFreq]; decide +kernel
  mem := by
    rw [decoderReset_mem]
    cases k
    · exact memoryOk_reset
    · exact ⟨hd.mem.luma, hd.mem.cr, hd.mem.cb, rfl⟩

/-- Every move of the decoder keeps its invariant. -/
theorem decoderOk_next {cfg : Config} {d d' : Decoder} (hcfg : configOk cfg = true) (hd : DecoderOk cfg d)
    (h : DecoderNext cfg d d') : DecoderOk cfg d' := by
  cases h with
  | same => exact hd
  | reset => exact decoderOk_reset _ hd
  | rate hrate => exact ⟨hd.line, fun sr hsr => Option.some.inj hsr ▸ hrate, hd.dc, hd.previous, hd.freq, hd.mem⟩
  | tick hsr hraw htick => exact decoderOk_sampleTick hcfg hsr hraw htick hd

/-- Every move of the decoder keeps the offset in [-1, 1]: a sample by `dcBlockOffset_between`, and DEC_RESET clears it. -/
theorem dcOffset_next {cfg : Config} {d d' : Decoder} (hnum : cfg.num = .binary64) (hdc : Between (neg F64.one) F64.one d.dcOffset)
    (h : DecoderNext cfg d d') : Between (neg F64.one) F64.one d'.dcOffset := by
  cases h with
  | same => exact hdc
  | reset => rw [decoderReset_dcOffset]; exact unit_between (by decide +kernel)
  | rate => exact hdc
  | tick _ hraw htick => exact sampleTick_dcOffset hnum hraw hdc htick

/-- Every move that leaves DEC_SR as it was keeps the counter within the watchdog's threshold: DEC_RESET leaves Scanning, and a tick is
`lineCounterOk_sampleTick`. -/
theorem lineCounterOk_next {cfg : Config} {d d' : Decoder} (hcfg : configOk cfg = true) (hd : DecoderOk cfg d) (hsame : d'.sr = d.sr)
    (hcount : lineCounterOk cfg.num d) (h : DecoderNext cfg d d') : lineCounterOk cfg.num d' := by
  cases h with
  | same => exact hcount
  | reset => exact fun _ _ hscan => nomatch hscan
  | rate => exact fun sr hsr hscan => hcount sr (hsame ▸ hsr) hscan
  | tick hsr _ htick => exact lineCounterOk_sampleTick (configOk_num hcfg) (srAdmitted_between hcfg (hd.rate _ hsr)) hsr htick

/-- A completed DEC_SAMPLE has put the decoder that its tick makes into the state (41 R120). -/
theorem tickOf_sampleTick {sr : F64} {s t : State} (h : tickOf sr s t) : ∃ es, sampleTick s.cfg sr s.cmd.a0 s.dec = .ok (t.dec, es) := by
  obtain ⟨hsr, hraw, hexec⟩ := h
  change execDecSample s = .next t at hexec
  rcases execDecSample_cases s with ⟨hnone, -⟩ | ⟨_, -, hout, -⟩ | ⟨sr', d, es, hsr', -, htick, he⟩ | ⟨_, f, -, -, -, he⟩
  · cases hsr.symm.trans hnone
  · cases hraw.symm.trans hout
  · cases hsr.symm.trans hsr'
    cases he.symm.trans hexec
    exact ⟨es, htick⟩
  · cases he.symm.trans hexec

/-! ## The encoder as a whole (10_state R34 to R41) -/

theorem encoderOk_of_idle {cfg : Config} {e : Encoder} (hbusy : e.busy = false) (hout : e.outRev = []) : EncoderOk cfg e := by
  have absurdBusy {p : Prop} (h : e.busy = true) : p := absurd (hbusy.symm.trans h) nofun
  exact ⟨fun _ => hout, absurdBusy, absurdBusy, absurdBusy, absurdBusy, absurdBusy, absurdBusy⟩

theorem encoderOk_start {cfg : Config} {sr : F64} {raster : Cells (Cells Pixel)} (e : Encoder) (hrate : srAdmitted cfg sr = true)
    (hraster : rasterWf raster = true) : EncoderOk cfg (encodeStart cfg.num sr raster e) where
  idle := nofun
  segment _ := by rw [encodeStart_segIndex]; decide
  rate _ := hrate
  raster _ := hraster
  count _ := rfl
  samples _ := by rw [encodeStart_outRev]; exact nofun
  phase _ := phaseInTurn_zero

theorem encoderOk_cancel {cfg : Config} {e : Encoder} (he : EncoderOk cfg e) : EncoderOk cfg (encodeCancel e) := by
  unfold encodeCancel
  split
  · exact encoderOk_of_idle rfl rfl
  · exact he

theorem emitSample_frame {cfg : Config} {g : Segment} {e e' : Encoder} (h : emitSample cfg g e = .ok e') :
    e'.busy = e.busy ∧ e'.segIndex = e.segIndex := by
  rcases emitSample_cases h with ⟨-, rfl⟩ | ⟨-, f, v, p, -, -, rfl⟩ <;> exact ⟨rfl, rfl⟩

/-- One more sample, in [-1, 1], and a phase wrapped into [0, TWO_PI) (43 R174, R175). -/
theorem encoderOk_emitSample {cfg : Config} {g : Segment} {e e' : Encoder} (hcfg : configOk cfg = true) (hbusy : e.busy = true)
    (he : EncoderOk cfg e) (h : emitSample cfg g e = .ok e') : EncoderOk cfg e' := by
  rcases emitSample_cases h with ⟨-, rfl⟩ | ⟨-, f, v, p, hf, hosc, rfl⟩
  · exact he
  · have hnum := configOk_num hcfg
    have htone : ToneBetween f := segmentFreq_tone (he.raster hbusy) (by rw [← hnum]; exact hf)
    have hrate := srAdmitted_between hcfg (he.rate hbusy)
    have hsample : within (neg F64.one) F64.one v = true := by
      rw [(oscStep_ok_iff.mp hosc).2]; exact oscSample_unit hcfg _
    exact
      { idle := fun hidle => absurd (hidle.symm.trans hbusy) nofun
        segment := he.segment
        rate := he.rate
        raster := he.raster
        count := fun _ => by simp [he.count hbusy]
        samples := fun _ => List.forall_mem_cons.mpr ⟨hsample, he.samples hbusy⟩
        phase := fun _ => oscStep_phase hnum hrate htone (he.phase hbusy) hosc }

/-- The encode completes and drops its buffer, or the next row of the table becomes current (44 R194, R195). -/
theorem encoderOk_nextSegment {cfg : Config} {g : Segment} {old : Nat × Nat} {e e' : Encoder} {es : List Event}
    (he : EncoderOk cfg e) (h : nextSegment cfg g old e = .ok (e', es)) : EncoderOk cfg e' := by
  rcases nextSegment_cases h with ⟨-, hr⟩ | ⟨-, g', hg', hr⟩ <;> obtain rfl := congrArg Prod.fst hr
  · exact encoderOk_of_idle rfl rfl
  · exact ⟨he.idle, fun _ => segmentAt_lt hg', he.rate, he.raster, he.count, he.samples, he.phase⟩

theorem encoderOk_encStep {cfg : Config} {e e' : Encoder} {es : List Event} (hcfg : configOk cfg = true) (hbusy : e.busy = true)
    (he : EncoderOk cfg e) (h : encStep cfg e = .ok (e', es)) : EncoderOk cfg e' := by
  obtain ⟨g, e1, -, hemit, ⟨-, hnext⟩ | ⟨-, hr⟩⟩ := encStep_cases h
  · exact encoderOk_nextSegment (encoderOk_emitSample hcfg hbusy he hemit) hnext
  · cases hr; exact encoderOk_emitSample hcfg hbusy he hemit

/-- Every move of the encoder keeps its invariant. -/
theorem encoderOk_next {cfg : Config} {e e' : Encoder} (hcfg : configOk cfg = true) (he : EncoderOk cfg e)
    (h : EncoderNext cfg e e') : EncoderOk cfg e' := by
  cases h with
  | same => exact he
  | start hrate hraster => exact encoderOk_start e hrate hraster
  | cancel => exact encoderOk_cancel he
  | step hbusy hstep => exact encoderOk_encStep hcfg hbusy he hstep

/-! ## The statements of 10_state -/

/-- Settles O59: every step is a move of the decoder or of the encoder, and each move keeps its own agent's invariant. -/
theorem stepKeepsTheInvariant : Obligations.StepKeepsTheInvariant := by
  unfold Obligations.StepKeepsTheInvariant
  intro s t hinv hstep
  obtain ⟨hcfg, hdec, henc⟩ := step_agentsNext hstep
  refine ⟨?_, ?_, ?_⟩ <;> rw [hcfg]
  · exact hinv.cfg
  · exact decoderOk_next hinv.cfg hinv.dec hdec
  · exact encoderOk_next hinv.cfg hinv.enc henc

/-- Settles O14: the new frequency is the mean of the old one and of a quotient of at most sampleRate/11 (`smoothedFreq_bounded`), or the
old one. -/
theorem smoothedFrequencyIsBounded : Obligations.SmoothedFrequencyIsBounded := by
  unfold Obligations.SmoothedFrequencyIsBounded
  intro s t sr htick hnum hrate hfreq
  have hsr := between_of_within isFinite_one isFinite_kRateMax hrate
  have hold := between_of_within isFinite_zero isFinite_kRateMax hfreq
  obtain ⟨es, htick'⟩ := tickOf_sampleTick htick
  obtain ⟨hnew, hle⟩ := sampleTick_freqBounded hnum hsr hold htick'
  rw [le_iff isFinite_zero hnew.finite, le_iff hnew.finite hold.finite, le_iff hnew.finite (shortestPeriod_between hsr).1.finite]
  exact ⟨hnew.lo_le, hle⟩

/-- Settles O15: `dcOffset_next` for whatever the step makes of the decoder. -/
theorem dcOffsetStaysInUnitRange : Obligations.DcOffsetStaysInUnitRange := by
  unfold Obligations.DcOffsetStaysInUnitRange
  intro s t hstep hnum hdc
  exact (dcOffset_next hnum (unit_between hdc) (step_agentsNext hstep).dec).within

/-- Settles O23: `lineCounterOk_next` for whatever the step makes of the decoder. -/
theorem lineCounterStaysBelowTheWatchdog : Obligations.LineCounterStaysBelowTheWatchdog := by
  unfold Obligations.LineCounterStaysBelowTheWatchdog
  intro s t hinv hstep hsame hcount
  obtain ⟨hcfg, hdec, -⟩ := step_agentsNext hstep
  rw [hcfg]
  exact lineCounterOk_next hinv.cfg hinv.dec hsame hcount hdec

end Sys2Proof.Proofs
end

