-- ==== Sys2Proof/Proofs/Memory.lean ====
section
/-! PROOFS. The order of the host's commands and the event port (spec/20_memory.md R62, R68, R70, R71): which records each move puts on
the port, the decoder's arrays along every step, and the schedule of the encoder's steps, which the decoder never sees. -/

namespace Sys2Proof.Proofs

open Sys2Proof Sys2Proof.Machine

/-! ## The records that a command puts on the port -/

/-- The records of DEC_SAMPLE of the sample `raw` (41 R120): those of its tick, none where the command is refused. A tick that faults
leaves no next state, so its value here is read by nothing. -/
def sampleEvents (cfg : Config) (raw : F64) (d : Decoder) : List Event :=
  match d.sr with
  | none => []
  | some sr =>
    if unitSample raw then
      match sampleTick cfg sr raw d with
      | .ok (_, es) => es
      | .error _ => []
    else []

/-- The records of a command that completes: DEC_SAMPLE is the one command that emits (60 R252). `exec_events` ties it to `exec`. -/
def commandEvents (cfg : Config) (cmd : Command) (d : Decoder) : Instr → List Event
  | .decSample => sampleEvents cfg cmd.a0 d
  | .decReset | .decSetRate | .encEncode | .encCancel | .cvtRgb2yuv | .cvtYuv2rgb | .cvtVal2freq | .cvtFreq2val | .wavSerialize => []

/-- A command that is done or refused by one check, and emits nothing before its response, leaves the port. -/
theorem events_of_checked {s t u : State} {c : Prop} [Decidable c] {why : RefusalReason}
    (h : (if c then .next u else .next (s.refuse why) : Host.Outcome State Fault Refusal) = .next t) (hu : u.events = s.events) :
    t.events = s.events := by
  split at h
  · cases h; exact hu
  · cases h; exact State.refuse_events s why

theorem execDecSample_events {s t : State} (h : execDecSample s = .next t) :
    t.events = s.events ++ sampleEvents s.cfg s.cmd.a0 s.dec := by
  rcases execDecSample_cases s with ⟨hsr, he⟩ | ⟨sr, hsr, hu, he⟩ | ⟨sr, d, es, hsr, hu, htick, he⟩ | ⟨_, f, -, -, -, he⟩ <;>
    cases he.symm.trans h
  · simp [sampleEvents, hsr]
  · simp [sampleEvents, hsr, hu]
  · simp [sampleEvents, hsr, hu, htick]

theorem execEncEncode_events {s t : State} (h : execEncEncode s = .next t) : t.events = s.events := by
  rcases execEncEncode_cases s with ⟨-, he⟩ | ⟨-, -, he⟩ | ⟨-, -, -, he⟩ | ⟨-, -, -, -, he⟩ | ⟨-, -, -, _, -, he⟩ <;>
    (cases he.symm.trans h; rfl)

theorem execWavSerialize_events {s t : State} (h : execWavSerialize s = .next t) : t.events = s.events := by
  rcases execWavSerialize_cases s with ⟨-, he⟩ | ⟨_, -, -, he⟩ | ⟨_, -, -, he⟩ | ⟨_, -, -, -, -, he⟩ | ⟨_, -, -, -, -, he⟩ <;>
    (cases he.symm.trans h; rfl)

/-- A command that completes appends to the port what its operands and the decoder give, and reads nothing of the encoder or the port. -/
theorem exec_events {i : Instr} {s t : State} (h : exec i s = .next t) : t.events = s.events ++ commandEvents s.cfg s.cmd s.dec i := by
  cases i with
  | decSample => exact execDecSample_events h
  | decReset | encCancel => cases h; exact (List.append_nil _).symm
  | decSetRate | cvtRgb2yuv | cvtYuv2rgb | cvtVal2freq | cvtFreq2val =>
    exact (events_of_checked h rfl).trans (List.append_nil _).symm
  | encEncode => exact (execEncEncode_events h).trans (List.append_nil _).symm
  | wavSerialize => exact (execWavSerialize_events h).trans (List.append_nil _).symm

/-! ## The records that the encoder puts on the port -/

/-- A PROGRESS record is the encoder's (60 R252). -/
theorem progressEvents_not_decoder {period k : Nat} : ∀ e ∈ progressEvents period k, isDecoderEvent e = false := by
  unfold progressEvents
  split
  · split
    · simp [isDecoderEvent]
    · simp
  · simp

/-- ENC_STEP emits PROGRESS and ENC_DONE, no record of the decoder's (44 R194, R196, R197). -/
theorem encStep_not_decoder {cfg : Config} {e e' : Encoder} {es : List Event} (h : encStep cfg e = .ok (e', es)) :
    ∀ ev ∈ es, isDecoderEvent ev = false := by
  obtain ⟨g, e1, -, -, ⟨-, hnext⟩ | ⟨-, hr⟩⟩ := encStep_cases h
  · rcases nextSegment_cases hnext with ⟨-, hr⟩ | ⟨-, g', -, hr⟩ <;> cases hr
    · simp [isDecoderEvent]
    · exact progressEvents_not_decoder
  · cases hr; simp

/-- The encoder's move appends records of its own (44 R194). -/
theorem encoderMove_events {s t : State} (h : encoderMove s = .next t) :
    ∃ es, t.events = s.events ++ es ∧ ∀ ev ∈ es, isDecoderEvent ev = false := by
  rcases encoderMove_cases s with ⟨-, he⟩ | ⟨-, e, es, hstep, he⟩ | ⟨-, f, -, he⟩ <;> cases he.symm.trans h
  · exact ⟨[], (List.append_nil _).symm, by simp⟩
  · exact ⟨es, rfl, encStep_not_decoder hstep⟩

/-- The encoder's move leaves the configuration, the script and the command channel. -/
theorem encoderMove_fixed {s t : State} (h : encoderMove s = .next t) : sameFixed s t := by
  rcases encoderMove_cases s with ⟨-, he⟩ | ⟨-, e, es, -, he⟩ | ⟨-, f, -, he⟩ <;> cases he.symm.trans h <;> exact ⟨rfl, rfl, rfl⟩

/-! ## The port as a queue -/

/-- Every step but a read appends (R71). -/
theorem step_appends {s t : State} (h : step s = .next t) (hread : ∀ rest, s.script ≠ .readEvent :: rest) :
    ∃ es, t.events = s.events ++ es := by
  rcases step_cases s with ⟨c, rest, i, -, -, he⟩ | ⟨c, rest, x, -, -, he⟩ | ⟨rest, he⟩ | ⟨rest, hs, -⟩ | ⟨rest, -, -, he⟩
  · exact ⟨_, exec_events (s := s.present c rest) (he.symm.trans h)⟩
  · cases he.symm.trans h; exact ⟨[], (List.append_nil _).symm⟩
  · obtain ⟨es, happ, -⟩ := encoderMove_events (he.symm.trans h)
    exact ⟨es, happ⟩
  · exact absurd hs (hread rest)
  · cases he.symm.trans h; exact ⟨[], (List.append_nil _).symm⟩

/-- `WAIT ENC_DONE` is over exactly with an ENC_DONE record on the port or a cancelled encode (30 R87). -/
theorem waitOver_iff {s : State} : waitOver s = true ↔ (∃ buf, .encDone buf ∈ s.events) ∨ s.cancelled = true := by
  have hdone : s.events.any isEncDone = true ↔ ∃ buf, .encDone buf ∈ s.events := by
    rw [List.any_eq_true]
    constructor
    · rintro ⟨e, hmem, he⟩
      cases e with
      | encDone buf => exact ⟨buf, hmem⟩
      | lineStart _ | pixel _ _ _ | frameComplete _ | progress _ _ => cases he
    · rintro ⟨buf, hmem⟩
      exact ⟨_, hmem, rfl⟩
  rw [waitOver, Bool.or_eq_true, hdone]

/-! ## The decoder under two schedules -/

/-- The decoder's side of two states is one: the agent, the configuration it reads and the records it has put on the port. -/
structure SameDecoder (s s' : State) : Prop where
  cfg : s'.cfg = s.cfg
  dec : s'.dec = s.dec
  events : s'.events.filter isDecoderEvent = s.events.filter isDecoderEvent

/-- The encoder's move leaves the decoder's side (R70). -/
theorem encoderMove_sameDecoder {s t : State} (h : encoderMove s = .next t) : SameDecoder t s := by
  obtain ⟨hcfg, -, -⟩ := encoderMove_fixed h
  obtain ⟨hdec, -, -, -⟩ := encoderMove_frame h
  obtain ⟨es, happ, hes⟩ := encoderMove_events h
  have hnone : es.filter isDecoderEvent = [] := List.filter_eq_nil_iff.mpr fun ev hev => by simp [hes ev hev]
  exact ⟨hcfg.symm, hdec.symm, by rw [happ, List.filter_append, hnone, List.append_nil]⟩

theorem SameDecoder.trans {s t u : State} (h : SameDecoder s t) (h' : SameDecoder t u) : SameDecoder s u :=
  ⟨h'.cfg.trans h.cfg, h'.dec.trans h.dec, h'.events.trans h.events⟩

/-- One instruction with one set of operands makes the same of the decoder's side, whatever the encoder is. -/
theorem exec_sameDecoder {i : Instr} {s s' t t' : State} (hsame : SameDecoder s s') (hcmd : s'.cmd = s.cmd)
    (h : exec i s = .next t) (h' : exec i s' = .next t') : SameDecoder t t' := by
  obtain ⟨hcfg, hdec, hevents⟩ := hsame
  refine ⟨?_, ?_, ?_⟩
  · rw [(exec_fixed h').1, (exec_fixed h).1, hcfg]
  · rw [(exec_actsOnAgents h').dec, (exec_actsOnAgents h).dec, hcfg, hcmd, hdec]
  · rw [exec_events h', exec_events h, hcfg, hcmd, hdec, List.filter_append, List.filter_append, hevents]

/-- A command word runs alike on one decoder's side, be it an instruction's or an illegal one (30 R82). -/
theorem runCommand_sameDecoder {s s' t t' : State} (hsame : SameDecoder s s') (hcmd : s'.cmd = s.cmd)
    (h : runCommand s = .next t) (h' : runCommand s' = .next t') : SameDecoder t t' := by
  cases hdecode : decode s.cmd.word with
  | ok i =>
    rw [runCommand_ok hdecode] at h
    rw [runCommand_ok (hcmd ▸ hdecode)] at h'
    exact exec_sameDecoder hsame hcmd h h'
  | error x =>
    rw [runCommand_error hdecode] at h
    rw [runCommand_error (hcmd ▸ hdecode)] at h'
    cases h; cases h'
    exact ⟨hsame.cfg, hsame.dec, hsame.events⟩

/-- A command writes neither the configuration nor the script nor the command channel, be its word legal or not. -/
theorem runCommand_fixed {s t : State} (h : runCommand s = .next t) : sameFixed s t := by
  cases hdecode : decode s.cmd.word with
  | ok i => exact exec_fixed ((runCommand_ok hdecode).symm.trans h)
  | error x => cases (runCommand_error hdecode).symm.trans h; exact sameFixed_respond s _

/-- The next command of two scripts, taken from one decoder's side, leaves one decoder's side and the rest of each script. -/
theorem step_command_sameDecoder {s s' t t' : State} {c : Command} {rest rest' : List HostMove} (hsame : SameDecoder s s')
    (hs : s.script = .command c :: rest) (hs' : s'.script = .command c :: rest') (h : step s = .next t) (h' : step s' = .next t') :
    SameDecoder t t' ∧ t.script = rest ∧ t'.script = rest' := by
  rw [step_command hs] at h
  rw [step_command hs'] at h'
  obtain ⟨-, hrest, -⟩ := runCommand_fixed h
  obtain ⟨-, hrest', -⟩ := runCommand_fixed h'
  have hpresent : SameDecoder (s.present c rest) (s'.present c rest') := ⟨hsame.cfg, hsame.dec, hsame.events⟩
  exact ⟨runCommand_sameDecoder hpresent rfl h h', hrest, hrest'⟩

/-- An encoder step of the script leaves the decoder's side and the rest of the script. -/
theorem step_encStep_sameDecoder {s t : State} {rest : List HostMove} (hs : s.script = .encStep :: rest) (h : step s = .next t) :
    SameDecoder t s ∧ t.script = rest := by
  rw [step_encStep hs] at h
  obtain ⟨hcfg, hdec, hevents⟩ := encoderMove_sameDecoder h
  obtain ⟨-, hrest, -⟩ := encoderMove_fixed h
  exact ⟨⟨hcfg, hdec, hevents⟩, hrest⟩

/-- Two runs from one decoder's side, of commands with encoder steps between them and of the commands alone, end in one decoder's side:
by induction over the moves, with each encoder step on the first run only. -/
theorem run_sameDecoder {moves : List HostMove} {s s' t t' : State} (hmoves : ∀ m ∈ moves, isCommand m = true ∨ m = .encStep)
    (hs : s.script = moves) (hs' : s'.script = moves.filter isCommand) (hsame : SameDecoder s s')
    (hrun : Sys2Proof.core.run moves.length s = .next t)
    (hrun' : Sys2Proof.core.run (moves.filter isCommand).length s' = .next t') : SameDecoder t t' := by
  induction moves generalizing s s' with
  | nil =>
    cases hrun; cases hrun'
    exact hsame
  | cons m rest ih =>
    have hmoves_rest : ∀ m ∈ rest, isCommand m = true ∨ m = .encStep := fun m hm => hmoves m (.tail _ hm)
    obtain ⟨u, hstep, hrest_run⟩ := run_succ hrun
    cases m with
    | command c =>
      rw [List.filter_cons_of_pos rfl] at hs' hrun'
      obtain ⟨u', hstep', hrest_run'⟩ := run_succ hrun'
      obtain ⟨hu, hrest, hrest'⟩ := step_command_sameDecoder hsame hs hs' hstep hstep'
      exact ih hmoves_rest hrest hrest' hu hrest_run hrest_run'
    | encStep =>
      rw [List.filter_cons_of_neg (by simp [isCommand])] at hs' hrun'
      obtain ⟨hu, hrest⟩ := step_encStep_sameDecoder hs hstep
      exact ih hmoves_rest hrest hs' (hu.trans hsame) hrest_run hrun'
    | readEvent | waitEncDone => exact absurd (hmoves _ (.head _)) (by simp [isCommand])

/-! ## The statements of 20_memory -/

/-- Settles O36: the two runs start with one decoder's side, and `run_sameDecoder` keeps it. -/
theorem decoderDoesNotDependOnTheSchedule : Obligations.DecoderDoesNotDependOnTheSchedule := by
  unfold Obligations.DecoderDoesNotDependOnTheSchedule
  intro s t t' hmoves hrun hrun'
  have hsame : SameDecoder s { s with script := s.script.filter isCommand } := ⟨rfl, rfl, rfl⟩
  obtain ⟨-, hdec, hevents⟩ := run_sameDecoder hmoves rfl rfl hsame hrun hrun'
  exact ⟨hdec, hevents⟩

/-- Settles O6: a read drops the head of the port, and `step_appends` covers every other move. -/
theorem eventPortIsAQueue : Obligations.EventPortIsAQueue := by
  unfold Obligations.EventPortIsAQueue
  intro s t h
  by_cases hread : ∃ rest, s.script = .readEvent :: rest
  · obtain ⟨rest, hs⟩ := hread
    cases (step_readEvent hs).symm.trans h
    exact .inl ⟨rest, hs, rfl⟩
  · have hother : ∀ rest, s.script ≠ .readEvent :: rest := fun rest hs => hread ⟨rest, hs⟩
    exact .inr ⟨hother, step_appends h hother⟩

/-- Settles O29: a step keeps the arrays, resets them, or passes them through one sample tick. -/
theorem stepKeepsTheMemoryForm : Obligations.StepKeepsTheMemoryForm := by
  unfold Obligations.StepKeepsTheMemoryForm
  intro s t h hw
  obtain ⟨-, hdec, -⟩ := step_agentsNext h
  generalize t.dec = d at hdec ⊢
  cases hdec with
  | same => exact hw
  | reset => exact Memory.wf_decoderReset _ _ hw
  | rate => exact hw
  | tick _ _ htick => exact Memory.wf_sampleTick htick hw

/-- Settles O1: the command is presented on the channel and its word selects the instruction. -/
theorem stepRunsTheDecodedCommand : Obligations.StepRunsTheDecodedCommand := by
  unfold Obligations.StepRunsTheDecodedCommand
  intro s c rest i hs hdecode
  rw [step_command hs]
  exact runCommand_ok (s := s.present c rest) hdecode

/-- Settles O5: the step's law for each of these moves, with `waitOver_iff` for the wait. -/
theorem movesThatTakeNoCommand : Obligations.MovesThatTakeNoCommand := by
  unfold Obligations.MovesThatTakeNoCommand
  intro s rest
  refine ⟨step_readEvent, step_encStep, fun hs hover => ?_, fun hs hblocked => ?_, step_nil, encoderMove_idle,
    fun hbusy e es hstep => encoderMove_busy hbusy hstep⟩
  · rw [step_waitEncDone hs, if_pos (waitOver_iff.mpr hover)]
  · have hwait : step s = encoderMove s := by
      rw [step_waitEncDone hs, if_neg (waitOver_iff.not.mpr hblocked)]
    exact ⟨hwait, fun hidle => hwait.trans (encoderMove_idle hidle)⟩

end Sys2Proof.Proofs
end

