-- ==== Sys2Proof/Proofs/Encoding.lean ====
section
/-! PROOFS. Command words (spec/30_encoding.md R81 to R85): a word with RSVD 0 is assembled from its own UNIT and FUNC, so the decoder
and the encoder are inverse to each other, and every other word is ILLEGAL_COMMAND (60_exceptions R251). -/

namespace Sys2Proof.Proofs

open Sys2Proof Sys2Proof.Machine

/-! ## The fields of a word (30_encoding R81) -/

/-- A word with no reserved bit set is the one its UNIT and FUNC spell. -/
theorem assembleWord_fields {w : CmdWord} (h : wordRsvd w = 0) : assembleWord (wordUnit w) (wordFunc w) = w := by
  have joined : w.extractLsb' 28 4 ++ w.extractLsb' 24 4 = w.extractLsb' 24 8 :=
    BitVec.extractLsb'_append_extractLsb'_eq_extractLsb' (by rfl)
  have whole : w.extractLsb' 24 8 ++ w.extractLsb' 0 24 = w :=
    (BitVec.extractLsb'_append_extractLsb'_eq_extractLsb' (by rfl)).trans BitVec.extractLsb'_eq_self
  calc assembleWord (wordUnit w) (wordFunc w)
    _ = w.extractLsb' 28 4 ++ w.extractLsb' 24 4 ++ wordRsvd w := by rw [h]; rfl
    _ = w := by rw [joined]; exact whole

theorem assembleWord_congr {u f u' f' : BitVec 4} (hu : u.toNat = u'.toNat) (hf : f.toNat = f'.toNat) :
    assembleWord u f = assembleWord u' f' := by
  rw [BitVec.eq_of_toNat_eq hu, BitVec.eq_of_toNat_eq hf]

/-! ## Decoding and encoding (30_encoding R82, R84, R85) -/

/-- The word of the row of R84's table that UNIT and FUNC select: the ten rows one by one, no instruction outside them. -/
theorem assembleWord_eq_encode {u f : BitVec 4} {i : Instr} (h : decodeFields u f = .ok i) : assembleWord u f = encode i := by
  unfold decodeFields at h
  split at h <;> cases h <;> exact assembleWord_congr (by assumption) (by assumption)

theorem encodedFields : ∀ i : Instr, Laws.EncodedFields.Statement i
  | .decReset => Laws.EncodedFields.decReset
  | .decSetRate => Laws.EncodedFields.decSetRate
  | .decSample => Laws.EncodedFields.decSample
  | .encEncode => Laws.EncodedFields.encEncode
  | .encCancel => Laws.EncodedFields.encCancel
  | .cvtRgb2yuv => Laws.EncodedFields.cvtRgb2yuv
  | .cvtYuv2rgb => Laws.EncodedFields.cvtYuv2rgb
  | .cvtVal2freq => Laws.EncodedFields.cvtVal2freq
  | .cvtFreq2val => Laws.EncodedFields.cvtFreq2val
  | .wavSerialize => Laws.EncodedFields.wavSerialize

theorem decode_eq_ok_iff {w : CmdWord} {i : Instr} :
    decode w = .ok i ↔ wordRsvd w = 0 ∧ decodeFields (wordUnit w) (wordFunc w) = .ok i := by
  unfold decode
  by_cases hr : wordRsvd w = 0
  · rw [if_pos hr, and_iff_right hr]
  · rw [if_neg hr]
    exact iff_of_false (by simp) fun ⟨hrsvd, _⟩ => hr hrsvd

theorem decode_encode (i : Instr) : decode (encode i) = .ok i := decode_eq_ok_iff.mpr (encodedFields i)

theorem eq_encode_of_decode {w : CmdWord} {i : Instr} (h : decode w = .ok i) : w = encode i := by
  obtain ⟨hrsvd, hfields⟩ := decode_eq_ok_iff.mp h
  exact (assembleWord_fields hrsvd).symm.trans (assembleWord_eq_encode hfields)

/-- Two instructions with one word are the same, since the word decodes to both. -/
theorem encode_injective : Function.Injective encode := fun i j h =>
  Except.ok.inj ((decode_encode i).symm.trans (h ▸ decode_encode j))

/-! ## Words that spell no command (60_exceptions R251) -/

theorem onlyStatus_raise (s : State) (st : Status) : onlyStatus s (s.raise st) st :=
  ⟨⟨rfl, rfl, rfl, rfl, rfl⟩, rfl, _, State.raise_resp s st, rfl⟩

/-- Presenting a command writes the channel and the script alone, which no status compares. -/
theorem onlyStatus_present {s t : State} {c : Command} {rest : List HostMove} {st : Status} (h : onlyStatus (s.present c rest) t st) :
    onlyStatus s t st := h

/-! ## The statements of 30_encoding -/

/-- Settles O2: a decoded word is put together again from its fields, and an instruction's word holds its own row. -/
theorem decodeInvertsEncode : Obligations.DecodeInvertsEncode := by
  unfold Obligations.DecodeInvertsEncode
  exact fun w i => ⟨eq_encode_of_decode, fun h => h ▸ decode_encode i⟩

/-- Settles O3: a word that decodes is its instruction's and no other's; one that does not is no instruction's word. -/
theorem everyWordRunsOneCommandOrIsIllegal : Obligations.EveryWordRunsOneCommandOrIsIllegal := by
  unfold Obligations.EveryWordRunsOneCommandOrIsIllegal
  intro s c rest hs
  cases hd : decode c.word with
  | ok i =>
    have hword : c.word = encode i := eq_encode_of_decode hd
    exact .inl ⟨i, hword, fun j hj => encode_injective (hj.symm.trans hword), stepRunsTheDecodedCommand s c rest i hs hd⟩
  | error x =>
    have hstep : step s = illegalWord (s.present c rest) :=
      (step_command hs).trans (runCommand_error (s := s.present c rest) hd)
    have hnone : ∀ i, c.word ≠ encode i := fun i hword => by
      rw [hword, decode_encode] at hd
      cases hd
    exact .inr ⟨hnone, _, hstep, onlyStatus_present (onlyStatus_raise _ _), rfl⟩

/-- Settles O4: each printed word is its instruction's word. -/
theorem tableWordsDecode : Obligations.TableWordsDecode := by
  unfold Obligations.TableWordsDecode
  exact ⟨decode_encode .decReset, decode_encode .decSetRate, decode_encode .decSample, decode_encode .encEncode,
    decode_encode .encCancel, decode_encode .cvtRgb2yuv, decode_encode .cvtYuv2rgb, decode_encode .cvtVal2freq,
    decode_encode .cvtFreq2val, decode_encode .wavSerialize⟩

end Sys2Proof.Proofs
end

/-! PROOFS. The estimator (spec/40_frequency_estimator.md R102 to R106): the state machine and SCAN write none of its registers, so after
an admitted sample each holds what EST's own equation (Laws/Decoder.lean) says of it. -/

namespace Sys2Proof.Proofs

open Sys2Proof Sys2Proof.Machine

/-! ## The counters of the estimator -/

/-- The counters of EST, beside the registers of `SameEstimator`: the state machine reads the streak and writes neither. -/
structure SameCounters (d d' : Decoder) : Prop where
  samplesSinceCrossing : d'.samplesSinceCrossing = d.samplesSinceCrossing
  syncStreak : d'.syncStreak = d.syncStreak

theorem armWait_sameCounters (d : Decoder) : SameCounters d (armWait d).1 := by
  unfold armWait
  split <;> exact ⟨rfl, rfl⟩

theorem lineEnd_sameCounters (N : NumDomain) (sr : F64) (d : Decoder) : SameCounters d (lineEnd N sr d).1 := by
  rcases lineEnd_cases N sr d with ⟨-, -, h⟩ | ⟨-, -, h⟩ | ⟨-, -, h⟩ | ⟨-, -, h⟩ <;> rw [h] <;> exact ⟨rfl, rfl⟩

/-- After a tick the counters hold what EST left in them, whichever arm ran (41 R120, R122). -/
theorem sampleTick_sameCounters {cfg : Config} {sr raw : F64} {d d' : Decoder} {es : List Event}
    (h : sampleTick cfg sr raw d = .ok (d', es)) : SameCounters (est cfg.num sr raw d) d' := by
  rcases sampleTick_cases h with ⟨-, he⟩ | ⟨-, he⟩ | ⟨-, m, es', -, he⟩ <;> obtain rfl := congrArg Prod.fst he
  · exact ⟨armSearch_samplesSinceCrossing _, armSearch_syncStreak _⟩
  · exact armWait_sameCounters _
  · obtain ⟨hcross, hstreak⟩ := lineEnd_sameCounters cfg.num sr { countLine (est cfg.num sr raw d) with mem := m }
    exact ⟨hcross, hstreak⟩

/-! ## The registers after an admitted sample -/

section Tick

variable {sr : F64} {s t : State}

theorem tickOf_sameEstimator (h : tickOf sr s t) : SameEstimator (est s.cfg.num sr s.cmd.a0 s.dec) t.dec := by
  obtain ⟨_, htick⟩ := tickOf_sampleTick h
  exact sampleTick_sameEstimator htick

theorem tickOf_sameCounters (h : tickOf sr s t) : SameCounters (est s.cfg.num sr s.cmd.a0 s.dec) t.dec := by
  obtain ⟨_, htick⟩ := tickOf_sampleTick h
  exact sampleTick_sameCounters htick

/-- DC_BLOCK (40 R102). -/
theorem tickOf_dcOffset (h : tickOf sr s t) : t.dec.dcOffset = dcBlockOffset s.cfg.num s.cmd.a0 s.dec.dcOffset := by
  rw [(tickOf_sameEstimator h).dcOffset, est_dcOffset]

/-- The filtered value comes from the new offset (40 R102, R104). -/
theorem tickOf_previousValue (h : tickOf sr s t) : t.dec.previousValue = s.cfg.num.sub s.cmd.a0 t.dec.dcOffset := by
  rw [(tickOf_sameEstimator h).previousValue, est_previousValue, tickOf_dcOffset h]

/-- COUNT, and the restart at a crossing (40 R103, R104). -/
theorem tickOf_samplesSinceCrossing (h : tickOf sr s t) :
    t.dec.samplesSinceCrossing =
      if risingCrossing s.cfg.num (s.cfg.num.sub s.cmd.a0 t.dec.dcOffset) s.dec.previousValue then 0
      else s.dec.samplesSinceCrossing + 1 := by
  rw [(tickOf_sameCounters h).samplesSinceCrossing, est_counter, tickOf_dcOffset h]

/-- FREQ_UPDATE at a crossing whose period is accepted (40 R104, R105). -/
theorem tickOf_currentFreq (h : tickOf sr s t) :
    t.dec.currentFreq =
      if risingCrossing s.cfg.num (s.cfg.num.sub s.cmd.a0 t.dec.dcOffset) s.dec.previousValue = true ∧
          kCycLo < s.dec.samplesSinceCrossing + 1 ∧ s.dec.samplesSinceCrossing + 1 < kCycHi then
        smoothedFreq s.cfg.num sr s.dec.currentFreq (s.dec.samplesSinceCrossing + 1)
      else s.dec.currentFreq := by
  rw [(tickOf_sameEstimator h).currentFreq, est_freq, tickOf_dcOffset h, ← ite_and]

/-- BAND reads the new frequency (40 R106). -/
theorem tickOf_syncStreak (h : tickOf sr s t) :
    t.dec.syncStreak = if inBand s.cfg.num t.dec.currentFreq then s.dec.syncStreak + 1 else 0 := by
  rw [(tickOf_sameCounters h).syncStreak, est_streak, (tickOf_sameEstimator h).currentFreq]

end Tick

/-! ## The statements of 40_frequency_estimator -/

/-- Settles O11: the tick's offset is DC_BLOCK's, and its filtered value comes from that offset. -/
theorem estimatorBlocksDc : Obligations.EstimatorBlocksDc := by
  unfold Obligations.EstimatorBlocksDc
  exact fun s t sr h => ⟨tickOf_dcOffset h, tickOf_previousValue h⟩

/-- Settles O12: the three registers of COUNT, CROSS and FREQ_UPDATE, each by its equation after a tick. -/
theorem estimatorCountsRisingCrossings : Obligations.EstimatorCountsRisingCrossings := by
  unfold Obligations.EstimatorCountsRisingCrossings
  exact fun s t sr h => ⟨tickOf_samplesSinceCrossing h, tickOf_previousValue h, tickOf_currentFreq h⟩

/-- Settles O13: BAND's equation after a tick. -/
theorem syncStreakCountsTicksInBand : Obligations.SyncStreakCountsTicksInBand := by
  unfold Obligations.SyncStreakCountsTicksInBand
  exact fun s t sr h => tickOf_syncStreak h

end Sys2Proof.Proofs

/-! PROOFS. The sync state machine (spec/41_sync_state_machine.md R120 to R131): what a completed tick is in each of the three states, the
transitions of syncState over every step, and the records of a tick, at most one because the watchdog's threshold lies past the windows. -/

namespace Sys2Proof.Proofs

open Sys2Proof Sys2Proof.Machine Sys2Proof.F64

/-! ## What DEC_SET_RATE and DEC_SAMPLE answer (R120, R131) -/

theorem statusIs_returns (s : State) (st : Status) : statusIs (s.returns st) st := ⟨_, State.returns_resp s st, rfl⟩

theorem refusedWith_refuse (s : State) (why : RefusalReason) : refusedWith s (s.refuse why) why := by
  refine ⟨⟨rfl, rfl, rfl, rfl, rfl⟩, ?_⟩
  rw [State.refuse_refused]
  cases s.refused <;> rfl

/-- Settles O9: the one check of DEC_SET_RATE, passed or failed. -/
theorem decSetRateResult : Obligations.DecSetRateResult := by
  unfold Obligations.DecSetRateResult
  refine fun s => ⟨fun hrate => ?_, fun hrate => ?_⟩
  · have hexec : exec .decSetRate s = .next (State.returns { s with dec := { s.dec with sr := some s.cmd.a0 } } .ok) := if_pos hrate
    refine ⟨_, hexec, statusIs_returns _ _, rfl, rfl, rfl, rfl, rfl, rfl, fun hsame => ?_⟩
    rw [State.returns_dec, ← hsame]
  · have hexec : exec .decSetRate s = .next (s.refuse .refRate) := if_neg (Bool.eq_false_iff.mp hrate)
    exact ⟨_, hexec, refusedWith_refuse s .refRate⟩

/-- DEC_SAMPLE of an admitted sample whose tick completes (R120). -/
theorem exec_decSample_of_tick {s : State} {sr : F64} {d : Decoder} {es : List Event} (hsr : s.dec.sr = some sr)
    (hraw : unitSample s.cmd.a0 = true) (htick : sampleTick s.cfg sr s.cmd.a0 s.dec = .ok (d, es)) :
    exec .decSample s = .next (State.returns { s.emit es with dec := d } .ok) := by
  simp only [exec, execDecSample, hsr, hraw, htick, if_true]

/-- Settles O10: a tick on a line of the raster never faults (`sampleTick_ok`). -/
theorem decSampleCompletes : Obligations.DecSampleCompletes := by
  unfold Obligations.DecSampleCompletes
  intro s sr hsr hraw hline
  obtain ⟨⟨d, es⟩, htick⟩ := sampleTick_ok s.cfg sr s.cmd.a0 s.dec hline
  have hsr' : d.sr = some sr := by rw [(sampleTick_sameEstimator htick).sr, est_sr, hsr]
  exact ⟨_, es, exec_decSample_of_tick hsr hraw htick, statusIs_returns _ _, rfl, rfl, rfl, rfl, rfl, hsr'⟩

/-! ## The arms of the state machine (R123 to R128) -/

theorem armSearch_syncState (d : Decoder) :
    (armSearch d).syncState = if d.syncStreak > kStreakOn then .waitSyncEnd else d.syncState := by
  unfold armSearch
  split <;> rfl

/-- ARM_WAIT below the streak that ends the pulse (R124). -/
theorem armWait_of_lt {d : Decoder} (h : d.syncStreak < kStreakOff) :
    armWait d = ({ d with syncState := .scanning, samplesSinceLineStart := 0 }, [.lineStart d.currentLine]) := if_pos h

theorem armWait_of_not_lt {d : Decoder} (h : ¬d.syncStreak < kStreakOff) : armWait d = (d, []) := if_neg h

/-- The decoder that meets the end of ARM_SCAN (R125, R126): EST's, with the line's counter one on and the arrays that SCAN left. -/
def scannedDecoder (N : NumDomain) (sr raw : F64) (d : Decoder) (m : Memory) : Decoder := { countLine (est N sr raw d) with mem := m }

theorem scannedDecoder_samplesSinceLineStart (N : NumDomain) (sr raw : F64) (d : Decoder) (m : Memory) :
    (scannedDecoder N sr raw d m).samplesSinceLineStart = d.samplesSinceLineStart + 1 :=
  congrArg (· + 1) (est_samplesSinceLineStart N sr raw d)

theorem scannedDecoder_currentLine (N : NumDomain) (sr raw : F64) (d : Decoder) (m : Memory) :
    (scannedDecoder N sr raw d m).currentLine = d.currentLine := est_currentLine N sr raw d

theorem scannedDecoder_syncState (N : NumDomain) (sr raw : F64) (d : Decoder) (m : Memory) :
    (scannedDecoder N sr raw d m).syncState = d.syncState := est_syncState N sr raw d

theorem lineEnd_samplesSinceLineStart (N : NumDomain) (sr : F64) (d : Decoder) :
    (lineEnd N sr d).1.samplesSinceLineStart = d.samplesSinceLineStart := by
  rcases lineEnd_cases N sr d with ⟨-, -, h⟩ | ⟨-, -, h⟩ | ⟨-, -, h⟩ | ⟨-, -, h⟩ <;> exact congrArg (·.1.samplesSinceLineStart) h

theorem earlyResyncDue_iff {N : NumDomain} {sr : F64} {n streak : Nat} :
    earlyResyncDue N sr n streak = true ↔ N.natGt n (N.mul kEr sr) = true ∧ streak > kStreakOn := by
  rw [earlyResyncDue, Bool.and_eq_true, decide_eq_true_eq]

/-- What R125 asks of the end of a line at the counter n: the decoder becomes d', and the port, `before` until then, `after`. -/
def LineEnds (N : NumDomain) (sr : F64) (n streak : Nat) (d d' : Decoder) (before after : List Event) : Prop :=
  if watchdogDue N sr n = true then
    d'.syncState = .searchingSync
    ∧ if height ≤ d.currentLine + 1 then d'.currentLine = 0 ∧ after = before ++ [.frameComplete d.mem.img]
      else d'.currentLine = d.currentLine + 1 ∧ after = before
  else if N.natGt n (N.mul kEr sr) = true ∧ streak > kStreakOn then
    d'.syncState = .waitSyncEnd ∧ d'.currentLine = (d.currentLine + 1) % height ∧ after = before
  else d'.syncState = d.syncState ∧ d'.currentLine = d.currentLine ∧ after = before

theorem lineEnd_lineEnds (N : NumDomain) (sr : F64) (d : Decoder) (before : List Event) :
    LineEnds N sr d.samplesSinceLineStart d.syncStreak d (lineEnd N sr d).1 before (before ++ (lineEnd N sr d).2) := by
  unfold LineEnds
  rcases lineEnd_cases N sr d with ⟨hdue, hlast, he⟩ | ⟨hdue, hnext, he⟩ | ⟨hdue, hearly, he⟩ | ⟨hdue, hearly, he⟩ <;> rw [he]
  · rw [if_pos hdue, if_pos hlast]; exact ⟨rfl, rfl, rfl⟩
  · rw [if_pos hdue, if_neg (not_le_of_gt hnext)]; exact ⟨rfl, rfl, List.append_nil _⟩
  · rw [if_neg (Bool.eq_false_iff.mp hdue), if_pos (earlyResyncDue_iff.mp hearly)]; exact ⟨rfl, rfl, List.append_nil _⟩
  · rw [if_neg (Bool.eq_false_iff.mp hdue), if_neg (earlyResyncDue_iff.not.mp (Bool.eq_false_iff.mp hearly))]
    exact ⟨rfl, rfl, List.append_nil _⟩

/-! ## A completed tick in each state (R120, R122) -/

section Tick

variable {sr : F64} {s t : State}

/-- A completed DEC_SAMPLE has made one tick of the decoder and put its records on the port. -/
theorem tickOf_tick (h : tickOf sr s t) :
    ∃ es, sampleTick s.cfg sr s.cmd.a0 s.dec = .ok (t.dec, es) ∧ t.events = s.events ++ es := by
  obtain ⟨es, htick⟩ := tickOf_sampleTick h
  obtain ⟨hsr, hraw, hexec⟩ := h
  have hnext := Host.Outcome.next.inj ((exec_decSample_of_tick hsr hraw htick).symm.trans hexec)
  exact ⟨es, htick, (congrArg State.events hnext).symm⟩

/-- In SearchingSync the tick is EST and ARM_SEARCH. -/
theorem tickOf_search (h : tickOf sr s t) (hst : s.dec.syncState = .searchingSync) :
    t.dec = armSearch (est s.cfg.num sr s.cmd.a0 s.dec) ∧ t.events = s.events := by
  obtain ⟨es, htick, hev⟩ := tickOf_tick h
  obtain ⟨hdec, rfl⟩ := Prod.mk.inj (Except.ok.inj ((sampleTick_search s.cfg sr s.cmd.a0 hst).symm.trans htick))
  exact ⟨hdec.symm, hev.trans (List.append_nil _)⟩

/-- In WaitSyncEnd the tick is EST and ARM_WAIT. -/
theorem tickOf_wait (h : tickOf sr s t) (hst : s.dec.syncState = .waitSyncEnd) :
    t.dec = (armWait (est s.cfg.num sr s.cmd.a0 s.dec)).1
    ∧ t.events = s.events ++ (armWait (est s.cfg.num sr s.cmd.a0 s.dec)).2 := by
  obtain ⟨es, htick, hev⟩ := tickOf_tick h
  have harm := Except.ok.inj ((sampleTick_wait s.cfg sr s.cmd.a0 hst).symm.trans htick)
  rw [harm]
  exact ⟨rfl, hev⟩

/-- In Scanning the tick is EST, SCAN at the counter's time, and the end of the line. -/
theorem tickOf_scan (h : tickOf sr s t) (hst : s.dec.syncState = .scanning) :
    ∃ m es, scanMemory s.cfg (lineTime s.cfg.num sr (s.dec.samplesSinceLineStart + 1)) t.dec.currentFreq s.dec.currentLine s.dec.mem
        = .ok (m, es)
      ∧ t.dec = (lineEnd s.cfg.num sr (scannedDecoder s.cfg.num sr s.cmd.a0 s.dec m)).1
      ∧ t.events = s.events ++ es ++ (lineEnd s.cfg.num sr (scannedDecoder s.cfg.num sr s.cmd.a0 s.dec m)).2 := by
  obtain ⟨_, htick, hev⟩ := tickOf_tick h
  rcases sampleTick_cases htick with ⟨hst', -⟩ | ⟨hst', -⟩ | ⟨-, m, es, hscan, he⟩
  · cases hst.symm.trans hst'
  · cases hst.symm.trans hst'
  · obtain ⟨hdec, rfl⟩ := Prod.mk.inj he
    rw [← (tickOf_sameEstimator h).currentFreq] at hscan
    exact ⟨m, es, hscan, hdec, hev.trans (List.append_assoc _ _ _).symm⟩

end Tick

/-- Settles O17: ARM_SEARCH compares the streak that EST left, and writes syncState alone. -/
theorem searchArmDetectsThePulse : Obligations.SearchArmDetectsThePulse := by
  unfold Obligations.SearchArmDetectsThePulse
  intro s t sr h hst
  obtain ⟨hdec, hev⟩ := tickOf_search h hst
  refine ⟨?_, ?_, ?_, ?_, hev⟩
  · rw [(tickOf_sameCounters h).syncStreak, hdec, armSearch_syncState, est_syncState, hst]
    rfl
  · rw [hdec, armSearch_samplesSinceLineStart, est_samplesSinceLineStart]
  · rw [hdec, armSearch_currentLine, est_currentLine]
  · rw [hdec, armSearch_mem, est_mem]

/-- Settles O18: the two branches of ARM_WAIT on the streak that EST left. -/
theorem waitArmStartsTheLine : Obligations.WaitArmStartsTheLine := by
  unfold Obligations.WaitArmStartsTheLine
  intro s t sr h hst
  obtain ⟨hdec, hev⟩ := tickOf_wait h hst
  refine ⟨?_, by rw [hdec, armWait_currentLine, est_currentLine], by rw [hdec, armWait_mem, est_mem]⟩
  rw [(tickOf_sameCounters h).syncStreak]
  split
  next hlt =>
    rw [armWait_of_lt hlt] at hdec hev
    rw [est_currentLine] at hev
    exact ⟨hdec ▸ rfl, hdec ▸ rfl, hev⟩
  next hge =>
    rw [armWait_of_not_lt hge] at hdec hev
    exact ⟨by rw [hdec, est_syncState, hst], by rw [hdec, est_samplesSinceLineStart], hev.trans (List.append_nil _)⟩

/-- Settles O19: SCAN's outcome and then the end of the line, as `LineEnds` has it at the new counter. -/
theorem scanArmEndsTheLine : Obligations.ScanArmEndsTheLine := by
  unfold Obligations.ScanArmEndsTheLine
  intro s t sr h hst N n
  obtain ⟨m, es, hscan, hdec, hev⟩ := tickOf_scan h hst
  have hends := lineEnd_lineEnds N sr (scannedDecoder N sr s.cmd.a0 s.dec m) (s.events ++ es)
  have hstreak : (scannedDecoder N sr s.cmd.a0 s.dec m).syncStreak = t.dec.syncStreak := (tickOf_sameCounters h).syncStreak.symm
  rw [← hdec, ← hev, scannedDecoder_samplesSinceLineStart, hstreak, LineEnds, scannedDecoder_currentLine, scannedDecoder_syncState,
    hst] at hends
  refine ⟨m, es, hscan, ?_, ?_, hends⟩
  · rw [hdec, lineEnd_mem]; rfl
  · rw [hdec, lineEnd_samplesSinceLineStart, scannedDecoder_samplesSinceLineStart]

/-- Settles O20: with the frequency frozen the streak is BAND's of the old frequency, and the idle arms compare it. -/
theorem silenceKeepsTheIdleStates : Obligations.SilenceKeepsTheIdleStates := by
  unfold Obligations.SilenceKeepsTheIdleStates
  intro s t sr h N hsilent
  have hfreq : t.dec.currentFreq = s.dec.currentFreq := by
    rw [tickOf_currentFreq h, ← tickOf_previousValue h]
    exact if_neg fun hrise => Bool.false_ne_true (hsilent.symm.trans hrise.1)
  have hstreak := tickOf_syncStreak h
  rw [hfreq] at hstreak
  refine ⟨hfreq, fun hout => ?_, fun hin => ?_⟩
  · have hzero : t.dec.syncStreak = 0 := hstreak.trans (if_neg (Bool.eq_false_iff.mp hout))
    refine ⟨hzero, fun hst => ?_, fun hst => ?_⟩
    · obtain ⟨hstate, -, -, -, hev⟩ := searchArmDetectsThePulse s t sr h hst
      exact ⟨by rw [hstate, hzero]; rfl, hev⟩
    · obtain ⟨hstart, -⟩ := waitArmStartsTheLine s t sr h hst
      rw [if_pos (by omega)] at hstart
      exact hstart.1
  · have hgrown : t.dec.syncStreak = s.dec.syncStreak + 1 := hstreak.trans (if_pos hin)
    refine ⟨hgrown, fun hst hpulse => ?_⟩
    obtain ⟨hstart, -⟩ := waitArmStartsTheLine s t sr h hst
    rw [if_neg (by omega)] at hstart
    obtain ⟨hstate, -, hev⟩ := hstart
    exact ⟨hstate, hev⟩

/-! ## The transitions over every step (R121) -/

/-- The transitions of syncState that a tick can make (R121), and none. -/
inductive SyncMove : SyncState → SyncState → Prop
  | stay (a : SyncState) : SyncMove a a
  | pulseFound : SyncMove .searchingSync .waitSyncEnd
  | lineStarted : SyncMove .waitSyncEnd .scanning
  | watchdog : SyncMove .scanning .searchingSync
  | earlyResync : SyncMove .scanning .waitSyncEnd

theorem sampleTick_syncMove {cfg : Config} {sr raw : F64} {d d' : Decoder} {es : List Event}
    (h : sampleTick cfg sr raw d = .ok (d', es)) : SyncMove d.syncState d'.syncState := by
  rcases sampleTick_cases h with ⟨hst, he⟩ | ⟨hst, he⟩ | ⟨hst, m, es', -, he⟩ <;> obtain rfl := congrArg Prod.fst he <;> rw [hst]
  · rw [armSearch_syncState, est_syncState, hst]
    split
    · exact .pulseFound
    · exact .stay _
  · by_cases hlt : (est cfg.num sr raw d).syncStreak < kStreakOff
    · rw [armWait_of_lt hlt]; exact .lineStarted
    · rw [armWait_of_not_lt hlt, est_syncState, hst]; exact .stay _
  · rw [← scannedDecoder]
    rcases lineEnd_cases cfg.num sr (scannedDecoder cfg.num sr raw d m) with ⟨-, -, he⟩ | ⟨-, -, he⟩ | ⟨-, -, he⟩ | ⟨-, -, he⟩ <;>
      rw [he]
    · exact .watchdog
    · exact .watchdog
    · exact .earlyResync
    · rw [scannedDecoder_syncState, hst]; exact .stay _

theorem decoderAfterSample_syncMove (cfg : Config) (raw : F64) (d : Decoder) :
    SyncMove d.syncState (decoderAfterSample cfg raw d).syncState := by
  unfold decoderAfterSample
  split
  next => exact .stay _
  next sr hsr =>
    split
    next hraw =>
      split
      next d' es htick => exact sampleTick_syncMove htick
      next => exact .stay _
    next => exact .stay _

/-- Every command but DEC_RESET makes a tick's transition or none. -/
theorem decoderAfter_syncMove (cfg : Config) (cmd : Command) (d : Decoder) {i : Instr} (hi : i ≠ .decReset) :
    SyncMove d.syncState (decoderAfter cfg cmd d i).syncState := by
  cases i with
  | decReset => exact absurd rfl hi
  | decSetRate =>
    simp only [decoderAfter]
    split <;> exact .stay _
  | decSample => exact decoderAfterSample_syncMove cfg cmd.a0 d
  | encEncode | encCancel | cvtRgb2yuv | cvtYuv2rgb | cvtVal2freq | cvtFreq2val | wavSerialize => exact .stay _

/-- A step makes a tick's transition or none, or it is DEC_RESET. -/
theorem step_syncMove {s t : State} (h : step s = .next t) :
    SyncMove s.dec.syncState t.dec.syncState
    ∨ (t.dec.syncState = .searchingSync ∧ ∃ c rest, s.script = .command c :: rest ∧ c.word = encode .decReset) := by
  rcases step_cases s with ⟨c, rest, i, hs, hdecode, he⟩ | ⟨c, rest, x, -, -, he⟩ | ⟨rest, he⟩ | ⟨rest, -, he⟩ | ⟨rest, -, -, he⟩ <;>
    rw [he] at h
  · have hdec := (exec_actsOnAgents h).dec
    by_cases hi : i = .decReset
    · subst hi
      exact .inr ⟨by rw [hdec]; rfl, c, rest, hs, eq_encode_of_decode hdecode⟩
    · rw [hdec]
      exact .inl (decoderAfter_syncMove s.cfg c s.dec hi)
  · cases h; exact .inl (.stay _)
  · rw [(encoderMove_frame h).1]; exact .inl (.stay _)
  · cases h; exact .inl (.stay _)
  · cases h; exact .inl (.stay _)

/-- Settles O16: the transitions of `SyncMove` one by one, or DEC_RESET. -/
theorem syncTransitionsAreTheListed : Obligations.SyncTransitionsAreTheListed := by
  unfold Obligations.SyncTransitionsAreTheListed
  intro s t h
  rcases step_syncMove h with hmove | hreset
  · generalize s.dec.syncState = a, t.dec.syncState = b at hmove ⊢
    cases hmove with
    | stay => exact .inl rfl
    | pulseFound => exact .inr (.inl ⟨rfl, rfl⟩)
    | lineStarted => exact .inr (.inr (.inl ⟨rfl, rfl⟩))
    | watchdog => exact .inr (.inr (.inr (.inl ⟨rfl, rfl⟩)))
    | earlyResync => exact .inr (.inr (.inr (.inr (.inl ⟨rfl, rfl⟩))))
  · exact .inr (.inr (.inr (.inr (.inr hreset))))

/-! ## The records of a tick (R124, R127, R142) -/

/-- What SCAN can emit at the time t: nothing, or one PIXEL inside the chroma window (42 R152, R157). -/
def ScanRecords (N : NumDomain) (t : F64) (es : List Event) : Prop :=
  es = [] ∨ (inChromaWindow N t = true ∧ ∃ x y c, es = [.pixel x y c])

theorem scanMemory_records {cfg : Config} {t freq : F64} {line : Nat} {m m' : Memory} {es : List Event}
    (h : scanMemory cfg t freq line m = .ok (m', es)) : ScanRecords cfg.num t es := by
  rcases scanMemory_cases h with ⟨-, -, he⟩ | ⟨-, hwindow, -, -, he⟩ | ⟨he, -⟩ <;> cases he
  · exact .inl rfl
  · exact .inr ⟨hwindow, _, _, _, rfl⟩
  · exact .inl rfl

/-- The tick from d, in Scanning, to d' in which the watchdog ends the last line of the raster (R127). -/
structure FrameEnds (N : NumDomain) (sr : F64) (d d' : Decoder) : Prop where
  scanning : d.syncState = .scanning
  lastLine : height ≤ d.currentLine + 1
  due : watchdogDue N sr (d.samplesSinceLineStart + 1) = true
  line : d'.currentLine = 0
  searching : d'.syncState = .searchingSync

/-- What a tick can emit: a LINE_START, or what SCAN emits, with FRAME_COMPLETE after it where the frame ends. -/
theorem sampleTick_records {cfg : Config} {sr raw : F64} {d d' : Decoder} {es : List Event}
    (h : sampleTick cfg sr raw d = .ok (d', es)) :
    (∃ line, es = [.lineStart line])
    ∨ ScanRecords cfg.num (lineTime cfg.num sr (d.samplesSinceLineStart + 1)) es
    ∨ (FrameEnds cfg.num sr d d' ∧ ∃ es', ScanRecords cfg.num (lineTime cfg.num sr (d.samplesSinceLineStart + 1)) es' ∧
        es = es' ++ [.frameComplete d'.mem.img]) := by
  rcases sampleTick_cases h with ⟨-, he⟩ | ⟨-, he⟩ | ⟨hst, m, es', hscan, he⟩
  · cases he; exact .inr (.inl (.inl rfl))
  · by_cases hlt : (est cfg.num sr raw d).syncStreak < kStreakOff
    · cases he.trans (armWait_of_lt hlt); exact .inl ⟨_, rfl⟩
    · cases he.trans (armWait_of_not_lt hlt); exact .inr (.inl (.inl rfl))
  · have hscanned := scanMemory_records hscan
    rw [← scannedDecoder] at he
    rcases lineEnd_cases cfg.num sr (scannedDecoder cfg.num sr raw d m) with ⟨hdue, hlast, hend⟩ | ⟨-, -, hend⟩ | ⟨-, -, hend⟩ |
      ⟨-, -, hend⟩ <;> rw [hend] at he <;> cases he
    · rw [scannedDecoder_samplesSinceLineStart] at hdue
      rw [scannedDecoder_currentLine] at hlast
      exact .inr (.inr ⟨⟨hst, hlast, hdue, rfl, rfl⟩, es', hscanned, rfl⟩)
    all_goals exact .inr (.inl ((List.append_nil es').symm ▸ hscanned))

theorem ScanRecords.not_frameComplete {N : NumDomain} {t : F64} {es : List Event} (h : ScanRecords N t es) (img : Cells (Cells RGB)) :
    .frameComplete img ∉ es := by
  rcases h with rfl | ⟨-, x, y, c, rfl⟩ <;> simp

theorem ScanRecords.length_le_one {N : NumDomain} {t : F64} {es : List Event} (h : ScanRecords N t es) : es.length ≤ 1 := by
  rcases h with rfl | ⟨-, x, y, c, rfl⟩ <;> simp

/-- A FRAME_COMPLETE carries the raster as the tick leaves it, and is the end of the frame (R142). -/
theorem sampleTick_frameEnds {cfg : Config} {sr raw : F64} {d d' : Decoder} {es : List Event} {img : Cells (Cells RGB)}
    (h : sampleTick cfg sr raw d = .ok (d', es)) (hmem : .frameComplete img ∈ es) : FrameEnds cfg.num sr d d' ∧ img = d'.mem.img := by
  rcases sampleTick_records h with ⟨line, rfl⟩ | hscanned | ⟨hends, es', hscanned, rfl⟩
  · simp at hmem
  · exact absurd hmem (hscanned.not_frameComplete img)
  · have hlast := (List.mem_append.mp hmem).resolve_left (hscanned.not_frameComplete img)
    exact ⟨hends, by simpa using hlast⟩

/-- A DEC_SAMPLE that emits was admitted (60 R259: a refusal emits nothing). -/
theorem tickOf_of_emits {s t : State} {es : List Event} {ev : Event} (h : exec .decSample s = .next t)
    (hev : t.events = s.events ++ es) (hmem : ev ∈ es) : ∃ sr, tickOf sr s t := by
  have hsilent : t.events ≠ s.events := fun hsame =>
    List.ne_nil_of_mem hmem (List.self_eq_append_right.mp (hsame.symm.trans hev))
  have hexec : execDecSample s = .next t := h
  rcases execDecSample_cases s with ⟨-, he⟩ | ⟨_, -, -, he⟩ | ⟨sr, _, _, hsr, hraw, -, -⟩ | ⟨_, _, -, -, -, he⟩
  · cases he.symm.trans hexec; exact absurd rfl hsilent
  · cases he.symm.trans hexec; exact absurd rfl hsilent
  · exact ⟨sr, hsr, hraw, h⟩
  · cases he.symm.trans hexec

/-- DEC_SAMPLE is the only command that emits (60 R252). -/
theorem eq_decSample_of_emits {cfg : Config} {cmd : Command} {d : Decoder} {i : Instr} {ev : Event}
    (h : ev ∈ commandEvents cfg cmd d i) : i = .decSample := by
  cases i with
  | decSample => rfl
  | decReset | decSetRate | encEncode | encCancel | cvtRgb2yuv | cvtYuv2rgb | cvtVal2freq | cvtFreq2val | wavSerialize => cases h

/-- A step that puts a record of the decoder's on the port is an admitted DEC_SAMPLE (60 R252). -/
theorem step_emits_decoderEvent {s t : State} {es : List Event} {ev : Event} (h : step s = .next t) (hev : t.events = s.events ++ es)
    (hmem : ev ∈ es) (hdec : isDecoderEvent ev = true) :
    ∃ sr c rest, s.script = .command c :: rest ∧ c.word = encode .decSample ∧ tickOf sr (s.present c rest) t := by
  have hlonger : ¬t.events.length ≤ s.events.length := by
    have hpos := List.length_pos_of_mem hmem
    rw [hev, List.length_append]; omega
  rcases step_cases s with ⟨c, rest, i, hs, hdecode, he⟩ | ⟨c, rest, x, -, -, he⟩ | ⟨rest, he⟩ | ⟨rest, -, he⟩ | ⟨rest, -, -, he⟩ <;>
    rw [he] at h
  · have hes : es = commandEvents s.cfg c s.dec i := List.append_cancel_left (hev.symm.trans (exec_events h))
    obtain rfl := eq_decSample_of_emits (hes ▸ hmem)
    obtain ⟨sr, htick⟩ := tickOf_of_emits h hev hmem
    exact ⟨sr, c, rest, hs, eq_encode_of_decode hdecode, htick⟩
  · cases h; exact absurd (le_refl _) hlonger
  · obtain ⟨es', hev', hnot⟩ := encoderMove_events h
    obtain rfl : es = es' := List.append_cancel_left (hev.symm.trans hev')
    exact absurd (hdec.symm.trans (hnot ev hmem)) nofun
  · cases h; exact absurd (by simp) hlonger
  · cases h; exact absurd (le_refl _) hlonger

/-- Settles O21: the record is the decoder's, so the step is a tick, and `sampleTick_frameEnds` says which. -/
theorem frameCompleteOnlyFromTheWatchdog : Obligations.FrameCompleteOnlyFromTheWatchdog := by
  unfold Obligations.FrameCompleteOnlyFromTheWatchdog
  intro s t es img h hev hmem
  obtain ⟨sr, c, rest, hs, hword, htick⟩ := step_emits_decoderEvent h hev hmem rfl
  obtain ⟨es', hsample, hev'⟩ := tickOf_tick htick
  obtain rfl : es = es' := List.append_cancel_left (hev.symm.trans hev')
  obtain ⟨⟨hscanning, hlast, hdue, hline, hsearching⟩, himg⟩ := sampleTick_frameEnds hsample hmem
  exact ⟨sr, c, rest, hs, hword, htick.1, hscanning, hlast, hdue, himg, hline, hsearching⟩

/-! ## The watchdog's threshold lies past the chroma window (R120, R127, 42 R152) -/

/-- A value with a 53-bit significand between two powers of two has its exponent between theirs. -/
theorem exponent_between {lo hi e f : Nat} (hf : f < 2 ^ 52) (hlo : 2 ^ lo ≤ (2 ^ 52 + f) * 2 ^ e) (hhi : (2 ^ 52 + f) * 2 ^ e ≤ 2 ^ hi) :
    lo < 53 + e ∧ 52 + e ≤ hi := by
  constructor
  · refine (Nat.pow_lt_pow_iff_right Nat.one_lt_two).mp (hlo.trans_lt ?_)
    rw [pow_add]
    exact Nat.mul_lt_mul_of_pos_right (by omega) (by positivity)
  · refine (Nat.pow_le_pow_iff_right Nat.one_lt_two).mp (le_trans ?_ hhi)
    rw [pow_add]
    exact Nat.mul_le_mul_right _ (Nat.le_add_right _ _)

/-- The 53-bit significand and the exponent of a rate, in units (00_scope R9). -/
theorem exists_significand {sr : F64} (hsr : Between F64.one kRateMax sr) :
    ∃ e f, f < 2 ^ 52 ∧ 1022 ≤ e ∧ e ≤ 1054 ∧ sr.units = ((2 ^ 52 + f) * 2 ^ e : Nat) := by
  have hunits : (magUnits sr.magnitude : Int) = sr.units := magUnits_of_nonneg (le_trans (by decide +kernel) hsr.lo_le)
  have hlo : 2 ^ 1074 ≤ magUnits sr.magnitude := by
    have hone := hsr.lo_le
    rw [units_one, unitsPerOne_eq, ← hunits] at hone
    exact_mod_cast hone
  have hhi : magUnits sr.magnitude ≤ 2 ^ 1106 := by
    have hmax := hsr.le_hi
    rw [show kRateMax.units = (2 ^ 1106 : Nat) by decide +kernel, ← hunits] at hmax
    exact_mod_cast hmax
  rcases magnitude_cases sr.magnitude with hsub | ⟨e, f, hf, hmag⟩
  · rw [magUnits_small hsub] at hlo
    have hexp : ¬1074 < 52 := by decide
    exact absurd ((Nat.pow_lt_pow_iff_right Nat.one_lt_two).mp (lt_of_le_of_lt hlo hsub)) hexp
  · rw [hmag, magUnits_normal e f hf] at hlo hhi hunits
    obtain ⟨he_lo, he_hi⟩ := exponent_between hf hlo hhi
    exact ⟨e, f, hf, by omega, by omega, hunits.symm⟩

/-- A rate has a finite value near 5/32 of it, which a significand three bits shorter gives exactly. It separates the end of the chroma
window, 0.141 · sr, from the rounded threshold 0.16 · sr. -/
theorem exists_fiveThirtySeconds {sr : F64} (hsr : Between F64.one kRateMax sr) :
    ∃ v : F64, v.isFinite = true ∧ 3 * sr.units ≤ 20 * v.units ∧ 32 * v.units ≤ 5 * sr.units := by
  obtain ⟨e, f, hf, he_lo, he_hi, hunits⟩ := exists_significand hsr
  obtain ⟨k, rfl⟩ := Nat.exists_eq_add_of_le' (show 2 ≤ e by omega)
  obtain ⟨v, hv, hvunits⟩ := exists_of_units (k := 5 * ((2 ^ 52 + f) / 8)) (e := k) (by omega) (by omega) (by omega)
  refine ⟨v, hv, ?_, ?_⟩ <;> rw [hvunits, hunits, pow_add]
  · have hdropped := Nat.mul_le_mul_right (2 ^ k) (show 12 * (2 ^ 52 + f) ≤ 100 * ((2 ^ 52 + f) / 8) by omega)
    exact_mod_cast (by linarith)
  · have hfloor := Nat.mul_le_mul_right (2 ^ k) (show 160 * ((2 ^ 52 + f) / 8) ≤ 20 * (2 ^ 52 + f) by omega)
    exact_mod_cast (by linarith)

/-- The rounded threshold of the watchdog is not below some finite value v, and v is not below 0.15 · sr. -/
theorem exists_le_watchdogThreshold {sr : F64} (hsr : Between F64.one kRateMax sr) :
    ∃ v : F64, v.isFinite = true ∧ 3 * sr.units ≤ 20 * v.units ∧ v.units ≤ (F64.mul kWd sr).units := by
  obtain ⟨v, hv, hlo, hhi⟩ := exists_fiveThirtySeconds hsr
  have hk : kWd.isFinite = true ∧ 5 * (unitsPerOne : Int) ≤ 32 * kWd.units := by decide +kernel
  have hsr0 : 0 ≤ sr.units := le_trans (by decide +kernel) hsr.lo_le
  have hexact : v.units * unitsPerOne ≤ kWd.units * sr.units := by
    have h1 := mul_le_mul_of_nonneg_right hhi (Int.natCast_nonneg unitsPerOne)
    have h2 := mul_le_mul_of_nonneg_right hk.2 hsr0
    linarith
  refine ⟨v, hv, hlo, ?_⟩
  rw [units_mul hk.1 hsr.finite, ← roundUnits_exact hv unitsPerOne_pos]
  exact roundUnits_mono unitsPerOne_pos unitsPerOne_pos (mul_le_mul_of_nonneg_right hexact (Int.natCast_nonneg _))

/-- The conversion of a Nat is not below a value that the Nat is not below (00_scope R12). -/
theorem le_units_ofNat {n : Nat} {v : F64} (hv : v.isFinite = true) (h : v.units ≤ (n * unitsPerOne : Nat)) :
    v.units ≤ (F64.ofNat n).units := by
  have hround : (F64.ofNat n).units = roundUnits ((n * unitsPerOne : Nat) : Int) 1 := by
    unfold F64.ofNat ofRatio
    rw [units_pack _ (roundMag_lt _ _), signedUnits_round]
    rfl
  rw [hround, ← roundUnits_exact hv Nat.one_pos]
  exact roundUnits_mono Nat.one_pos Nat.one_pos (by simpa using h)

theorem ofNat_finite_or_inf (n : Nat) : (F64.ofNat n).isFinite = true ∨ F64.ofNat n = pack false infMagnitude := by
  unfold F64.ofNat ofRatio
  rcases (roundMag_le_inf (n * unitsPerOne) 1).lt_or_eq with hlt | heq
  · refine .inl ?_
    rw [isFinite_iff, magnitude_pack _ (roundMag_lt _ _)]
    exact hlt
  · exact .inr (by rw [heq])

theorem inf_div {y : F64} (hy : y.isFinite = true) (hpos : 0 < y.units) :
    F64.div (pack false infMagnitude) y = pack false infMagnitude := by
  have hinf : (pack false infMagnitude).isNaN = false ∧ (pack false infMagnitude).isInf = true
    ∧ (pack false infMagnitude).magnitude ≠ 0 ∧ (pack false infMagnitude).signBit = false := by decide +kernel
  obtain ⟨hnan, hisInf, hmag, hsign⟩ := hinf
  simp [F64.div, isNaN_of_isFinite hy, isInf_of_isFinite hy, hnan, hisInf, hmag, hsign, signBit_of_pos hpos]

/-- A value of at least 0.15 · sr, divided by sr, is at least the chroma window's end. -/
theorem chromaEnd_le_div {x sr : F64} (hx : x.isFinite = true) (hsr : sr.isFinite = true) (hpos : 0 < sr.units)
    (h : 3 * sr.units ≤ 20 * x.units) : kUvHi.units ≤ (F64.div x sr).units := by
  have hk : kUvHi.isFinite = true ∧ 20 * kUvHi.units ≤ 3 * (unitsPerOne : Int) := by decide +kernel
  have hd : 0 < sr.units.toNat := by omega
  have hexact : kUvHi.units * sr.units ≤ x.units * unitsPerOne := by
    have h1 := mul_le_mul_of_nonneg_right hk.2 hpos.le
    have h2 := mul_le_mul_of_nonneg_right h (Int.natCast_nonneg unitsPerOne)
    linarith
  rw [units_div hx hsr hpos, ← roundUnits_exact hk.1 hd]
  refine roundUnits_mono hd hd (mul_le_mul_of_nonneg_right ?_ (Int.natCast_nonneg _))
  rw [Int.toNat_of_nonneg hpos.le]
  exact hexact

/-- A counter past the watchdog's threshold has left the chroma window behind, whatever the rate. -/
theorem not_inChromaWindow_of_watchdogDue {sr : F64} {n : Nat} (hsr : Between F64.one kRateMax sr)
    (hdue : watchdogDue .binary64 sr n = true) : inChromaWindow .binary64 (lineTime .binary64 sr n) = false := by
  obtain ⟨v, hv, hlo, hthreshold⟩ := exists_le_watchdogThreshold hsr
  have hpos : 0 < sr.units := lt_of_lt_of_le (by decide +kernel) hsr.lo_le
  have hgt : (F64.mul kWd sr).units < (n * unitsPerOne : Nat) := by
    simp only [watchdogDue, NumDomain.natGt_binary64, NumDomain.mul_binary64, natGt, Bool.and_eq_true, decide_eq_true_eq] at hdue
    exact hdue.2
  have hcount : v.units ≤ (F64.ofNat n).units := le_units_ofNat hv (hthreshold.trans hgt.le)
  have hpast : kUvHi.units ≤ (F64.div (F64.ofNat n) sr).units := by
    rcases ofNat_finite_or_inf n with hfin | hinf
    · exact chromaEnd_le_div hfin hsr.finite hpos (by linarith)
    · rw [hinf, inf_div hsr.finite hpos]; decide +kernel
  have hnot : F64.lt (F64.div (F64.ofNat n) sr) kUvHi = false := by
    rw [F64.lt, decide_eq_false (not_lt_of_ge hpast), Bool.and_false]
  exact Bool.and_eq_false_imp.mpr fun _ => hnot

/-- A tick emits at most one record, because at the watchdog SCAN emits none. -/
theorem sampleTick_length_le_one {cfg : Config} {sr raw : F64} {d d' : Decoder} {es : List Event} (hnum : cfg.num = .binary64)
    (hsr : Between F64.one kRateMax sr) (h : sampleTick cfg sr raw d = .ok (d', es)) : es.length ≤ 1 := by
  rcases sampleTick_records h with ⟨line, rfl⟩ | hscanned | ⟨hends, es', hscanned, rfl⟩
  · exact le_refl 1
  · exact hscanned.length_le_one
  · have hdue := hends.due
    rw [hnum] at hdue hscanned
    rcases hscanned with rfl | ⟨hwindow, -⟩
    · exact le_refl 1
    · exact absurd (hwindow.symm.trans (not_inChromaWindow_of_watchdogDue hsr hdue)) nofun

/-- Settles O22: a tick emits a LINE_START, or a PIXEL, or a FRAME_COMPLETE after the windows, or nothing. -/
theorem tickEmitsAtMostOneEvent : Obligations.TickEmitsAtMostOneEvent := by
  unfold Obligations.TickEmitsAtMostOneEvent
  intro s t sr h hnum hrate
  obtain ⟨es, htick, hev⟩ := tickOf_tick h
  exact ⟨es, hev, sampleTick_length_le_one hnum (between_of_within isFinite_one isFinite_kRateMax hrate) htick⟩

end Sys2Proof.Proofs

/-! PROOFS. The scanline decoder (spec/42_scanline_decoder.md R150 to R158): what SCAN leaves in each array and what it emits, in the luma
window, in the chroma window and outside both, and the quantisation as the nearest integer. -/

namespace Sys2Proof.Proofs

open Sys2Proof Sys2Proof.Machine Sys2Proof.F64

/-! ## Reads after SCAN's writes (20_memory R62)

The column x is the integer that R153 and R154 floor to; the write goes to cell `x.toNat`. -/

theorem memRead_set {α : Type} [DecidableEq α] {dflt : α} {bound lo j : Nat} {ok : α → Bool} {c : Cells α} {x : Int} (v : α)
    (hw : cellsWf dflt bound ok lo c = true) (hx : 0 ≤ x) (hj : j < bound) :
    memRead bound dflt (cellsSet dflt c x.toNat v) j = if (j : Int) = x then .ok v else memRead bound dflt c j := by
  rw [memRead_of_lt dflt _ hj, memRead_of_lt dflt _ hj]
  split
  next hsame =>
    obtain rfl : j = x.toNat := by omega
    rw [cellsGet_set_same c _ v hw]
  next hother => rw [cellsGet_set_other c v (by omega)]

theorem crAt_chromaSet {m : Memory} {line j : Nat} {x : Int} (v : F64) (hw : m.wf = true) (hx : 0 ≤ x) (hj : j < width) :
    crAt (chromaSet m line x.toNat v) j = if line % 2 = 0 ∧ (j : Int) = x then .ok v else crAt m j := by
  obtain ⟨-, hcr, -, -⟩ := Memory.wf_iff.mp hw
  unfold chromaSet
  split
  next heven =>
    simp only [heven, true_and]
    exact memRead_set v hcr hx hj
  next hodd => exact (if_neg fun h => hodd h.1).symm

theorem cbAt_chromaSet {m : Memory} {line j : Nat} {x : Int} (v : F64) (hw : m.wf = true) (hx : 0 ≤ x) (hj : j < width) :
    cbAt (chromaSet m line x.toNat v) j = if line % 2 = 1 ∧ (j : Int) = x then .ok v else cbAt m j := by
  obtain ⟨-, -, hcb, -⟩ := Memory.wf_iff.mp hw
  unfold chromaSet
  split
  next heven => exact (if_neg fun h => by omega).symm
  next hodd =>
    simp only [Nat.mod_two_ne_zero.mp hodd, true_and]
    exact memRead_set v hcb hx hj

theorem readImg_of_lt (img : Cells (Cells RGB)) {i l : Nat} (hi : i < width) (hl : l < height) :
    readImg img i l = .ok (imgGet img i l) := readImg_ok_iff.mpr ⟨hi, hl, rfl⟩

theorem readImg_set {ok : RGB → Bool} {img : Cells (Cells RGB)} {i l line : Nat} {x : Int} (c : RGB) (hw : imgWf ok img = true)
    (hx : 0 ≤ x) (hi : i < width) (hl : l < height) :
    readImg (imgSet img x.toNat line c) i l = if (i : Int) = x ∧ l = line then .ok c else readImg img i l := by
  rw [readImg_of_lt _ hi hl, readImg_of_lt _ hi hl]
  split
  next hsame =>
    obtain ⟨hcolumn, rfl⟩ := hsame
    obtain rfl : i = x.toNat := by omega
    rw [imgGet_set_same hw]
  next hother =>
    rw [imgGet_set_other hw fun h => ?_]
    obtain ⟨hcolumn, hline⟩ := Prod.mk.inj h
    exact hother ⟨by omega, hline⟩

/-! ## SCAN in each window (R150 to R157) -/

section Scan

variable {cfg : Config} {t freq : F64} {line : Nat} {m m' : Memory} {es : List Event}

/-- In the luma window SCAN writes the cell of its column, where there is one, and nothing else (R153). -/
theorem scanMemory_luma (h : scanMemory cfg t freq line m = .ok (m', es)) (hw : m.wf = true) (hluma : inLumaWindow cfg.num t = true) :
    (∀ j < width, lumaAt m' j = if (j : Int) = lumaColumn cfg.num t then .ok (freq2val cfg.num freq) else lumaAt m j)
    ∧ m'.cr = m.cr ∧ m'.cb = m.cb ∧ m'.img = m.img ∧ es = [] := by
  rcases scanMemory_cases h with ⟨-, hcolumn, he⟩ | ⟨hnot, -⟩ | ⟨he, hnone, -⟩
  · cases he
    obtain ⟨hwluma, -⟩ := Memory.wf_iff.mp hw
    exact ⟨fun j hj => memRead_set _ hwluma (columnInRange_iff.mp hcolumn).1 hj, rfl, rfl, rfl, rfl⟩
  · cases hluma.symm.trans hnot
  · cases he
    have hout : ∀ j < width, (j : Int) ≠ lumaColumn cfg.num t := fun j hj heq =>
      hnone ⟨hluma, columnInRange_iff.mpr (by omega)⟩
    exact ⟨fun j hj => (if_neg (hout j hj)).symm, rfl, rfl, rfl, rfl⟩

/-- In the chroma window, with its column in range, SCAN writes the line's chroma buffer and then the pixel (R155 to R157). -/
theorem scanMemory_chroma (h : scanMemory cfg t freq line m = .ok (m', es)) (hluma : inLumaWindow cfg.num t = false)
    (hchroma : inChromaWindow cfg.num t = true) (hcolumn : columnInRange (chromaColumn cfg.num t) = true) :
    ∃ m₁, m₁ = chromaSet m line (chromaColumn cfg.num t).toNat (freq2val cfg.num freq)
      ∧ m' = { m₁ with img := imgSet m.img (chromaColumn cfg.num t).toNat line (scanPixel cfg m₁ (chromaColumn cfg.num t).toNat) }
      ∧ es = [.pixel (chromaColumn cfg.num t).toNat line (scanPixel cfg m₁ (chromaColumn cfg.num t).toNat)] := by
  rcases scanMemory_cases h with ⟨hin, -⟩ | ⟨-, -, -, -, he⟩ | ⟨-, -, hnone⟩
  · cases hluma.symm.trans hin
  · obtain ⟨hmem, hev⟩ := Prod.mk.inj he
    exact ⟨_, rfl, hmem, hev⟩
  · exact absurd ⟨hluma, hchroma, hcolumn⟩ hnone

/-- Outside both windows SCAN does nothing (R152). -/
theorem scanMemory_outside (h : scanMemory cfg t freq line m = .ok (m', es)) (hluma : inLumaWindow cfg.num t = false)
    (hchroma : inChromaWindow cfg.num t = false) : m' = m ∧ es = [] := by
  rcases scanMemory_cases h with ⟨hin, -⟩ | ⟨-, hin, -⟩ | ⟨he, -⟩
  · cases hluma.symm.trans hin
  · cases hchroma.symm.trans hin
  · exact Prod.mk.inj he

end Scan

/-! ## A tick in Scanning -/

/-- The end of a line emits no PIXEL (41 R127, R128). -/
theorem lineEnd_not_pixel (N : NumDomain) (sr : F64) (d : Decoder) : ∀ e ∈ (lineEnd N sr d).2, isPixel e = false := by
  rcases lineEnd_cases N sr d with ⟨-, -, h⟩ | ⟨-, -, h⟩ | ⟨-, -, h⟩ | ⟨-, -, h⟩ <;> simp [h, isPixel]

/-- The arrays after a tick in Scanning are those SCAN left, and the PIXEL records are SCAN's. -/
theorem tickOf_scanMemory {sr : F64} {s t : State} (h : tickOf sr s t) (hst : s.dec.syncState = .scanning) :
    ∃ es rest, scanMemory s.cfg (lineTime s.cfg.num sr (s.dec.samplesSinceLineStart + 1)) t.dec.currentFreq s.dec.currentLine s.dec.mem
        = .ok (t.dec.mem, es)
      ∧ t.events = s.events ++ (es ++ rest) ∧ ∀ e ∈ rest, isPixel e = false := by
  obtain ⟨m, es, hscan, hdec, hev⟩ := tickOf_scan h hst
  have hmem : t.dec.mem = m := by rw [hdec, lineEnd_mem]; rfl
  exact ⟨es, _, hmem ▸ hscan, hev.trans (List.append_assoc _ _ _), lineEnd_not_pixel _ _ _⟩

/-- Settles O25: SCAN in the luma window (`scanMemory_luma`), whose column is in range in binary64 (`lumaColumn_inRange`). -/
theorem lumaWindowWritesOneCell : Obligations.LumaWindowWritesOneCell := by
  unfold Obligations.LumaWindowWritesOneCell
  intro s t sr h hst hw N τ x val hwindow
  obtain ⟨es, rest, hscan, hev, hrest⟩ := tickOf_scanMemory h hst
  obtain ⟨hluma, hcr, hcb, himg, rfl⟩ := scanMemory_luma hscan hw hwindow
  refine ⟨fun hnum => ?_, hluma, hcr, hcb, himg, rest, hev, hrest⟩
  have hwindow' : inLumaWindow s.cfg.num τ = true := hwindow
  have hcolumn : columnInRange (lumaColumn s.cfg.num τ) = true := by
    rw [hnum] at hwindow' ⊢
    exact lumaColumn_inRange hwindow'
  exact columnInRange_iff.mp hcolumn

/-- Settles O26: SCAN in the chroma window (`scanMemory_chroma`), which in binary64 lies past the luma window (`not_inLumaWindow`) and has
its column in range (`chromaColumn_inRange`). The three reads are those of `scanPixel`. -/
theorem chromaWindowWritesCellAndPixel : Obligations.ChromaWindowWritesCellAndPixel := by
  unfold Obligations.ChromaWindowWritesCellAndPixel
  intro s t sr h hst hw N τ x val hwindow luma
  obtain ⟨es, rest, hscan, hev, hrest⟩ := tickOf_scanMemory h hst
  refine ⟨fun hnum => ?_, fun hluma hx0 hx => ?_⟩
  · have hwindow' : inChromaWindow s.cfg.num τ = true := hwindow
    have hcolumn : inLumaWindow s.cfg.num τ = false ∧ columnInRange (chromaColumn s.cfg.num τ) = true := by
      rw [hnum] at hwindow' ⊢
      exact ⟨not_inLumaWindow hwindow', chromaColumn_inRange hwindow'⟩
    exact ⟨hcolumn.1, columnInRange_iff.mp hcolumn.2⟩
  · have hcolumn : columnInRange x = true := columnInRange_iff.mpr ⟨hx0, hx⟩
    obtain ⟨m₁, hm₁, hmem, rfl⟩ := scanMemory_chroma hscan hluma hwindow hcolumn
    obtain ⟨-, -, -, himg⟩ := Memory.wf_iff.mp hw
    have hlt := columnInRange_toNat hcolumn
    rw [hmem]
    refine ⟨fun j hj => hm₁ ▸ crAt_chromaSet _ hw hx0 hj, fun j hj => hm₁ ▸ cbAt_chromaSet _ hw hx0 hj,
      hm₁ ▸ chromaSet_luma _ _ _ _, _, _, _, memRead_of_lt _ _ hlt, memRead_of_lt _ _ hlt, memRead_of_lt _ _ hlt,
      fun i hi l hl => readImg_set _ himg hx0 hi hl, rest, hev, hrest⟩

/-- Settles O28 by `scanMemory_outside`. -/
theorem nothingIsWrittenOutsideTheWindows : Obligations.NothingIsWrittenOutsideTheWindows := by
  unfold Obligations.NothingIsWrittenOutsideTheWindows
  intro s t sr h hst N τ hluma hchroma
  obtain ⟨es, rest, hscan, hev, hrest⟩ := tickOf_scanMemory h hst
  obtain ⟨hmem, rfl⟩ := scanMemory_outside hscan hluma hchroma
  exact ⟨hmem, rest, hev, hrest⟩

/-! ## The quantisation (R158) -/

theorem roundHalfEven_le {n d k : Nat} (hd : 0 < d) (h : n ≤ k * d) : roundHalfEven n d ≤ k := by
  rw [← roundHalfEven_exact k d hd]
  exact roundHalfEven_mono hd hd (Nat.mul_le_mul_right d h)

/-- The rounded ratio is at most one half away from the ratio, and even where it is exactly one half away. -/
theorem roundHalfEven_nearest (n : Nat) {d : Nat} (hd : 0 < d) :
    2 * ((n : Int) - roundHalfEven n d * d).natAbs ≤ d
    ∧ (2 * ((n : Int) - roundHalfEven n d * d).natAbs = d → roundHalfEven n d % 2 = 0) := by
  have hlt := Nat.mod_lt n hd
  have hn : (n : Int) - (n / d : Nat) * d = (n % d : Nat) := by
    have hdiv : ((d * (n / d) + n % d : Nat) : Int) = n := congrArg _ (Nat.div_add_mod n d)
    push_cast at hdiv ⊢
    linarith
  unfold roundHalfEven
  split
  next hup =>
    have hdist : (n : Int) - (n / d + 1 : Nat) * d = (n % d : Nat) - d := by
      rw [← hn]; push_cast; ring
    rw [hdist]
    omega
  next hdown =>
    rw [hn]
    omega

/-- A natural number below 2^53, packed with the sign of a value that is not negative, is exact. -/
theorem ofRatio_one {s : Bool} {n : Nat} (hn : n < 2 ^ 53) (hs : signedUnits s (n * unitsPerOne) = (n * unitsPerOne : Nat)) :
    (ofRatio s n 1).isFinite = true ∧ (ofRatio s n 1).units = (n * unitsPerOne : Nat) := by
  obtain ⟨x, hx, hunits⟩ := exists_of_nat hn
  have hexact : signedUnits s (n * unitsPerOne) = x.units * (1 : Nat) := by rw [hs, hunits, Nat.cast_one, mul_one]
  obtain ⟨hfin, hlo, hhi⟩ := pack_round_between Nat.one_pos hx hx hexact.ge hexact.le
  exact ⟨hfin, (le_antisymm hhi hlo).trans hunits⟩

/-- A value of [0, 255] rounds to the integer that `roundHalfEven` gives for its units. -/
theorem units_roundToInteger {v : F64} (hv : Between F64.zero kVmax v) :
    roundHalfEven (magUnits v.magnitude) unitsPerOne ≤ 255 ∧ (F64.roundToInteger v).isFinite = true
    ∧ (F64.roundToInteger v).units = (roundHalfEven (magUnits v.magnitude) unitsPerOne * unitsPerOne : Nat) := by
  have h0 : 0 ≤ v.units := by rw [← units_zero]; exact hv.lo_le
  have hle : magUnits v.magnitude ≤ 255 * unitsPerOne := by
    have hhi := hv.le_hi
    rw [show kVmax.units = (255 * unitsPerOne : Nat) by decide +kernel, ← magUnits_of_nonneg h0] at hhi
    exact_mod_cast hhi
  have hbyte := roundHalfEven_le unitsPerOne_pos hle
  unfold F64.roundToInteger
  rw [if_pos hv.finite]
  exact ⟨hbyte, ofRatio_one (by omega) (signedUnits_roundHalfEven h0)⟩

/-- R158 for one channel: w is the nearest integer to v, the even one of two that are equally near. -/
def NearestInteger (v w : F64) : Prop :=
  ∃ n : Nat, n ≤ 255 ∧ w.isFinite = true ∧ w.units = (n * unitsPerOne : Int)
    ∧ 2 * (v.units - n * unitsPerOne).natAbs ≤ unitsPerOne
    ∧ (2 * (v.units - n * unitsPerOne).natAbs = unitsPerOne → n % 2 = 0)

theorem roundToInteger_nearestInteger {v : F64} (hv : Between F64.zero kVmax v) : NearestInteger v (F64.roundToInteger v) := by
  obtain ⟨hbyte, hfin, hunits⟩ := units_roundToInteger hv
  have hnearest := roundHalfEven_nearest (magUnits v.magnitude) unitsPerOne_pos
  rw [magUnits_of_nonneg (by rw [← units_zero]; exact hv.lo_le)] at hnearest
  exact ⟨_, hbyte, hfin, hunits.trans (Nat.cast_mul _ _), hnearest⟩

/-- Settles O27: each channel is in [0, 255], so `roundToInteger_nearestInteger` holds of it. -/
theorem quantisationRoundsToNearest : Obligations.QuantisationRoundsToNearest := by
  unfold Obligations.QuantisationRoundsToNearest
  intro c
  refine ⟨fun N => rfl, ?_⟩
  intro hc p v w hchannel
  simp only [pixelRange, Bool.and_eq_true, byteRange_iff] at hc
  obtain ⟨⟨hr, hg⟩, hb⟩ := hc
  show NearestInteger v w
  simp only [List.mem_cons, List.not_mem_nil, or_false, Prod.mk.injEq] at hchannel
  rcases hchannel with ⟨rfl, rfl⟩ | ⟨rfl, rfl⟩ | ⟨rfl, rfl⟩
  · exact roundToInteger_nearestInteger hr
  · exact roundToInteger_nearestInteger hg
  · exact roundToInteger_nearestInteger hb

end Sys2Proof.Proofs

/-! PROOFS. The segment scheduler and the phase accumulator (spec/43_phase_accumulator.md R171 to R177): the encoder's step in its two
parts, WRAP as whole turns taken off, and the waveform's sample count, which follows the elapsed time because the targets never fall. -/

namespace Sys2Proof.Proofs

open Sys2Proof Sys2Proof.Machine Sys2Proof.F64

/-! ## The rows of the segment table (44_modulator R192) -/

theorem segmentRow_ok_iff {N : NumDomain} {raster : Cells (Cells Pixel)} {k : Nat} {d f : F64} :
    segmentRow N raster k = .ok (d, f) ↔ ∃ g, segmentAt k = some g ∧ segmentFreq N raster g = .ok f ∧ segmentDur N g = d := by
  unfold segmentRow fetchSegment
  cases segmentAt k with
  | none => simp [bind, Except.bind]
  | some g => cases hf : segmentFreq N raster g <;> simp [bind, Except.bind, hf, and_comm]

theorem durationAt_of_segmentAt {N : NumDomain} {k : Nat} {g : Segment} (h : segmentAt k = some g) : durationAt N k = segmentDur N g := by
  simp only [durationAt, h]

/-- Every duration lies in [0, 1] seconds. -/
theorem segmentDur_between (g : Segment) : Between F64.zero F64.one (segmentDur .binary64 g) := by
  apply between_of_within isFinite_zero isFinite_one
  cases g with
  | leader1 | leader2 => show F64.within F64.zero F64.one tLeader = true; decide +kernel
  | headerBreak => show F64.within F64.zero F64.one tBreak = true; decide +kernel
  | headerStart => show F64.within F64.zero F64.one tStart = true; decide +kernel
  | sync => show F64.within F64.zero F64.one tSync = true; decide +kernel
  | porch => show F64.within F64.zero F64.one tPorch = true; decide +kernel
  | yScan => show F64.within F64.zero F64.one (F64.div tYScan kWidth) = true; decide +kernel
  | sep => show F64.within F64.zero F64.one tSep = true; decide +kernel
  | porchUv => show F64.within F64.zero F64.one tPorchUv = true; decide +kernel
  | uvScan => show F64.within F64.zero F64.one (F64.div tUvScan kWidth) = true; decide +kernel

theorem durationAt_between (k : Nat) : Between F64.zero F64.one (durationAt .binary64 k) := by
  unfold durationAt
  split
  next g _ => exact segmentDur_between g
  next => exact between_of_within isFinite_zero isFinite_one (by decide +kernel)

/-! ## The elapsed time and its targets (R171, R173) -/

theorem le_units_add {x y : F64} (hx : x.isFinite = true) (hy : y.isFinite = true) (h : 0 ≤ y.units) :
    x.units ≤ (F64.add x y).units := by
  calc x.units = roundUnits (x.units * (1 : Nat)) 1 := (roundUnits_exact hx Nat.one_pos).symm
    _ ≤ roundUnits (x.units + y.units) 1 := roundUnits_mono Nat.one_pos Nat.one_pos (by push_cast; omega)
    _ = (F64.add x y).units := (units_add hx hy).symm

/-- The sum of k durations is at most k seconds, a binary64 value, and so stays finite. -/
theorem durationSum_finite {k : Nat} (hk : k < 2 ^ 53) :
    (durationSum .binary64 k).isFinite = true ∧ 0 ≤ (durationSum .binary64 k).units
      ∧ (durationSum .binary64 k).units ≤ (k * unitsPerOne : Nat) := by
  induction k with
  | zero => exact ⟨isFinite_zero, units_zero.ge, by rw [Nat.zero_mul]; exact units_zero.le⟩
  | succ k ih =>
    obtain ⟨hfin, hlo, hhi⟩ := ih (by omega)
    have hd := durationAt_between k
    have hd0 := hd.lo_le
    have hd1 := hd.le_hi
    obtain ⟨seconds, hseconds, hunits⟩ := exists_of_nat hk
    rw [units_zero] at hd0
    rw [units_one] at hd1
    obtain ⟨hsum, hsum0, hsum1⟩ := add_between hfin hd.finite isFinite_zero hseconds (by rw [units_zero]; omega)
      (by rw [hunits, Nat.succ_mul, Nat.cast_add]; omega)
    exact ⟨hsum, units_zero ▸ hsum0, hunits ▸ hsum1⟩

/-- The target sample at a later time is not an earlier one: the product with the rate and the floor are monotone. -/
theorem floor_mul_mono {x y sr : F64} (hx : x.isFinite = true) (hy : y.isFinite = true) (hsr : Between F64.one kRateMax sr)
    (h : x.units ≤ y.units) : floor (F64.mul x sr) ≤ floor (F64.mul y sr) := by
  have hsr0 : 0 ≤ sr.units := le_trans (by decide +kernel) hsr.lo_le
  refine Int.ediv_le_ediv (by exact_mod_cast unitsPerOne_pos) ?_
  rw [units_mul hx hsr.finite, units_mul hy hsr.finite]
  exact roundUnits_mono unitsPerOne_pos unitsPerOne_pos
    (mul_le_mul_of_nonneg_right (mul_le_mul_of_nonneg_right h hsr0) (Int.natCast_nonneg _))

/-- The target of segment k, in samples, is not below the one before it (R171). -/
theorem targets_mono {k : Nat} {sr : F64} (hk : k < segmentTotal) (hsr : Between F64.one kRateMax sr) :
    floor (F64.mul (durationSum .binary64 k) sr) ≤ floor (F64.mul (durationSum .binary64 (k + 1)) sr) := by
  unfold segmentTotal at hk
  have hd := durationAt_between k
  have hsum := (durationSum_finite (k := k) (by omega)).1
  exact floor_mul_mono hsum (durationSum_finite (k := k + 1) (by omega)).1 hsr
    (le_units_add hsum hd.finite (units_zero ▸ hd.lo_le))

theorem floor_zero_mul {sr : F64} (hsr : Between F64.one kRateMax sr) : floor (F64.mul F64.zero sr) = 0 := by
  have hround : roundUnits 0 unitsPerOne = 0 := by simp [roundUnits]
  rw [floor, units_mul isFinite_zero hsr.finite, units_zero, zero_mul, hround, Int.zero_ediv]

/-! ## The waveform's counts (44_modulator R191) -/

/-- From w to w', `n` samples are out and the elapsed time stands. -/
structure EmitsSamples (n : Nat) (w w' : WaveState) : Prop where
  index : w'.sampleIndex = w.sampleIndex + n
  length : w'.samples.length = w.samples.length + n
  elapsed : w'.elapsed = w.elapsed

theorem waveSamples_emits {cfg : Config} {sr f : F64} {n : Nat} {w w' : WaveState} (h : waveSamples cfg sr f n w = .ok w') :
    EmitsSamples n w w' := by
  induction n generalizing w with
  | zero => cases h; exact ⟨rfl, rfl, rfl⟩
  | succ n ih =>
    cases ho : oscStep cfg sr f w.phase with
    | error e => simp [waveSamples, bind, Except.bind, ho] at h
    | ok vp =>
      simp only [waveSamples, bind, Except.bind, ho] at h
      obtain ⟨hindex, hlength, helapsed⟩ := ih h
      rw [List.length_append, List.length_singleton] at hlength
      exact ⟨hindex.trans (Nat.add_right_comm ..), hlength.trans (Nat.add_right_comm ..), helapsed⟩

theorem wavePart_emits {cfg : Config} {raster : Cells (Cells Pixel)} {sr : F64} {g : Segment} {n : Nat} {w w' : WaveState}
    (h : wavePart cfg raster sr g n w = .ok w') : EmitsSamples n w w' := by
  unfold wavePart at h
  split at h
  next hzero => cases h; exact hzero ▸ ⟨rfl, rfl, rfl⟩
  next =>
    cases hf : segmentFreq cfg.num raster g with
    | error e => simp [bind, Except.bind, hf] at h
    | ok f => exact waveSamples_emits (by simpa only [bind, Except.bind, hf] using h)

/-- The point of the waveform after segments 0..k-1 (R173, R177). -/
structure AfterSegments (sr : F64) (k : Nat) (w : WaveState) : Prop where
  length : w.samples.length = w.sampleIndex
  elapsed : w.elapsed = durationSum .binary64 k
  target : (w.sampleIndex : Int) = floor (F64.mul (durationSum .binary64 k) sr)

/-- One segment brings the count to the next target, which is not below the one reached (R171). -/
theorem AfterSegments.succ {cfg : Config} {raster : Cells (Cells Pixel)} {sr : F64} {k : Nat} {g : Segment} {w w' : WaveState}
    (hN : cfg.num = .binary64) (hsr : Between F64.one kRateMax sr) (hg : segmentAt k = some g) (hw : AfterSegments sr k w)
    (h : waveSegment cfg raster sr g w = .ok w') : AfterSegments sr (k + 1) w' := by
  rw [waveSegment_eq, hN] at h
  have hnext : F64.add w.elapsed (segmentDur .binary64 g) = durationSum .binary64 (k + 1) := by
    rw [hw.elapsed, ← durationAt_of_segmentAt hg]; rfl
  have hcount : (w.sampleIndex : Int) + waveCount .binary64 sr (segmentDur .binary64 g) w
      = floor (F64.mul (durationSum .binary64 (k + 1)) sr) := by
    have hmono := targets_mono (segmentAt_lt hg) hsr
    have htarget : targetSample .binary64 w.elapsed (segmentDur .binary64 g) sr = floor (F64.mul (durationSum .binary64 (k + 1)) sr) := by
      rw [← hnext]; rfl
    have hreached := hw.target
    rw [waveCount, htarget]
    omega
  cases hpart : wavePart cfg raster sr g (waveCount .binary64 sr (segmentDur .binary64 g) w) w with
  | error e => rw [hpart] at h; cases h
  | ok v =>
    rw [hpart] at h
    cases h
    obtain ⟨hindex, hlength, helapsed⟩ := wavePart_emits hpart
    exact ⟨by rw [hlength, hindex, hw.length], by rw [← hnext, ← helapsed]; rfl, by rw [← hcount, hindex]; push_cast; rfl⟩

theorem waveFrom_afterSegments {cfg : Config} {raster : Cells (Cells Pixel)} {sr : F64} (hN : cfg.num = .binary64)
    (hsr : Between F64.one kRateMax sr) {k : Nat} {w : WaveState} (h : waveFrom cfg raster sr k 0 waveStart = .ok w) :
    AfterSegments sr k w := by
  induction k generalizing w with
  | zero => cases h; exact ⟨rfl, rfl, (floor_zero_mul hsr).symm⟩
  | succ k ih =>
    rw [waveFrom_succ, Nat.zero_add] at h
    cases hw : waveFrom cfg raster sr k 0 waveStart with
    | error e => rw [hw] at h; cases h
    | ok v =>
      cases hg : fetchSegment k with
      | error e => rw [hw, hg] at h; cases h
      | ok g =>
        rw [hw, hg] at h
        exact (ih hw).succ hN hsr (fetchSegment_ok_iff.mp hg) h

/-- WAVE is the waveform after all segments. -/
theorem wave_of_waveFrom {cfg : Config} {raster : Cells (Cells Pixel)} {sr : F64} {w : WaveState}
    (h : waveFrom cfg raster sr segmentTotal 0 waveStart = .ok w) : wave cfg raster sr = .ok w.samples := by
  unfold waveStart at h
  simp only [wave, bind, Except.bind, h]

/-! ## WRAP (R174) -/

/-- WRAP's loop as whole turns taken off, each from a phase of at least TWO_PI. -/
theorem wrapLoop_iterate {N : NumDomain} {fuel : Nat} {p q : F64} (h : wrapLoop N fuel p = some q) :
    ∃ n : Nat, q = (fun v => N.sub v twoPi)^[n] p ∧ ∀ m < n, N.le twoPi ((fun v => N.sub v twoPi)^[m] p) = true := by
  induction fuel generalizing p with
  | zero =>
    unfold wrapLoop at h
    split at h <;> cases h
    exact ⟨0, rfl, nofun⟩
  | succ fuel ih =>
    unfold wrapLoop at h
    split at h
    next hturn =>
      split at h
      · cases h
      · obtain ⟨n, hq, hle⟩ := ih h
        refine ⟨n + 1, hq, fun m hm => ?_⟩
        cases m with
        | zero => exact hturn
        | succ m => exact hle m (by omega)
    next => cases h; exact ⟨0, rfl, nofun⟩

/-! ## The encoder's step in its two halves (R172 to R175, 44_modulator R194) -/

/-- AMP·SIN of the phase before the advance or of the one after it, by PHASE_ORDER (R175). `oscStep_sample` ties it to OSC_STEP. -/
def orderedSample (cfg : Config) (before after : F64) : F64 :=
  cfg.num.mul cfg.amp (sine cfg.sine (match cfg.phaseOrder with | .sampleThenAdvance => before | .advanceThenSample => after))

theorem oscStep_sample {cfg : Config} {sr f phase v p : F64} (h : oscStep cfg sr f phase = .ok (v, p)) :
    wrapPhase cfg.num (cfg.num.add phase (phaseIncrement cfg.num sr f)) = .ok p ∧ v = orderedSample cfg phase p := by
  obtain ⟨hwrap, rfl⟩ := oscStep_ok_iff.mp h
  refine ⟨hwrap, ?_⟩
  unfold orderedSample oscSample
  cases cfg.phaseOrder <;> rfl

section Step

variable {cfg : Config} {g : Segment} {f : F64} {e e' : Encoder} {s t : State}

/-- With samples left, the first half emits one by OSC_STEP at the row's frequency. -/
theorem emitSample_of_pos (h : emitSample cfg g e = .ok e') (hf : segmentFreq cfg.num e.raster g = .ok f) (hpos : 0 < e.segRemaining) :
    ∃ v p, oscStep cfg e.sr f e.phase = .ok (v, p) ∧ e' = { e with
      outRev := v :: e.outRev
      sampleIndex := e.sampleIndex + 1
      phase := p
      segRemaining := e.segRemaining - 1 } := by
  rcases emitSample_cases h with ⟨hzero, -⟩ | ⟨-, f', v, p, hf', hosc, he⟩
  · omega
  · cases hf.symm.trans hf'
    exact ⟨v, p, hosc, he⟩

theorem emitSample_of_zero (h : emitSample cfg g e = .ok e') (hzero : e.segRemaining = 0) : e' = e := by
  rcases emitSample_cases h with ⟨-, he⟩ | ⟨hpos, -⟩
  · exact he
  · omega

/-- A segment with at most one sample left emits that one, or none (R173). -/
theorem emitSample_last (h : emitSample cfg g e = .ok e') (hf : segmentFreq cfg.num e.raster g = .ok f) (hrem : e.segRemaining ≤ 1) :
    ∃ (emitted : List F64) (p : F64),
      (if e.segRemaining = 0 then emitted = [] ∧ p = e.phase
        else wrapPhase cfg.num (cfg.num.add e.phase (phaseIncrement cfg.num e.sr f)) = .ok p
          ∧ emitted = [orderedSample cfg e.phase p])
      ∧ e' = { e with
          outRev := emitted.reverse ++ e.outRev
          sampleIndex := e.sampleIndex + e.segRemaining
          phase := p
          segRemaining := 0 } := by
  by_cases hzero : e.segRemaining = 0
  · refine ⟨[], e.phase, ?_, ?_⟩
    · rw [if_pos hzero]; exact ⟨rfl, rfl⟩
    · obtain rfl := emitSample_of_zero h hzero
      cases e'
      cases hzero
      rfl
  · have hone : e.segRemaining = 1 := by omega
    obtain ⟨v, p, hosc, rfl⟩ := emitSample_of_pos h hf (by omega)
    obtain ⟨hwrap, rfl⟩ := oscStep_sample hosc
    refine ⟨[orderedSample cfg e.phase p], p, ?_, ?_⟩
    · rw [if_neg hzero]; exact ⟨hwrap, rfl⟩
    · rw [hone]; rfl

/-- The move of a busy encoder is the step of its current segment. -/
theorem encoderMove_of_busy (hbusy : s.enc.busy = true) (h : encoderMove s = .next t) :
    ∃ e es, encStep s.cfg s.enc = .ok (e, es) ∧ t = { s.emit es with enc := e } := by
  rcases encoderMove_cases s with ⟨hidle, -⟩ | ⟨-, e, es, hstep, he⟩ | ⟨-, x, -, he⟩
  · cases hbusy.symm.trans hidle
  · cases he.symm.trans h
    exact ⟨e, es, hstep, rfl⟩
  · cases he.symm.trans h

end Step

/-! ## The statements of 43_phase_accumulator -/

/-- Settles O46: `waveFrom_afterSegments` counts the samples after any number of segments, and over a raster of bytes the tones keep the
oscillator from faulting (`waveFrom_ok`). -/
theorem sampleCountFollowsTheElapsedTime : Obligations.SampleCountFollowsTheElapsedTime := by
  unfold Obligations.SampleCountFollowsTheElapsedTime
  intro cfg raster sr hN hrate
  have hsr := between_of_within isFinite_one isFinite_kRateMax hrate
  have hcount : ∀ k w, waveFrom cfg raster sr (k + 1) 0 waveStart = .ok w →
      (w.samples.length : Int) = floor (F64.mul (durationSum .binary64 (k + 1)) sr) := by
    intro k w h
    have hafter := waveFrom_afterSegments hN hsr h
    rw [hafter.length, hafter.target]
  refine ⟨hcount, fun hraster => ?_⟩
  obtain ⟨w, hw, -⟩ := waveFrom_ok hN hsr (fun g f => segmentFreq_tone hraster) segmentTotal (k := 0) (by omega) (w := waveStart)
    phaseInTurn_zero
  exact ⟨w.samples, wave_of_waveFrom hw, hcount 154563 w hw⟩

/-- Settles O40: the first half of ENC_STEP emits the sample (`emitSample_of_pos`), and the second touches none of phase, count, rate and
raster. -/
theorem encoderStepEmitsOneSample : Obligations.EncoderStepEmitsOneSample := by
  unfold Obligations.EncoderStepEmitsOneSample
  intro s t d f hbusy N hrow hpos hmove
  obtain ⟨g, hg, hf, -⟩ := segmentRow_ok_iff.mp hrow
  obtain ⟨e, es, hstep, rfl⟩ := encoderMove_of_busy hbusy hmove
  obtain ⟨g', e1, hg', hemit, hrest⟩ := encStep_cases hstep
  cases hg.symm.trans hg'
  obtain ⟨v, p, hosc, rfl⟩ := emitSample_of_pos hemit hf hpos
  obtain ⟨hwrap, hv⟩ := oscStep_sample hosc
  have hout : (v :: s.enc.outRev).reverse = s.enc.out ++ [v] := List.reverse_cons
  refine ⟨p, v, hwrap, hv, ?_⟩
  rcases hrest with ⟨hlast, hnext⟩ | ⟨-, he⟩
  · have hone : ¬1 < s.enc.segRemaining := by simp only at hlast; omega
    rcases nextSegment_cases hnext with ⟨-, he⟩ | ⟨-, g', -, he⟩ <;> cases he
    · exact ⟨rfl, rfl, rfl, rfl, nofun, fun _ => congrArg (s.events ++ [.encDone ·]) hout, fun h => absurd h hone⟩
    · exact ⟨rfl, rfl, rfl, rfl, fun _ => hout, fun h => absurd (hbusy.symm.trans h) nofun, fun h => absurd h hone⟩
  · cases he
    refine ⟨rfl, rfl, rfl, rfl, fun _ => hout, fun h => absurd (hbusy.symm.trans h) nofun, fun _ => ?_⟩
    simp [State.emit]

/-- Settles O41: the last sample is the first half's (`emitSample_last`), and the second half, which then runs, ends the segment. -/
theorem encoderStepEndsTheSegment : Obligations.EncoderStepEndsTheSegment := by
  unfold Obligations.EncoderStepEndsTheSegment
  intro s t d f hbusy N hrow hrem hmove
  obtain ⟨g, hg, hf, rfl⟩ := segmentRow_ok_iff.mp hrow
  obtain ⟨e, es, hstep, rfl⟩ := encoderMove_of_busy hbusy hmove
  obtain ⟨g', e1, hg', hemit, hrest⟩ := encStep_cases hstep
  cases hg.symm.trans hg'
  obtain ⟨emitted, p, hlast, rfl⟩ := emitSample_last hemit hf hrem
  have hout : (emitted.reverse ++ s.enc.outRev).reverse = s.enc.out ++ emitted := by simp [Encoder.out]
  obtain ⟨-, hnext⟩ | ⟨hmore, -⟩ := hrest
  · refine ⟨emitted, p, hlast, ?_⟩
    rcases nextSegment_cases hnext with ⟨hend, he⟩ | ⟨hend, g', hg', he⟩ <;> cases he
    · have hdone : s.enc.segIndex + 1 = 154564 := hend
      exact ⟨rfl, rfl, rfl, rfl, rfl, rfl, rfl, rfl, rfl, rfl, rfl,
        (if_pos hdone).mpr ⟨rfl, rfl, congrArg (s.events ++ [.encDone ·]) hout⟩⟩
    · have hmore : ¬s.enc.segIndex + 1 = 154564 := hend
      obtain ⟨f', hf'⟩ := segmentFreq_ok s.cfg.num s.enc.raster (segmentAt_inRaster hg')
      exact ⟨rfl, rfl, rfl, rfl, rfl, rfl, rfl, rfl, rfl, rfl, rfl,
        (if_neg hmore).mpr ⟨hbusy, hout, rfl, _, f', segmentRow_ok_iff.mpr ⟨g', hg', hf', rfl⟩, rfl⟩⟩
  · exact absurd rfl hmore

/-- Settles O42: the loop stops below TWO_PI (`wrapLoop_some`), after the turns of `wrapLoop_iterate`. -/
theorem wrapSubtractsWholeTurns : Obligations.WrapSubtractsWholeTurns := by
  unfold Obligations.WrapSubtractsWholeTurns
  intro N p q h
  have hloop := wrapPhase_ok_iff.mp h
  exact ⟨wrapLoop_some hloop, wrapLoop_iterate hloop⟩

/-- Settles O43: the sample is a product of two values of [-1, 1]. -/
theorem oscillatorSampleInUnitRange : Obligations.OscillatorSampleInUnitRange := by
  unfold Obligations.OscillatorSampleInUnitRange
  intro cfg phase hN hamp
  unfold oscSample
  rw [hN]
  exact (mul_unit_between (unit_between hamp) (sine_between cfg.sine phase)).within

/-- Settles O45: the samples out are the target of the segment before, and `targets_mono` puts this segment's target above it. -/
theorem segmentCountsAreNeverNegative : Obligations.SegmentCountsAreNeverNegative := by
  unfold Obligations.SegmentCountsAreNeverNegative
  intro cfg raster sr k w g hN hrate h hg
  have hsr := between_of_within isFinite_one isFinite_kRateMax hrate
  have hafter := waveFrom_afterSegments hN hsr h
  rw [hafter.target, hafter.elapsed, ← durationAt_of_segmentAt hg]
  exact targets_mono (segmentAt_lt hg) hsr

end Sys2Proof.Proofs

/-! PROOFS. The FM modulator (spec/44_modulator.md R190 to R198): the segment table row by row, the records of ENC_STEP, the encoder's
place on WAVE, which its step moves on by one sample or one segment, and what ENC_ENCODE and ENC_CANCEL answer. -/

namespace Sys2Proof.Proofs

open Sys2Proof Sys2Proof.Machine Sys2Proof.F64

/-! ## The rows of a line (R192) -/

/-- The 644 rows of line l follow the header's four and those of the lines before it. -/
theorem segmentAt_line {l j : Nat} (hl : l < height) (hj : j < 644) : segmentAt (4 + 644 * l + j) = some (lineSegment l j) := by
  unfold height at hl
  have hrow : (4 + 644 * l + j - 4) / 644 = l ∧ (4 + 644 * l + j - 4) % 644 = j := by omega
  rw [segmentAt, if_neg (by omega), if_neg (by omega), if_neg (by omega), if_neg (by omega), if_pos (by unfold segmentTotal; omega),
    hrow.1, hrow.2]

theorem lineSegment_yScan {l x : Nat} (hx : x < width) : lineSegment l (2 + x) = .yScan l x := by
  unfold width at hx
  rw [lineSegment, if_neg (by omega), if_neg (by omega), if_pos (by omega), Nat.add_sub_cancel_left]

theorem lineSegment_uvScan (l x : Nat) : lineSegment l (324 + x) = .uvScan l x := by
  rw [lineSegment, if_neg (by omega), if_neg (by omega), if_neg (by omega), if_neg (by omega), if_neg (by omega),
    Nat.add_sub_cancel_left]

theorem lineSegment_eq_sync {l line j : Nat} (h : lineSegment line j = .sync l) : line = l ∧ j = 0 := by
  unfold lineSegment at h
  split_ifs at h with hzero
  exact ⟨Segment.sync.inj h, hzero⟩

/-- The one SYNC row of line l is 4 + 644·l. -/
theorem segmentAt_eq_sync_iff {k l : Nat} : segmentAt k = some (.sync l) ↔ l < height ∧ k = 4 + 644 * l := by
  constructor
  · intro h
    refine ⟨segmentAt_inRaster h, ?_⟩
    unfold segmentAt at h
    split_ifs at h
    · cases h
    · cases h
    · cases h
    · cases h
    · obtain ⟨hline, hrow⟩ := lineSegment_eq_sync (Option.some.inj h)
      omega
  · rintro ⟨hl, rfl⟩
    exact segmentAt_line hl (j := 0) (by omega)

section Rows

variable {N : NumDomain} {raster : Cells (Cells Pixel)} {k l x : Nat} {g : Segment}

/-- The row of a known segment: its DUR and its FREQ. -/
theorem segmentRow_of_segmentAt {f : F64} (hg : segmentAt k = some g) (hf : segmentFreq N raster g = .ok f) :
    segmentRow N raster k = .ok (segmentDur N g, f) :=
  segmentRow_ok_iff.mpr ⟨g, hg, hf, rfl⟩

/-- The luma row of a pixel. -/
theorem segmentRow_yScan {p : Pixel} (hx : x < width) (hp : readRaster raster x l = .ok p) :
    segmentRow N raster (6 + 644 * l + x) = .ok (N.div tYScan kWidth, lumaFreq N p) := by
  obtain ⟨-, hl, -⟩ := readRaster_ok_iff.mp hp
  have hrow : segmentAt (4 + 644 * l + (2 + x)) = some (.yScan l x) :=
    lineSegment_yScan hx ▸ segmentAt_line hl (by unfold width at hx; omega)
  rw [show 6 + 644 * l + x = 4 + 644 * l + (2 + x) by omega]
  exact segmentRow_of_segmentAt hrow (by simp only [segmentFreq, bind, Except.bind, hp])

/-- The chroma row of a pixel. -/
theorem segmentRow_uvScan {p : Pixel} (hp : readRaster raster x l = .ok p) :
    segmentRow N raster (328 + 644 * l + x) = .ok (N.div tUvScan kWidth, chromaFreq N l p) := by
  obtain ⟨hx, hl, -⟩ := readRaster_ok_iff.mp hp
  have hrow : segmentAt (4 + 644 * l + (324 + x)) = some (.uvScan l x) :=
    lineSegment_uvScan l x ▸ segmentAt_line hl (by unfold width at hx; omega)
  rw [show 328 + 644 * l + x = 4 + 644 * l + (324 + x) by omega]
  exact segmentRow_of_segmentAt hrow (by simp only [segmentFreq, bind, Except.bind, hp])

end Rows

/-! ## The records of ENC_STEP (R194 to R197) -/

theorem mem_progressEvents_iff {period k : Nat} {ev : Event} :
    ev ∈ progressEvents period k ↔ ∃ l, segmentAt k = some (.sync l) ∧ l % period = 0 ∧ ev = .progress l height := by
  unfold progressEvents
  split
  next line hline =>
    by_cases hperiod : line % period = 0
    · simp [hline, hperiod]
    · simp [hline, hperiod]
  next hother =>
    refine iff_of_false List.not_mem_nil ?_
    rintro ⟨l, hl, -⟩
    exact hother l hl

theorem progress_mem_progressEvents_iff {period k l h : Nat} :
    .progress l h ∈ progressEvents period k ↔ l < height ∧ k = 4 + 644 * l ∧ l % period = 0 ∧ h = 240 := by
  rw [mem_progressEvents_iff]
  constructor
  · rintro ⟨l', hsync, hperiod, hev⟩
    cases hev
    obtain ⟨hl, hk⟩ := segmentAt_eq_sync_iff.mp hsync
    exact ⟨hl, hk, hperiod, rfl⟩
  · rintro ⟨hl, hk, hperiod, rfl⟩
    exact ⟨l, segmentAt_eq_sync_iff.mpr ⟨hl, hk⟩, hperiod, rfl⟩

/-- A PROGRESS record comes with the step into its line's SYNC: a step inside a segment and the last one emit none. -/
theorem encStep_progress_iff {cfg : Config} {e e' : Encoder} {es : List Event} {l h : Nat} (hbusy : e.busy = true)
    (hstep : encStep cfg e = .ok (e', es)) :
    .progress l h ∈ es ↔
      e'.busy = true ∧ e'.segIndex = e.segIndex + 1 ∧ e'.segIndex = 4 + 644 * l ∧ l % cfg.progressPeriod = 0 ∧ h = 240 := by
  obtain ⟨g, e1, -, hemit, hrest⟩ := encStep_cases hstep
  obtain ⟨hbusy1, hseg1⟩ := emitSample_frame hemit
  rcases hrest with ⟨-, hnext⟩ | ⟨-, he⟩
  · rcases nextSegment_cases hnext with ⟨-, he⟩ | ⟨-, g', hg', he⟩ <;> cases he
    · simp
    · rw [progress_mem_progressEvents_iff, hseg1]
      constructor
      · rintro ⟨-, hk, hperiod, hh⟩
        exact ⟨hbusy1.trans hbusy, rfl, hk, hperiod, hh⟩
      · rintro ⟨-, -, (hk : e.segIndex + 1 = 4 + 644 * l), hperiod, hh⟩
        have hlast := segmentAt_lt hg'
        unfold segmentTotal at hlast
        exact ⟨by unfold height; omega, hk, hperiod, hh⟩
  · cases he
    refine iff_of_false List.not_mem_nil ?_
    rintro ⟨-, hindex, -⟩
    omega

/-- A tick puts records of the decoder's on the port. -/
theorem sampleTick_decoderEvents {cfg : Config} {sr raw : F64} {d d' : Decoder} {es : List Event}
    (h : sampleTick cfg sr raw d = .ok (d', es)) : ∀ ev ∈ es, isDecoderEvent ev = true := by
  have hscan : ∀ {t : F64} {es : List Event}, ScanRecords cfg.num t es → ∀ ev ∈ es, isDecoderEvent ev = true := by
    rintro t es (rfl | ⟨-, x, y, c, rfl⟩)
    · nofun
    · simp [isDecoderEvent]
  rcases sampleTick_records h with ⟨line, rfl⟩ | hrecords | ⟨-, es', hrecords, rfl⟩
  · simp [isDecoderEvent]
  · exact hscan hrecords
  · exact List.forall_mem_append.mpr ⟨hscan hrecords, by simp [isDecoderEvent]⟩

/-- A command puts records of the decoder's on the port, if any (60 R252). -/
theorem commandEvents_decoderEvents {cfg : Config} {cmd : Command} {d : Decoder} {i : Instr} :
    ∀ ev ∈ commandEvents cfg cmd d i, isDecoderEvent ev = true := by
  intro ev hmem
  obtain rfl := eq_decSample_of_emits hmem
  simp only [commandEvents, sampleEvents] at hmem
  split at hmem
  · cases hmem
  · split at hmem
    · split at hmem
      next htick => exact sampleTick_decoderEvents htick ev hmem
      next => cases hmem
    · cases hmem

/-- The encoder's move emits by ENC_STEP alone. -/
theorem encoderMove_emits {s t : State} {es : List Event} {ev : Event} (h : encoderMove s = .next t)
    (hev : t.events = s.events ++ es) (hmem : ev ∈ es) : s.enc.busy = true ∧ encStep s.cfg s.enc = .ok (t.enc, es) := by
  rcases encoderMove_cases s with ⟨-, he⟩ | ⟨hbusy, e, es', hstep, he⟩ | ⟨-, f, -, he⟩ <;> cases he.symm.trans h
  · rw [List.self_eq_append_right.mp hev] at hmem; cases hmem
  · obtain rfl : es' = es := List.append_cancel_left hev
    exact ⟨hbusy, hstep⟩

/-- A step that puts a record of the encoder's on the port is the encoder's own (R194, 60 R252). -/
theorem step_emits_encoderEvent {s t : State} {es : List Event} {ev : Event} (h : step s = .next t) (hev : t.events = s.events ++ es)
    (hmem : ev ∈ es) (henc : isDecoderEvent ev = false) : s.enc.busy = true ∧ encStep s.cfg s.enc = .ok (t.enc, es) := by
  have hlonger : ¬t.events.length ≤ s.events.length := by
    have hpos := List.length_pos_of_mem hmem
    rw [hev, List.length_append]
    omega
  rcases step_cases s with ⟨c, rest, i, -, -, he⟩ | ⟨c, rest, x, -, -, he⟩ | ⟨rest, he⟩ | ⟨rest, -, he⟩ | ⟨rest, -, -, he⟩ <;>
    rw [he] at h
  · obtain rfl : es = commandEvents s.cfg c s.dec i := List.append_cancel_left (hev.symm.trans (exec_events h))
    exact absurd (henc.symm.trans (commandEvents_decoderEvents ev hmem)) nofun
  · cases h; exact absurd (le_refl _) hlonger
  · exact encoderMove_emits (s := { s with script := rest }) h hev hmem
  · cases h; exact absurd (by simp) hlonger
  · cases h; exact absurd (le_refl _) hlonger

/-! ## The place on the waveform (R191, R197) -/

section OnWave

variable {cfg : Config} {raster : Cells (Cells Pixel)} {sr f v p : F64} {g : Segment} {n : Nat} {e e' : Encoder} {es : List Event}
  {w w' : WaveState}

/-- The samples of a segment whose frequency is known. -/
theorem wavePart_of_freq (hf : segmentFreq cfg.num raster g = .ok f) (n : Nat) (w : WaveState) :
    wavePart cfg raster sr g n w = waveSamples cfg sr f n w := by
  unfold wavePart
  cases n with
  | zero => rfl
  | succ n => simp only [Nat.succ_ne_zero, if_false, bind, Except.bind, hf]

/-- One more sample of the segment, by OSC_STEP at its frequency. -/
theorem wavePart_succ (hf : segmentFreq cfg.num raster g = .ok f) (hosc : oscStep cfg sr f w'.phase = .ok (v, p))
    (h : wavePart cfg raster sr g n w = .ok w') : wavePart cfg raster sr g (n + 1) w =
      .ok { w' with sampleIndex := w'.sampleIndex + 1, phase := p, samples := w'.samples ++ [v] } := by
  rw [wavePart_of_freq hf] at h
  rw [wavePart_of_freq hf, waveSamples_succ, h]
  simp only [Except.bind, waveSamples, bind, hosc]

/-- One more segment: its samples, and then its duration. -/
theorem waveFrom_succ_of_part {k : Nat} (hw : waveFrom cfg raster sr k 0 waveStart = .ok w) (hg : segmentAt k = some g)
    (h : wavePart cfg raster sr g (waveCount cfg.num sr (segmentDur cfg.num g) w) w = .ok w') :
    waveFrom cfg raster sr (k + 1) 0 waveStart = .ok { w' with elapsed := cfg.num.add w'.elapsed (segmentDur cfg.num g) } := by
  rw [waveFrom_succ, hw, Nat.zero_add, fetchSegment_ok_iff.mpr hg]
  simp only [Except.bind, waveSegment_eq, h]

/-- ENC_ENCODE puts the encoder at the start of WAVE (R190). -/
theorem onWave_encodeStart (cfg : Config) (sr : F64) (raster : Cells (Cells Pixel)) (e : Encoder) :
    OnWave cfg (encodeStart cfg.num sr raster e) :=
  ⟨waveStart, waveStart, 0, .leader1, rfl, rfl, Nat.zero_add _, rfl, rfl, rfl, rfl, rfl⟩

/-- The first half of ENC_STEP emits WAVE's next sample, or none. -/
theorem onWave_emitSample (hwave : OnWave cfg e) (hg : segmentAt e.segIndex = some g) (h : emitSample cfg g e = .ok e') :
    OnWave cfg e' := by
  rcases emitSample_cases h with ⟨-, rfl⟩ | ⟨hpos, f, v, p, hf, hosc, rfl⟩
  · exact hwave
  · obtain ⟨w, w', n, g', hw, hg', hcount, hpart, hindex, hphase, helapsed, hout⟩ := hwave
    cases hg.symm.trans hg'
    rw [hphase] at hosc
    have hcount' : n + 1 + (e.segRemaining - 1) = waveCount cfg.num e.sr (segmentDur cfg.num g) w := by omega
    have hout' : (v :: e.outRev).reverse = w'.samples ++ [v] := by rw [← hout]; exact List.reverse_cons
    exact ⟨w, _, n + 1, g, hw, hg, hcount', wavePart_succ hf hosc hpart, congrArg (· + 1) hindex, rfl, helapsed, hout'⟩

/-- With no sample of its segment to come, the encoder has emitted WAVE up to the segment's end (R173). -/
theorem onWave_segmentDone (hwave : OnWave cfg e) (hg : segmentAt e.segIndex = some g) (hdone : e.segRemaining = 0) :
    waveFrom cfg e.raster e.sr (e.segIndex + 1) 0 waveStart = .ok
      { sampleIndex := e.sampleIndex, phase := e.phase, elapsed := cfg.num.add e.elapsed (segmentDur cfg.num g), samples := e.out } := by
  obtain ⟨w, w', n, g', hw, hg', hcount, hpart, hindex, hphase, helapsed, hout⟩ := hwave
  cases hg.symm.trans hg'
  rw [hdone, Nat.add_zero] at hcount
  rw [waveFrom_succ_of_part hw hg (hcount ▸ hpart), hindex, hphase, helapsed, hout]

/-- The second half of ENC_STEP puts the encoder at the start of the next segment, or completes with the whole of WAVE (R195). -/
theorem onWave_nextSegment {old : Nat × Nat} (hwave : OnWave cfg e) (hg : segmentAt e.segIndex = some g) (hdone : e.segRemaining = 0)
    (h : nextSegment cfg g old e = .ok (e', es)) :
    (e'.busy = true → OnWave cfg e') ∧ ∀ buf, .encDone buf ∈ es → wave cfg e.raster e.sr = .ok buf := by
  have hw := onWave_segmentDone hwave hg hdone
  rcases nextSegment_cases h with ⟨hlast, he⟩ | ⟨-, g', hg', he⟩ <;> cases he
  · rw [hlast] at hw
    refine ⟨nofun, fun buf hbuf => ?_⟩
    cases List.mem_singleton.mp hbuf
    exact wave_of_waveFrom hw
  · refine ⟨fun _ => ⟨_, _, 0, g', hw, hg', Nat.zero_add _, rfl, rfl, rfl, rfl, rfl⟩, fun buf hbuf => ?_⟩
    obtain ⟨l, -, -, hev⟩ := mem_progressEvents_iff.mp hbuf
    cases hev

theorem emitSample_operands (h : emitSample cfg g e = .ok e') : e'.raster = e.raster ∧ e'.sr = e.sr := by
  rcases emitSample_cases h with ⟨-, rfl⟩ | ⟨-, f, v, p, -, -, rfl⟩ <;> exact ⟨rfl, rfl⟩

/-- ENC_STEP keeps the encoder on WAVE, and its ENC_DONE carries the whole of it. -/
theorem onWave_encStep (hwave : OnWave cfg e) (h : encStep cfg e = .ok (e', es)) :
    (e'.busy = true → OnWave cfg e') ∧ ∀ buf, .encDone buf ∈ es → wave cfg e.raster e.sr = .ok buf := by
  obtain ⟨g, e1, hg, hemit, hrest⟩ := encStep_cases h
  have hwave1 := onWave_emitSample hwave hg hemit
  rcases hrest with ⟨hdone, hnext⟩ | ⟨-, he⟩
  · obtain ⟨-, hseg⟩ := emitSample_frame hemit
    obtain ⟨hraster, hsr⟩ := emitSample_operands hemit
    rw [← hseg] at hg
    rw [← hraster, ← hsr]
    exact onWave_nextSegment hwave1 hg hdone hnext
  · cases he; exact ⟨fun _ => hwave1, nofun⟩

/-- Every move of the encoder keeps a busy one on WAVE. -/
theorem onWave_next (hwave : e.busy = true → OnWave cfg e) (h : EncoderNext cfg e e') (hbusy : e'.busy = true) : OnWave cfg e' := by
  cases h with
  | same => exact hwave hbusy
  | start => exact onWave_encodeStart cfg _ _ e
  | cancel =>
    unfold encodeCancel at hbusy ⊢
    split at hbusy
    · cases hbusy
    next hidle => exact absurd hbusy hidle
  | step hold hstep => exact (onWave_encStep (hwave hold) hstep).1 hbusy

end OnWave

/-! ## The raster of ENC_ENCODE (R190, 60 R253, R258) -/

section Raster

variable {rows : List (List RGB)} {raster : Cells (Cells Pixel)}

theorem rasterShape_iff : rasterShape rows = true ↔ rows.length = 240 ∧ ∀ row ∈ rows, row.length = 320 := by
  simp only [rasterShape, Bool.and_eq_true, decide_eq_true_eq, List.all_eq_true]
  rfl

/-- An element-wise conversion answers exactly where each element converts. -/
theorem convertAll_isSome_iff {α β : Type} {f : α → Option β} {l : List α} :
    (convertAll f l).isSome = true ↔ ∀ a ∈ l, (f a).isSome = true := by
  induction l with
  | nil => simp [convertAll]
  | cons a rest ih =>
    rw [List.forall_mem_cons, ← ih]
    cases hf : f a <;> cases hr : convertAll f rest <;> simp [convertAll, hf, hr]

/-- The element at each index is the conversion of the one there. -/
theorem convertAll_getElem? {α β : Type} {f : α → Option β} {l : List α} {r : List β} {i : Nat} {a : α}
    (h : convertAll f l = some r) (ha : l[i]? = some a) : ∃ b, r[i]? = some b ∧ f a = some b := by
  rw [convertAll_some_iff] at h
  induction h generalizing i with
  | nil => cases ha
  | cons hhead _ ih =>
    cases i with
    | zero => cases ha; exact ⟨_, rfl, hhead⟩
    | succ i => exact ih ha

theorem pixelOf_eq_some_iff {c : RGB} {p : Pixel} :
    pixelOf c = some p ↔ byteComponent c.r = some p.r ∧ byteComponent c.g = some p.g ∧ byteComponent c.b = some p.b := by
  unfold pixelOf
  split
  next r g b hr hg hb =>
    cases p
    simp [hr, hg, hb]
  next hnone =>
    refine iff_of_false nofun ?_
    rintro ⟨hr, hg, hb⟩
    exact hnone _ _ _ hr hg hb

theorem pixelOf_isSome_iff {c : RGB} : (pixelOf c).isSome = true ↔ ∀ v ∈ [c.r, c.g, c.b], byteComponent v ≠ none := by
  simp only [List.forall_mem_cons, Option.ne_none_iff_exists', Option.isSome_iff_exists, pixelOf_eq_some_iff]
  constructor
  · rintro ⟨p, hr, hg, hb⟩
    exact ⟨⟨_, hr⟩, ⟨_, hg⟩, ⟨_, hb⟩, nofun⟩
  · rintro ⟨⟨r, hr⟩, ⟨g, hg⟩, ⟨b, hb⟩, -⟩
    exact ⟨⟨r, g, b⟩, hr, hg, hb⟩

/-- A raster is copied exactly where each component is an integer in 0..255 (60 R258). -/
theorem rasterCells_isSome_iff :
    (rasterCells rows).isSome = true ↔ ∀ row ∈ rows, ∀ c ∈ row, ∀ v ∈ [c.r, c.g, c.b], byteComponent v ≠ none := by
  have hconvert : (rasterCells rows).isSome = (convertAll (convertAll pixelOf) rows).isSome := by
    unfold rasterCells
    cases convertAll (convertAll pixelOf) rows <;> rfl
  simp only [hconvert, convertAll_isSome_iff, pixelOf_isSome_iff]

theorem cellsGet_ofList_of_getElem? {α : Type} [DecidableEq α] {dflt a : α} {l : List α} {i : Nat} (h : l[i]? = some a) :
    cellsGet dflt (cellsOfList dflt 0 l) i = a := by
  obtain ⟨hi, rfl⟩ := List.getElem?_eq_some_iff.mp h
  rw [← cellsGet_ofList (dflt := dflt) l 0 i hi, Nat.zero_add]

/-- The copy holds at each pixel the components of the raster's triple there. -/
theorem readRaster_rasterCells {x y : Nat} {row : List RGB} {c : RGB} (hshape : rasterShape rows = true)
    (h : rasterCells rows = some raster) (hrow : rows[y]? = some row) (hc : row[x]? = some c) :
    ∃ p, readRaster raster x y = .ok p ∧ pixelOf c = some p := by
  obtain ⟨hheight, hwidth⟩ := rasterShape_iff.mp hshape
  have hy : y < rows.length := (List.getElem?_eq_some_iff.mp hrow).1
  have hx : x < row.length := (List.getElem?_eq_some_iff.mp hc).1
  rw [hheight] at hy
  rw [hwidth row (List.mem_of_getElem? hrow)] at hx
  unfold rasterCells at h
  split at h
  next pixels hconvert =>
    cases h
    obtain ⟨ps, hps, hconv⟩ := convertAll_getElem? hconvert hrow
    obtain ⟨p, hp, hpixel⟩ := convertAll_getElem? hconv hc
    refine ⟨p, readRaster_ok_iff.mpr ⟨hx, hy, ?_⟩, hpixel⟩
    rw [cellsGet_ofList_of_getElem? (a := cellsOfList blackPixel 0 ps) (by rw [List.getElem?_map, hps]; rfl),
      cellsGet_ofList_of_getElem? hp]
  next => cases h

theorem encodeStart_segRemaining (N : NumDomain) (sr : F64) (raster : Cells (Cells Pixel)) (e : Encoder) :
    (encodeStart N sr raster e).segRemaining = (N.floor (N.mul (N.add F64.zero tLeader) sr)).toNat :=
  congrArg Int.toNat (Int.sub_zero _)

end Raster

/-! ## The statements of 44_modulator -/

/-- Settles O47: each move of the encoder keeps it on WAVE (`onWave_next`), and an ENC_DONE is of ENC_STEP, at WAVE's end. -/
theorem everyEncDoneIsTheWaveform : Obligations.EveryEncDoneIsTheWaveform := by
  unfold Obligations.EveryEncDoneIsTheWaveform
  intro s t h hwave
  obtain ⟨hcfg, -, henc⟩ := step_agentsNext h
  refine ⟨fun hbusy => hcfg ▸ onWave_next hwave henc hbusy, fun es buf hev hmem => ?_⟩
  obtain ⟨hbusy, hstep⟩ := step_emits_encoderEvent h hev hmem rfl
  exact (onWave_encStep (hwave hbusy) hstep).2 buf hmem

/-- Settles O39: the header's rows compute, the fixed rows of a line are found by their place in it (`segmentAt_line`), and the pixels'
rows are `segmentRow_yScan` and `segmentRow_uvScan`. -/
theorem segmentListIsTheTable : Obligations.SegmentListIsTheTable := by
  unfold Obligations.SegmentListIsTheTable
  refine fun N raster => ⟨rfl, rfl, rfl, rfl, fun l hl => ?_, fun k => segmentAt_eq_none_iff.mpr⟩
  have row {j : Nat} (hj : j < 644) : segmentAt (4 + 644 * l + j) = some (lineSegment l j) := segmentAt_line hl hj
  refine ⟨segmentRow_of_segmentAt (row (j := 0) (by omega)) rfl, ?_, ?_, ?_, fun x hx => ?_⟩
  · rw [show 5 + 644 * l = 4 + 644 * l + 1 by omega]
    exact segmentRow_of_segmentAt (row (by omega)) rfl
  · rw [show 326 + 644 * l = 4 + 644 * l + 322 by omega]
    exact segmentRow_of_segmentAt (row (by omega)) rfl
  · rw [show 327 + 644 * l = 4 + 644 * l + 323 by omega]
    exact segmentRow_of_segmentAt (row (by omega)) rfl
  · have hp : readRaster raster x l = .ok _ := readRaster_ok_iff.mpr ⟨hx, hl, rfl⟩
    exact ⟨_, hp, segmentRow_yScan hx hp, segmentRow_uvScan hp⟩

/-- Settles O44: `encStep_progress_iff` for the step of a busy encoder; an idle one takes no step and emits nothing. -/
theorem progressAtTheListedLines : Obligations.ProgressAtTheListedLines := by
  unfold Obligations.ProgressAtTheListedLines
  intro s t es l h hmove hev
  rcases encoderMove_cases s with ⟨hidle, he⟩ | ⟨hbusy, e, es', hstep, he⟩ | ⟨-, f, -, he⟩ <;> cases he.symm.trans hmove
  · rw [List.self_eq_append_right.mp hev]
    simp [hidle]
  · obtain rfl : es' = es := List.append_cancel_left hev
    rw [and_iff_right hbusy]
    exact encStep_progress_iff hbusy hstep

/-- Settles O37: the four checks one after the other, and the fields of `encodeStart` with the raster that `rasterCells` copies. -/
theorem encEncodeResult : Obligations.EncEncodeResult := by
  unfold Obligations.EncEncodeResult
  intro s rows hb0 shape bytes
  have hrows : bulkRaster s.cmd.b0 = rows := by rw [hb0]; rfl
  have hshape : rasterShape rows = true ↔ shape := rasterShape_iff
  have hbytes : (rasterCells rows).isSome = true ↔ bytes := rasterCells_isSome_iff
  refine ⟨fun hrate => ?_, fun hrate hbusy => ?_, fun hrate hidle hnot => ?_, fun hrate hidle hok hnot => ?_,
    fun hrate hidle hok hadmitted => ?_⟩
  · have hexec : execEncEncode s = .next (s.refuse .refRate) := by simp [execEncEncode, hrate]
    exact ⟨_, hexec, refusedWith_refuse s _⟩
  · have hexec : execEncEncode s = .next (s.raise .encBusyErr) := by simp [execEncEncode, hrate, hbusy]
    exact ⟨_, hexec, onlyStatus_raise s _⟩
  · have hexec : execEncEncode s = .next (s.raise .configDimension) := by
      simp [execEncEncode, hrate, hidle, hrows, mt hshape.mp hnot]
    exact ⟨_, hexec, onlyStatus_raise s _⟩
  · have hnone : rasterCells rows = none := Option.not_isSome_iff_eq_none.mp (mt hbytes.mp hnot)
    have hexec : execEncEncode s = .next (s.refuse .refRasterValue) := by
      simp [execEncEncode, hrate, hidle, hrows, hshape.mpr hok, hnone]
    exact ⟨_, hexec, refusedWith_refuse s _⟩
  · obtain ⟨raster, hcells⟩ := Option.isSome_iff_exists.mp (hbytes.mpr hadmitted)
    have hexec : execEncEncode s =
        .next (State.returns { s with enc := encodeStart s.cfg.num s.cmd.a0 raster s.enc, cancelled := false } .ok) := by
      simp [execEncEncode, hrate, hidle, hrows, hshape.mpr hok, hcells]
    refine ⟨_, hexec, statusIs_returns _ _, rfl, rfl, rfl, rfl, rfl, rfl, rfl, rfl, rfl, rfl, rfl, rfl,
      encodeStart_segRemaining _ _ _ _, fun y x row c hrow hc => ?_⟩
    obtain ⟨p, hread, hpixel⟩ := readRaster_rasterCells (hshape.mpr hok) hcells hrow hc
    exact ⟨p, hread, pixelOf_eq_some_iff.mp hpixel⟩

/-- Settles O38: the one outcome of ENC_CANCEL, for a busy and for an idle encoder. -/
theorem encCancelResult : Obligations.EncCancelResult := by
  unfold Obligations.EncCancelResult
  intro s
  have hexec : exec .encCancel s =
      .next (State.returns { s with enc := encodeCancel s.enc, cancelled := s.cancelled || s.enc.busy } .ok) := rfl
  refine ⟨_, hexec, statusIs_returns _ _, rfl, rfl, rfl, rfl, fun hbusy => ?_, fun hidle => ?_⟩
  · have hcancel : encodeCancel s.enc = { s.enc with outRev := [], busy := false } := if_pos hbusy
    simp [hcancel, hbusy, Encoder.out]
  · have hcancel : encodeCancel s.enc = s.enc := if_neg (by simp [hidle])
    simp [hcancel, hidle]

end Sys2Proof.Proofs

/-! PROOFS. The colour converter (spec/45_color_converter.md R210 to R217): what the four commands answer to admitted operands, and in the
default domain NUM = binary64 the ranges of the transforms and the two saturated ends of FREQ2VAL, from the monotone rounding. -/

namespace Sys2Proof.Proofs

open Sys2Proof Sys2Proof.Machine Sys2Proof.F64

/-! ## The answers of the commands (R214 to R217) -/

/-- A response whose fill sets the status changes no state but the channel. -/
theorem onlyStatus_respond (s : State) {fill : Response → Response} {st : Status}
    (h : (fill (freeResponse s.freeIndex)).status = statusCode st) : onlyStatus s (s.respond fill) st :=
  ⟨⟨rfl, rfl, rfl, rfl, rfl⟩, rfl, _, State.respond_resp s fill, h⟩

theorem onlyStatus_returnsQ (s : State) (q0 q1 q2 : F64) : onlyStatus s (s.returnsQ q0 q1 q2) .ok := onlyStatus_respond s rfl

theorem onlyStatus_returnsQ0 (s : State) (q0 : F64) : onlyStatus s (s.returnsQ0 q0) .ok := onlyStatus_respond s rfl

section Admitted

variable {s : State} (h0 : cvtOperand s.cmd.a0 = true) (h1 : cvtOperand s.cmd.a1 = true) (h2 : cvtOperand s.cmd.a2 = true)

include h0

theorem exec_cvtVal2freq : exec .cvtVal2freq s = .next (s.returnsQ0 (val2freq s.cfg.num s.cmd.a0)) := if_pos h0

theorem exec_cvtFreq2val : exec .cvtFreq2val s = .next (s.returnsQ0 (freq2val s.cfg.num s.cmd.a0)) := if_pos h0

include h1 h2

theorem exec_cvtRgb2yuv :
    exec .cvtRgb2yuv s = .next (s.returnsQ (lumaOf s.cfg.num s.cmd.a0 s.cmd.a1 s.cmd.a2) (cbOf s.cfg.num s.cmd.a0 s.cmd.a1 s.cmd.a2)
      (crOf s.cfg.num s.cmd.a0 s.cmd.a1 s.cmd.a2)) :=
  if_pos (by simp [h0, h1, h2])

theorem exec_cvtYuv2rgb :
    exec .cvtYuv2rgb s = .next (s.returnsQ (yuv2rgb s.cfg.num s.cmd.a0 s.cmd.a1 s.cmd.a2).r
      (yuv2rgb s.cfg.num s.cmd.a0 s.cmd.a1 s.cmd.a2).g (yuv2rgb s.cfg.num s.cmd.a0 s.cmd.a1 s.cmd.a2).b) :=
  if_pos (by simp [h0, h1, h2])

end Admitted

/-! ## The inverse transform (R211) -/

/-- The operands that a converter command admits (60_exceptions R258). -/
theorem cvtOperand_between {v : F64} (h : cvtOperand v = true) : Between (neg kCvtMax) kCvtMax v := by
  simp only [cvtOperand, Bool.and_eq_true] at h
  exact between_of_within (by decide +kernel) (by decide +kernel) h.2

theorem chromaOffset_between {c : F64} (hc : Between (neg kCvtMax) kCvtMax c) :
    Between (F64.sub (neg kCvtMax) (decimal 128 0)) (F64.sub kCvtMax (decimal 128 0)) (F64.sub c (decimal 128 0)) := by
  refine hc.sub (Between.self ?_) ?_ ?_ <;> decide +kernel

/-- No operation before the clamps of R211 overflows on admitted operands. -/
theorem yuv2rgb_between_of_cvtOperand {y cb cr : F64} (hy : cvtOperand y = true) (hcb : cvtOperand cb = true)
    (hcr : cvtOperand cr = true) : PixelBetween (yuv2rgb .binary64 y cb cr) := by
  have y' := cvtOperand_between hy
  have cb' := chromaOffset_between (cvtOperand_between hcb)
  have cr' := chromaOffset_between (cvtOperand_between hcr)
  constructor
  case r => refine (y'.add (cr'.mul_left ?_ ?_ ?_ ?_) ?_ ?_).clamp ?_ ?_ ?_ <;> decide +kernel
  case g =>
    refine ((y'.sub (cb'.mul_left ?_ ?_ ?_ ?_) ?_ ?_).sub (cr'.mul_left ?_ ?_ ?_ ?_) ?_ ?_).clamp ?_ ?_ ?_ <;> decide +kernel
  case b => refine (y'.add (cb'.mul_left ?_ ?_ ?_ ?_) ?_ ?_).clamp ?_ ?_ ?_ <;> decide +kernel

theorem add_zero_exact {x : F64} (hx : x.isFinite = true) :
    (F64.add x F64.zero).isFinite = true ∧ (F64.add x F64.zero).units = x.units := by
  obtain ⟨hfin, hlo, hhi⟩ := add_between hx isFinite_zero hx hx (by rw [units_zero, add_zero]) (by rw [units_zero, add_zero])
  exact ⟨hfin, le_antisymm hhi hlo⟩

theorem sub_zero_exact {x : F64} (hx : x.isFinite = true) :
    (F64.sub x F64.zero).isFinite = true ∧ (F64.sub x F64.zero).units = x.units := by
  obtain ⟨hfin, hlo, hhi⟩ := sub_between hx isFinite_zero hx hx (by rw [units_zero, sub_zero]) (by rw [units_zero, sub_zero])
  exact ⟨hfin, le_antisymm hhi hlo⟩

/-- With neutral chroma every product of R211 is zero. -/
theorem yuv2rgb_neutral (y : F64) :
    yuv2rgb .binary64 y (decimal 128 0) (decimal 128 0)
      = ⟨clampByte .binary64 (F64.add y F64.zero), clampByte .binary64 (F64.sub (F64.sub y F64.zero) F64.zero),
        clampByte .binary64 (F64.add y F64.zero)⟩ := by
  have hr : F64.mul (decimal 1402 3) (F64.sub (decimal 128 0) (decimal 128 0)) = F64.zero := by decide +kernel
  have hgb : F64.mul (decimal 344 3) (F64.sub (decimal 128 0) (decimal 128 0)) = F64.zero := by decide +kernel
  have hgr : F64.mul (decimal 714 3) (F64.sub (decimal 128 0) (decimal 128 0)) = F64.zero := by decide +kernel
  have hb : F64.mul (decimal 1772 3) (F64.sub (decimal 128 0) (decimal 128 0)) = F64.zero := by decide +kernel
  simp only [yuv2rgb, NumDomain.add_binary64, NumDomain.sub_binary64, NumDomain.mul_binary64, hr, hgb, hgr, hb]

/-- The clamp keeps the exact value y of [0, 255]. -/
theorem units_clampByte {y v : F64} (hy : Between F64.zero kVmax y) (hv : v.isFinite = true) (hunits : v.units = y.units) :
    (clampByte .binary64 v).units = y.units := by
  have hclamp : (clampByte .binary64 v).units = min (max v.units F64.zero.units) kVmax.units :=
    units_clamp hv isFinite_zero isFinite_kVmax
  rw [hclamp, hunits, max_eq_left hy.lo_le, min_eq_left hy.le_hi]

/-! ## FREQ2VAL (R213) -/

/-- The largest finite value. -/
def largest : F64 := pack false (infMagnitude - 1)

theorem between_largest {x : F64} (hx : x.isFinite = true) : Between (neg largest) largest x := by
  have hmag : largest.magnitude = infMagnitude - 1 ∧ largest.signBit = false := by decide +kernel
  have hfin : largest.isFinite = true := by decide +kernel
  have hle : (magUnits x.magnitude : Int) ≤ magUnits largest.magnitude := by
    have := (isFinite_iff x).mp hx
    exact_mod_cast magUnits_le_iff.mpr (by omega)
  refine ⟨by simpa using hfin, hfin, hx, ?_, ?_⟩ <;> rw [units_eq x]
  · rw [units_neg, units_eq, hmag.2]
    cases x.signBit <;> simp only [signedUnits, Bool.false_eq_true, if_false, if_true] <;> omega
  · rw [units_eq, hmag.2]
    cases x.signBit <;> simp only [signedUnits, Bool.false_eq_true, if_false, if_true] <;> omega

/-- The value of R213 before its clamp. -/
def freqScale (f : F64) : F64 := F64.mul (F64.div (F64.sub f kF0) kFspan) kVmax

theorem freq2val_eq_clamp (f : F64) : freq2val .binary64 f = F64.clamp (freqScale f) F64.zero kVmax := rfl

/-- No operation of R213 overflows on a finite frequency. -/
theorem isFinite_freqScale_steps {f : F64} (hf : f.isFinite = true) :
    (F64.sub f kF0).isFinite = true ∧ (F64.div (F64.sub f kF0) kFspan).isFinite = true ∧ (freqScale f).isFinite = true := by
  have hsub := (between_largest hf).sub (Between.self (x := kF0) (by decide +kernel)) (by decide +kernel) (by decide +kernel)
  have hdiv := hsub.div_right (c := kFspan) (by decide +kernel) (by decide +kernel) (by decide +kernel) (by decide +kernel)
  have hmul := hdiv.mul_right (c := kVmax) (by decide +kernel) (by decide +kernel) (by decide +kernel) (by decide +kernel)
  exact ⟨hsub.finite, hdiv.finite, hmul.finite⟩

theorem freqScale_between {a b f : F64} (hf : Between a b f) : Between (freqScale a) (freqScale b) (freqScale f) := by
  obtain ⟨ha1, ha2, ha3⟩ := isFinite_freqScale_steps hf.lo_finite
  obtain ⟨hb1, hb2, hb3⟩ := isFinite_freqScale_steps hf.hi_finite
  have hsub := hf.sub (Between.self (x := kF0) (by decide +kernel)) ha1 hb1
  have hdiv := hsub.div_right (c := kFspan) (by decide +kernel) (by decide +kernel) ha2 hb2
  exact hdiv.mul_right (by decide +kernel) (by decide +kernel) ha3 hb3

theorem freq2val_byteRange {f : F64} (hf : f.isFinite = true) : byteRange (freq2val .binary64 f) = true := by
  obtain ⟨-, -, hscale⟩ := isFinite_freqScale_steps hf
  exact clamp_within hscale isFinite_zero isFinite_kVmax (by decide +kernel)

/-- Up to 1500 Hz the value is +0.0: at 1500 itself by evaluation, and below it because already the predecessor of 1500 gives a
negative value before the clamp, which a -0.0 would not be. -/
theorem freq2val_low {f : F64} (hf : f.isFinite = true) (h : F64.le f kF0 = true) : freq2val .binary64 f = F64.zero := by
  have hF0 : kF0.isFinite = true := by decide +kernel
  rcases eq_or_lt_of_le ((le_iff hf hF0).mp h) with heq | hlt
  · have hbits : f = kF0 := (eq_of_units heq.symm (by decide +kernel)).symm
    rw [hbits]
    decide +kernel
  · have hnext : kF0 = pack false (kF0.magnitude - 1 + 1) := by decide +kernel
    have hpred : f.units ≤ (pack false (kF0.magnitude - 1)).units :=
      le_of_lt_next (by decide +kernel) (hnext ▸ hlt)
    have hscale := freqScale_between ⟨hf, by decide +kernel, hf, le_refl _, hpred⟩
    have hneg : (freqScale (pack false (kF0.magnitude - 1))).units < F64.zero.units := by decide +kernel
    exact clamp_of_lt hscale.finite isFinite_zero isFinite_kVmax (hscale.le_hi.trans_lt hneg) (by decide +kernel)

/-- From 2300 Hz on the value before the clamp is at least that at 2300, which is 255.0. -/
theorem freq2val_high {f : F64} (hf : f.isFinite = true) (h : F64.le (decimal 2300 0) f = true) :
    freq2val .binary64 f = kVmax := by
  have h2300 : (decimal 2300 0).isFinite = true := by decide +kernel
  have hscale := freqScale_between ⟨h2300, hf, hf, (le_iff h2300 hf).mp h, le_refl _⟩
  have htop : kVmax.units ≤ (freqScale (decimal 2300 0)).units := by decide +kernel
  exact clamp_of_ge hscale.finite isFinite_zero isFinite_kVmax (htop.trans hscale.lo_le) (by decide +kernel) (by decide +kernel)

/-! ## The statements of 45_color_converter -/

/-- Settles O53: each component lies between its values at two corners of [0, 255]³, which are in the studio range. -/
theorem forwardTransformRange : Obligations.ForwardTransformRange := by
  unfold Obligations.ForwardTransformRange
  intro r g b hr hg hb
  rw [byteRange_iff] at hr hg hb
  refine ⟨((lumaOf_between hr hg hb).mono ?_ ?_ ?_ ?_).within, ((cbOf_between hr hg hb).mono ?_ ?_ ?_ ?_).within,
    ((crOf_between hr hg hb).mono ?_ ?_ ?_ ?_).within⟩ <;> decide +kernel

/-- Settles O54: every channel ends in a clamp of a finite value; with neutral chroma it is Y with zeros added or taken away. -/
theorem inverseTransformRangeAndGrey : Obligations.InverseTransformRangeAndGrey := by
  unfold Obligations.InverseTransformRangeAndGrey
  refine ⟨fun y cb cr hy hcb hcr => (yuv2rgb_between_of_cvtOperand hy hcb hcr).range, fun y hy => ?_⟩
  rw [byteRange_iff] at hy
  obtain ⟨hadd, haddUnits⟩ := add_zero_exact hy.finite
  obtain ⟨hsub, hsubUnits⟩ := sub_zero_exact hy.finite
  obtain ⟨hsub2, hsub2Units⟩ := sub_zero_exact hsub
  rw [yuv2rgb_neutral]
  exact ⟨units_clampByte hy hadd haddUnits, units_clampByte hy hsub2 (hsub2Units.trans hsubUnits), units_clampByte hy hadd haddUnits⟩

/-- Settles O55: the clamp gives the range, `freq2val_low` and `freq2val_high` the two ends. -/
theorem frequencyMapSaturates : Obligations.FrequencyMapSaturates := by
  unfold Obligations.FrequencyMapSaturates
  exact fun f hf => ⟨freq2val_byteRange hf, freq2val_low hf, freq2val_high hf⟩

/-- Settles O49: the model's 112.0 and the statement's 112 are one value. -/
theorem cvtRgb2yuvResult : Obligations.CvtRgb2yuvResult := by
  unfold Obligations.CvtRgb2yuvResult
  intro s h0 h1 h2 N
  have h112 : decimal 1120 1 = decimal 112 0 := by decide +kernel
  refine ⟨_, _, exec_cvtRgb2yuv h0 h1 h2, onlyStatus_returnsQ _ _ _ _, State.returnsQ_resp _ _ _ _, rfl, ?_, ?_⟩
  · simp only [cbOf, h112, kCbR, kVmax, N]
  · simp only [crOf, h112, kVmax, N]

/-- Settles O50: the command answers with YUV2RGB of its operands, which is the three clamped formulas. -/
theorem cvtYuv2rgbResult : Obligations.CvtYuv2rgbResult := by
  unfold Obligations.CvtYuv2rgbResult
  intro s h0 h1 h2 N
  exact ⟨_, _, exec_cvtYuv2rgb h0 h1 h2, onlyStatus_returnsQ _ _ _ _, State.returnsQ_resp _ _ _ _, rfl, rfl, rfl⟩

/-- The values that R212 prints. -/
theorem val2freq_values :
    val2freq .binary64 F64.zero = decimal 1500 0 ∧ val2freq .binary64 (decimal 255 0) = decimal 2300 0
    ∧ val2freq .binary64 (decimal 128 0) = decimal 19015686274509803 13 := by decide +kernel

/-- Settles O51: the one outcome of the command, and the values of R212 evaluated. -/
theorem cvtVal2freqResult : Obligations.CvtVal2freqResult := by
  unfold Obligations.CvtVal2freqResult
  refine ⟨?_, by decide +kernel⟩
  intro s h0 N
  refine ⟨_, _, exec_cvtVal2freq h0, onlyStatus_returnsQ0 _ _, State.returnsQ0_resp _ _, rfl, fun hnum => ?_⟩
  obtain ⟨hzero, h255, h128⟩ := val2freq_values
  rw [hnum]
  exact ⟨fun h => h ▸ hzero, fun h => h ▸ h255, fun h => h ▸ h128⟩

/-- Settles O52: an admitted operand is finite, so that O55's lemmas hold of it; 1900 Hz is evaluated. -/
theorem cvtFreq2valResult : Obligations.CvtFreq2valResult := by
  unfold Obligations.CvtFreq2valResult
  intro s h0 N
  refine ⟨_, _, exec_cvtFreq2val h0, onlyStatus_returnsQ0 _ _, State.returnsQ0_resp _ _, rfl, fun hnum => ?_⟩
  have hfin := (cvtOperand_between h0).finite
  have h1900 : freq2val .binary64 (decimal 1900 0) = decimal 1275 1 := by decide +kernel
  rw [hnum]
  exact ⟨freq2val_byteRange hfin, freq2val_low hfin, freq2val_high hfin, fun h => h ▸ h1900⟩

end Sys2Proof.Proofs

/-! PROOFS. The WAV serializer (spec/46_wav_serializer.md R231 to R233): the bytes of the container, header and samples, and in the default
domain NUM = binary64 the 16-bit range of PCM16, from the monotone product and truncation. -/

namespace Sys2Proof.Proofs

open Sys2Proof Sys2Proof.Machine Sys2Proof.F64

/-! ## PCM16 (R232) -/

theorem pcm16_of_lt {v : F64} (h : F64.lt v F64.zero = true) : pcm16 .binary64 v = trunc (F64.mul v (decimal 32768 0)) := by
  simp only [pcm16, NumDomain.trunc_binary64, NumDomain.mul_binary64, NumDomain.lt_binary64, h, if_true]

theorem pcm16_of_not_lt {v : F64} (h : ¬F64.lt v F64.zero = true) : pcm16 .binary64 v = trunc (F64.mul v (decimal 32767 0)) := by
  simp only [pcm16, NumDomain.trunc_binary64, NumDomain.mul_binary64, NumDomain.lt_binary64, h, Bool.false_eq_true, if_false]

/-- Truncation toward zero is monotone. -/
theorem trunc_between {lo hi x : F64} (h : Between lo hi x) : trunc lo ≤ trunc x ∧ trunc x ≤ trunc hi :=
  ⟨Int.tdiv_le_tdiv (Int.natCast_pos.mpr unitsPerOne_pos) h.lo_le, Int.tdiv_le_tdiv (Int.natCast_pos.mpr unitsPerOne_pos) h.le_hi⟩

/-- Below zero the scale is 32768, so that -1.0 gives the least word. -/
theorem pcm16_range_of_lt {v : F64} (hv : Between (neg F64.one) F64.one v) (h : F64.lt v F64.zero = true) :
    -32768 ≤ pcm16 .binary64 v ∧ pcm16 .binary64 v ≤ 0 := by
  have hneg : Between (neg F64.one) F64.zero v :=
    ⟨hv.lo_finite, isFinite_zero, hv.finite, hv.lo_le, ((lt_iff hv.finite isFinite_zero).mp h).le⟩
  have hlo : trunc (F64.mul (neg F64.one) (decimal 32768 0)) = -32768 := by decide +kernel
  have hhi : trunc (F64.mul F64.zero (decimal 32768 0)) = 0 := by decide +kernel
  have hscaled := hneg.mul_right (c := decimal 32768 0) (by decide +kernel) (by decide +kernel) (by decide +kernel) (by decide +kernel)
  rw [pcm16_of_lt h, ← hlo, ← hhi]
  exact trunc_between hscaled

/-- From zero on the scale is 32767, so that 1.0 gives the greatest word. -/
theorem pcm16_range_of_not_lt {v : F64} (hv : Between (neg F64.one) F64.one v) (h : ¬F64.lt v F64.zero = true) :
    0 ≤ pcm16 .binary64 v ∧ pcm16 .binary64 v ≤ 32767 := by
  have hpos : Between F64.zero F64.one v :=
    ⟨isFinite_zero, hv.hi_finite, hv.finite, not_lt.mp (mt (lt_iff hv.finite isFinite_zero).mpr h), hv.le_hi⟩
  have hlo : trunc (F64.mul F64.zero (decimal 32767 0)) = 0 := by decide +kernel
  have hhi : trunc (F64.mul F64.one (decimal 32767 0)) = 32767 := by decide +kernel
  have hscaled := hpos.mul_right (c := decimal 32767 0) (by decide +kernel) (by decide +kernel) (by decide +kernel) (by decide +kernel)
  rw [pcm16_of_not_lt h, ← hlo, ← hhi]
  exact trunc_between hscaled

/-! ## The integer fields (R233) -/

theorem u16Bytes_eq_twoBytes (v : Nat) : u16Bytes v = twoBytes v := rfl

theorem u32Bytes_eq_fourBytes (v : Nat) : u32Bytes v = fourBytes v := by
  simp only [u32Bytes, littleEndian, fourBytes, Nat.div_div_eq_div_mul, Nat.reduceMul]

/-- The bytes of a two's complement word are those of the integer itself. -/
theorem s16Bytes_eq (v : Int) : s16Bytes v = [BitVec.ofInt 8 v, BitVec.ofInt 8 (v / 256)] := by
  have hlow : BitVec.ofNat 8 (BitVec.ofInt 16 v).toNat = BitVec.ofInt 8 v := by
    apply BitVec.eq_of_toNat_eq
    simp only [BitVec.toNat_ofNat, BitVec.toNat_ofInt]
    omega
  have hhigh : BitVec.ofNat 8 ((BitVec.ofInt 16 v).toNat / 256) = BitVec.ofInt 8 (v / 256) := by
    apply BitVec.eq_of_toNat_eq
    simp only [BitVec.toNat_ofNat, BitVec.toNat_ofInt]
    omega
  rw [s16Bytes, u16Bytes_eq_twoBytes, twoBytes, hlow, hhigh]

/-! ## The container (R233) -/

theorem wavHeader_length (n rate : Nat) : (wavHeader n rate).length = 44 := rfl

theorem wavHeader_eq (n rate : Nat) :
    wavHeader n rate = [0x52, 0x49, 0x46, 0x46] ++ fourBytes (36 + 2 * n) ++ [0x57, 0x41, 0x56, 0x45]
      ++ [0x66, 0x6D, 0x74, 0x20] ++ fourBytes 16 ++ twoBytes 1 ++ twoBytes 1 ++ fourBytes rate ++ fourBytes (rate * 2)
      ++ twoBytes 2 ++ twoBytes 16 ++ [0x64, 0x61, 0x74, 0x61] ++ fourBytes (2 * n) := by
  simp only [wavHeader, u32Bytes_eq_fourBytes, u16Bytes_eq_twoBytes, tagRiff, tagWave, tagFmt, tagData]

section Data

variable {N : NumDomain} {l : List F64}

theorem wavData_cons (v : F64) :
    wavData N (v :: l) = BitVec.ofInt 8 (pcm16 N v) :: BitVec.ofInt 8 (pcm16 N v / 256) :: wavData N l := by
  rw [wavData, List.flatMap_cons, s16Bytes_eq]
  rfl

theorem wavData_length : (wavData N l).length = 2 * l.length := by
  induction l with
  | nil => rfl
  | cons v rest ih =>
    rw [wavData_cons, List.length_cons, List.length_cons, List.length_cons, ih]
    omega

/-- Sample i is the two bytes from 2 i on, the low one first. -/
theorem wavData_getElem? {i : Nat} {v : F64} (h : l[i]? = some v) :
    (wavData N l)[2 * i]? = some (BitVec.ofInt 8 (pcm16 N v))
    ∧ (wavData N l)[2 * i + 1]? = some (BitVec.ofInt 8 (pcm16 N v / 256)) := by
  induction l generalizing i with
  | nil => cases h
  | cons w rest ih =>
    rw [wavData_cons]
    cases i with
    | zero => cases h; exact ⟨rfl, rfl⟩
    | succ i => exact ih h

theorem wavFile_length (rate : Nat) : (wavFile N l rate).length = 44 + 2 * l.length := by
  rw [wavFile, List.length_append, wavHeader_length, wavData_length]

theorem wavFile_take_header (rate : Nat) : (wavFile N l rate).take 44 = wavHeader l.length rate :=
  List.take_left' (wavHeader_length _ _)

/-- Past the header the container is its data. -/
theorem wavFile_getElem?_data (rate k : Nat) : (wavFile N l rate)[44 + k]? = (wavData N l)[k]? := by
  rw [wavFile, List.getElem?_append_right (by rw [wavHeader_length]; omega), wavHeader_length, Nat.add_sub_cancel_left]

end Data

/-! ## The answers of the command (R231, 60_exceptions R254) -/

theorem onlyStatus_returnsBytes (s : State) (bq : List Byte) : onlyStatus s (s.returnsBytes bq) .ok := onlyStatus_respond s rfl

section Answers

variable {s : State} {l : List F64} {n : Nat} (hb0 : s.cmd.b0 = .samples l) (hrate : wavRate s.cmd.a0 = some n)

include hb0 hrate

theorem exec_wavSerialize_empty (hl : l = []) : exec .wavSerialize s = .next (s.raise .emptyBuffer) := by
  simp [exec, execWavSerialize, hrate, hb0, bulkSamples, hl]

theorem exec_wavSerialize_admitted (hne : l ≠ []) (hsize : l.length ≤ wavMaxSamples) (hall : ∀ v ∈ l, unitSample v = true) :
    exec .wavSerialize s = .next (s.returnsBytes (wavFile s.cfg.num l n)) := by
  have hunit : l.all unitSample = true := List.all_eq_true.mpr hall
  simp [exec, execWavSerialize, hrate, hb0, bulkSamples, hne, hsize.not_gt, hunit]

end Answers

/-! ## The statements of 46_wav_serializer -/

/-- Settles O57: the sign of the sample chooses the scale, and the product lies between those of the ends of its half of [-1, 1]. -/
theorem pcm16FitsSixteenBits : Obligations.Pcm16FitsSixteenBits := by
  unfold Obligations.Pcm16FitsSixteenBits
  refine fun v hv => ⟨fun _ => rfl, ?_⟩
  have hunit := unitSample_between hv
  by_cases h : F64.lt v F64.zero = true
  · obtain ⟨hlo, hhi⟩ := pcm16_range_of_lt hunit h
    exact ⟨hlo, hhi.trans (by decide)⟩
  · obtain ⟨hlo, hhi⟩ := pcm16_range_of_not_lt hunit h
    exact ⟨le_trans (by decide) hlo, hhi⟩

/-- Settles O56: the two checks that R231 makes of an admitted rate's buffer, and the container by its header and its data. -/
theorem wavSerializeResult : Obligations.WavSerializeResult := by
  unfold Obligations.WavSerializeResult
  intro s l n hb0 hrate
  refine ⟨fun hl => ⟨_, exec_wavSerialize_empty hb0 hrate hl, onlyStatus_raise s _⟩, fun hne hsize hall => ?_⟩
  refine ⟨_, _, exec_wavSerialize_admitted hb0 hrate hne hsize hall, onlyStatus_returnsBytes s _, State.returnsBytes_resp s _,
    wavFile_length n, (wavFile_take_header n).trans (wavHeader_eq _ _), fun i v hi => ?_⟩
  obtain ⟨hlow, hhigh⟩ := wavData_getElem? (N := s.cfg.num) hi
  refine ⟨(wavFile_getElem?_data n _).trans hlow, ?_⟩
  rw [show 45 + 2 * i = 44 + (2 * i + 1) by omega]
  exact (wavFile_getElem?_data n _).trans hhigh

end Sys2Proof.Proofs

/-! PROOFS. Admission, refusals, statuses and progress (spec/60_exceptions.md R250 to R262): the admitted operands as exact numbers, the
three ways a command can end, and that no state with the invariant stops the machine. -/

namespace Sys2Proof.Proofs

open Sys2Proof Sys2Proof.Machine Sys2Proof.F64

/-! ## The admitted operands as exact numbers (R258) -/

/-- An admission check against two finite bounds, in units. -/
theorem isFinite_and_within_iff {lo hi v : F64} (hlo : lo.isFinite = true) (hhi : hi.isFinite = true) :
    (v.isFinite && within lo hi v) = true ↔ v.isFinite = true ∧ lo.units ≤ v.units ∧ v.units ≤ hi.units := by
  rw [Bool.and_eq_true]
  exact and_congr_right fun hv => within_iff hlo hhi hv

theorem unitSample_iff {v : F64} :
    unitSample v = true ↔ v.isFinite = true ∧ -(unitsPerOne : Int) ≤ v.units ∧ v.units ≤ (unitsPerOne : Int) := by
  rw [← units_one, ← units_neg]
  exact isFinite_and_within_iff isFinite_neg_one isFinite_one

theorem cvtOperand_iff {v : F64} :
    cvtOperand v = true ↔
      v.isFinite = true ∧ -(65536 * unitsPerOne : Int) ≤ v.units ∧ v.units ≤ (65536 * unitsPerOne : Int) := by
  have hunits : kCvtMax.units = 65536 * unitsPerOne := by decide +kernel
  rw [← hunits, ← units_neg]
  exact isFinite_and_within_iff (by decide +kernel) (by decide +kernel)

/-- The default SR_ADMIT is one interval (00_scope R9). -/
theorem srAdmitted_standard (v : F64) : srAdmitted Config.standard v = (v.isFinite && within F64.one kRateMax v) :=
  congrArg (v.isFinite && ·) (Bool.or_false _)

theorem srAdmitted_standard_iff {v : F64} :
    srAdmitted Config.standard v = true ↔
      v.isFinite = true ∧ (unitsPerOne : Int) ≤ v.units ∧ v.units ≤ (4294967296 * unitsPerOne : Int) := by
  have hunits : kRateMax.units = 4294967296 * unitsPerOne := by decide +kernel
  rw [srAdmitted_standard, ← hunits, ← units_one]
  exact isFinite_and_within_iff isFinite_one isFinite_kRateMax

/-- A value is read as a natural number exactly where it is that number (30_encoding R83). -/
theorem natOf_eq_some_iff {v : F64} {n : Nat} : natOf v = some n ↔ v.isFinite = true ∧ v.units = (n * unitsPerOne : Int) := by
  have hone : (0 : Int) < unitsPerOne := by exact_mod_cast unitsPerOne_pos
  simp only [natOf, isInteger, Option.ite_none_right_eq_some, Option.some.injEq, Bool.and_eq_true, decide_eq_true_eq]
  constructor
  · rintro ⟨⟨⟨hfin, hwhole⟩, hnonneg⟩, rfl⟩
    refine ⟨hfin, ?_⟩
    rw [Int.toNat_of_nonneg (Int.ediv_nonneg hnonneg hone.le), Int.ediv_mul_cancel (Int.dvd_of_emod_eq_zero hwhole)]
  · rintro ⟨hfin, hunits⟩
    rw [hunits, Int.mul_emod_left, Int.mul_ediv_cancel _ hone.ne', Int.toNat_natCast]
    exact ⟨⟨⟨hfin, rfl⟩, mul_nonneg (Int.natCast_nonneg n) hone.le⟩, rfl⟩

theorem wavRate_eq_some_iff {v : F64} {n : Nat} : wavRate v = some n ↔ natOf v = some n ∧ 1 ≤ n ∧ n ≤ 2147483647 := by
  unfold wavRate
  cases natOf v with
  | none => simp
  | some k =>
    simp only [Option.ite_none_right_eq_some, Option.some.injEq]
    exact ⟨fun ⟨hrange, heq⟩ => ⟨heq, heq ▸ hrange⟩, fun ⟨heq, hrange⟩ => ⟨heq ▸ hrange, heq⟩⟩

theorem byteComponent_eq_some_iff {v : F64} {n : Nat} : byteComponent v = some n ↔ natOf v = some n ∧ n ≤ 255 := by
  unfold byteComponent
  cases natOf v with
  | none => simp
  | some k =>
    simp only [Option.ite_none_right_eq_some, Option.some.injEq]
    exact ⟨fun ⟨hrange, heq⟩ => ⟨heq, heq ▸ hrange⟩, fun ⟨heq, hrange⟩ => ⟨heq ▸ hrange, heq⟩⟩

/-! ## The refusals (R256, R258, R259) -/

section Refusals

variable {s : State} {l : List F64} {n : Nat}

theorem exec_encEncode_refRate (h : srAdmitted s.cfg s.cmd.a0 = false) : exec .encEncode s = .next (s.refuse .refRate) :=
  if_neg (Bool.eq_false_iff.mp h)

theorem exec_decSample_refRateUnset (h : s.dec.sr = none) : exec .decSample s = .next (s.refuse .refRateUnset) := by
  simp only [exec, execDecSample, h]

theorem exec_decSample_refSampleRange {sr : F64} (hsr : s.dec.sr = some sr) (h : unitSample s.cmd.a0 = false) :
    exec .decSample s = .next (s.refuse .refSampleRange) := by
  simp only [exec, execDecSample, hsr, h, Bool.false_eq_true, if_false]

/-- The converter's two commands of three operands refuse alike. -/
theorem exec_cvt_refused_of_triple (h : (cvtOperand s.cmd.a0 && cvtOperand s.cmd.a1 && cvtOperand s.cmd.a2) = false) :
    exec .cvtRgb2yuv s = .next (s.refuse .refCvtOperand) ∧ exec .cvtYuv2rgb s = .next (s.refuse .refCvtOperand) :=
  ⟨if_neg (Bool.eq_false_iff.mp h), if_neg (Bool.eq_false_iff.mp h)⟩

/-- The frequency maps refuse by A0 alone. -/
theorem exec_cvt_refused_of_single (h : cvtOperand s.cmd.a0 = false) :
    exec .cvtVal2freq s = .next (s.refuse .refCvtOperand) ∧ exec .cvtFreq2val s = .next (s.refuse .refCvtOperand) :=
  ⟨if_neg (Bool.eq_false_iff.mp h), if_neg (Bool.eq_false_iff.mp h)⟩

theorem exec_wavSerialize_refWavRate (h : wavRate s.cmd.a0 = none) : exec .wavSerialize s = .next (s.refuse .refWavRate) := by
  simp only [exec, execWavSerialize, h]

theorem exec_wavSerialize_refWavSize (hrate : wavRate s.cmd.a0 = some n) (hb0 : s.cmd.b0 = .samples l)
    (hsize : wavMaxSamples < l.length) : exec .wavSerialize s = .next (s.refuse .refWavSize) := by
  have hne : l.length ≠ 0 := Nat.ne_zero_of_lt hsize
  simp only [exec, execWavSerialize, hrate, hb0, bulkSamples, if_neg hne, if_pos hsize]

theorem exec_wavSerialize_refWavSample (hrate : wavRate s.cmd.a0 = some n) (hb0 : s.cmd.b0 = .samples l)
    (hsize : l.length ≤ wavMaxSamples) (hbad : ∃ v ∈ l, unitSample v = false) :
    exec .wavSerialize s = .next (s.refuse .refWavSample) := by
  obtain ⟨v, hv, hout⟩ := hbad
  have hne : l.length ≠ 0 := (List.length_pos_of_mem hv).ne'
  have hall : ¬l.all unitSample = true := fun hall => Bool.false_ne_true (hout.symm.trans (List.all_eq_true.mp hall v hv))
  simp only [exec, execWavSerialize, hrate, hb0, bulkSamples, if_neg hne, if_neg hsize.not_gt, if_neg hall]

end Refusals

/-! ## How a command can end (R250, R259) -/

/-- The ends of a command: a refusal, an error status that is all it does, or OK with the mark as it was. -/
inductive CommandEnd (s : State) : State → Prop
  | refused (why : RefusalReason) : CommandEnd s (s.refuse why)
  | raised (st : Status) : CommandEnd s (s.raise st)
  | done {t : State} (hok : statusIs t .ok) (hmark : t.refused = s.refused) : CommandEnd s t

/-- A command with one check completes or is refused. -/
theorem commandEnd_of_checked {s t u : State} {c : Prop} [Decidable c] {why : RefusalReason}
    (h : (if c then .next u else .next (s.refuse why) : Host.Outcome State Fault Refusal) = .next t) (hok : statusIs u .ok)
    (hmark : u.refused = s.refused) : CommandEnd s t := by
  split at h
  · cases h; exact .done hok hmark
  · cases h; exact .refused why

theorem execDecSample_commandEnd {s t : State} (h : execDecSample s = .next t) : CommandEnd s t := by
  rcases execDecSample_cases s with ⟨-, he⟩ | ⟨_, -, -, he⟩ | ⟨_, d, es, -, -, -, he⟩ | ⟨_, f, -, -, -, he⟩ <;> cases he.symm.trans h
  · exact .refused _
  · exact .refused _
  · exact .done (statusIs_returns _ _) rfl

theorem execEncEncode_commandEnd {s t : State} (h : execEncEncode s = .next t) : CommandEnd s t := by
  rcases execEncEncode_cases s with ⟨-, he⟩ | ⟨-, -, he⟩ | ⟨-, -, -, he⟩ | ⟨-, -, -, -, he⟩ | ⟨-, -, -, _, -, he⟩ <;>
    cases he.symm.trans h
  · exact .refused _
  · exact .raised _
  · exact .raised _
  · exact .refused _
  · exact .done (statusIs_returns _ _) rfl

theorem execWavSerialize_commandEnd {s t : State} (h : execWavSerialize s = .next t) : CommandEnd s t := by
  rcases execWavSerialize_cases s with ⟨-, he⟩ | ⟨_, -, -, he⟩ | ⟨_, -, -, he⟩ | ⟨_, -, -, -, -, he⟩ | ⟨_, -, -, -, -, he⟩ <;>
    cases he.symm.trans h
  · exact .refused _
  · exact .raised _
  · exact .refused _
  · exact .refused _
  · exact .done (onlyStatus_returnsBytes s _).2.2 rfl

/-- Every command that completes ends in one of the three ways. -/
theorem exec_commandEnd {i : Instr} {s t : State} (h : exec i s = .next t) : CommandEnd s t := by
  cases i with
  | decReset | encCancel => cases h; exact .done (statusIs_returns _ _) rfl
  | decSetRate => exact commandEnd_of_checked h (statusIs_returns _ _) rfl
  | decSample => exact execDecSample_commandEnd h
  | encEncode => exact execEncEncode_commandEnd h
  | cvtRgb2yuv | cvtYuv2rgb => exact commandEnd_of_checked h (onlyStatus_returnsQ s _ _ _).2.2 rfl
  | cvtVal2freq | cvtFreq2val => exact commandEnd_of_checked h (onlyStatus_returnsQ0 s _).2.2 rfl
  | wavSerialize => exact execWavSerialize_commandEnd h

theorem statusCode_le_four (st : Status) : (statusCode st).toNat ≤ 4 := by
  cases st <;> decide

/-- A mark that is set after a refusal, by this one or by an earlier one. -/
theorem markRefused_ne_none (old : Option RefusalReason) (why : RefusalReason) : markRefused old why ≠ none := by
  cases old <;> exact nofun

/-! ## The mark (R259) -/

/-- From s to t the mark keeps its reason, and setting it is all that happens. -/
structure MarkKept (s t : State) : Prop where
  kept : ∀ why, s.refused = some why → t.refused = some why
  alone : t.refused ≠ s.refused → sameAgents s t ∧ s.refused = none

theorem markKept_of_eq {s t : State} (h : t.refused = s.refused) : MarkKept s t :=
  ⟨fun _ hwhy => h.trans hwhy, fun hne => absurd h hne⟩

theorem markKept_refuse (s : State) (why : RefusalReason) : MarkKept s (s.refuse why) := by
  obtain ⟨hsame, -⟩ := refusedWith_refuse s why
  cases hmark : s.refused with
  | some r => exact markKept_of_eq (by rw [State.refuse_refused, hmark]; rfl)
  | none => exact ⟨fun _ hwhy => (nomatch hmark.symm.trans hwhy), fun _ => ⟨hsame, hmark⟩⟩

theorem CommandEnd.markKept {s t : State} (h : CommandEnd s t) : MarkKept s t := by
  cases h with
  | refused why => exact markKept_refuse s why
  | raised st => exact markKept_of_eq (State.raise_refused s st)
  | done _ hmark => exact markKept_of_eq hmark

/-- Every step keeps the mark: of the moves only a command can set it. -/
theorem step_markKept {s t : State} (h : step s = .next t) : MarkKept s t := by
  rcases step_cases s with ⟨c, rest, i, -, -, he⟩ | ⟨c, rest, x, -, -, he⟩ | ⟨rest, he⟩ | ⟨rest, -, he⟩ | ⟨rest, -, -, he⟩ <;>
    rw [he] at h
  · obtain ⟨hkept, halone⟩ := (exec_commandEnd h).markKept
    exact ⟨hkept, halone⟩
  · cases h; exact markKept_of_eq rfl
  · obtain ⟨-, hmark, -⟩ := encoderMove_frame h
    exact markKept_of_eq hmark
  · cases h; exact markKept_of_eq rfl
  · cases h; exact markKept_of_eq rfl

/-! ## No fault under the invariant (R262) -/

/-- A command never faults while the decoder's line is in the raster. -/
theorem exec_completes (i : Instr) {s : State} (hline : s.dec.currentLine < height) : ∃ t, exec i s = .next t := by
  have checked {c : Prop} [Decidable c] {u v : State} :
      ∃ t, (if c then .next u else .next v : Host.Outcome State Fault Refusal) = .next t := by split <;> exact ⟨_, rfl⟩
  cases i with
  | decReset | encCancel => exact ⟨_, rfl⟩
  | decSetRate | cvtRgb2yuv | cvtYuv2rgb | cvtVal2freq | cvtFreq2val => exact checked
  | decSample =>
    rcases execDecSample_cases s with ⟨-, he⟩ | ⟨_, -, -, he⟩ | ⟨_, _, _, -, -, -, he⟩ | ⟨sr, f, -, -, hfault, -⟩
    · exact ⟨_, he⟩
    · exact ⟨_, he⟩
    · exact ⟨_, he⟩
    · obtain ⟨r, hr⟩ := sampleTick_ok s.cfg sr s.cmd.a0 s.dec hline
      cases hfault.symm.trans hr
  | encEncode =>
    rcases execEncEncode_cases s with ⟨-, he⟩ | ⟨-, -, he⟩ | ⟨-, -, -, he⟩ | ⟨-, -, -, -, he⟩ | ⟨-, -, -, _, -, he⟩ <;> exact ⟨_, he⟩
  | wavSerialize =>
    rcases execWavSerialize_cases s with ⟨-, he⟩ | ⟨_, -, -, he⟩ | ⟨_, -, -, he⟩ | ⟨_, -, -, -, -, he⟩ | ⟨_, -, -, -, -, he⟩ <;>
      exact ⟨_, he⟩

section EncoderStep

variable {cfg : Config} {g : Segment} {e : Encoder}

/-- The first half of ENC_STEP: a row of the table has a tone, at which WRAP ends (43_phase_accumulator R174). -/
theorem emitSample_completes (hcfg : configOk cfg = true) (hbusy : e.busy = true) (he : EncoderOk cfg e)
    (hg : segmentAt e.segIndex = some g) : ∃ e', emitSample cfg g e = .ok e' := by
  have hnum := configOk_num hcfg
  obtain ⟨f, hf⟩ := segmentFreq_ok cfg.num e.raster (segmentAt_inRaster hg)
  have htone : ToneBetween f := segmentFreq_tone (he.raster hbusy) (hnum ▸ hf)
  obtain ⟨v, p, hosc⟩ := oscStep_ok hnum (srAdmitted_between hcfg (he.rate hbusy)) htone (he.phase hbusy)
  unfold emitSample
  split
  · simp only [bind, Except.bind, hf, hosc, Except.ok.injEq, exists_eq']
  · exact ⟨_, rfl⟩

/-- The second half of ENC_STEP: after each row but the last there is another. -/
theorem nextSegment_completes (hseg : e.segIndex < segmentTotal) (old : Nat × Nat) : ∃ r, nextSegment cfg g old e = .ok r := by
  by_cases hlast : e.segIndex + 1 = segmentTotal
  · exact ⟨_, if_pos hlast⟩
  · obtain ⟨g', hg'⟩ := segmentAt_of_lt (k := e.segIndex + 1) (by omega)
    simp only [nextSegment, if_neg hlast, bind, Except.bind, fetchSegment_ok_iff.mpr hg', Except.ok.injEq, exists_eq']

theorem encStep_completes (hcfg : configOk cfg = true) (hbusy : e.busy = true) (he : EncoderOk cfg e) :
    ∃ r, encStep cfg e = .ok r := by
  have hseg := he.segment hbusy
  obtain ⟨g, hg⟩ := segmentAt_of_lt hseg
  obtain ⟨e1, he1⟩ := emitSample_completes hcfg hbusy he hg
  obtain ⟨-, hseg1⟩ := emitSample_frame he1
  simp only [encStep, bind, Except.bind, fetchSegment_ok_iff.mpr hg, he1]
  split
  · exact nextSegment_completes (hseg1 ▸ hseg) _
  · exact ⟨_, rfl⟩

end EncoderStep

theorem encoderMove_completes {s : State} (hinv : Inv s) : ∃ t, encoderMove s = .next t := by
  rcases encoderMove_cases s with ⟨-, he⟩ | ⟨-, _, _, -, he⟩ | ⟨hbusy, f, hfault, -⟩
  · exact ⟨_, he⟩
  · exact ⟨_, he⟩
  · obtain ⟨r, hr⟩ := encStep_completes hinv.cfg hbusy hinv.enc
    cases hfault.symm.trans hr

/-! ## The statements of 60_exceptions -/

/-- Settles O60: each move by its own law, a command by `exec_completes` and the encoder's step by `encoderMove_completes`. -/
theorem invariantStepsNeverStop : Obligations.InvariantStepsNeverStop := by
  unfold Obligations.InvariantStepsNeverStop
  intro s hinv
  rcases step_cases s with ⟨c, rest, i, -, -, he⟩ | ⟨c, rest, x, -, -, he⟩ | ⟨rest, he⟩ | ⟨rest, -, he⟩ | ⟨rest, -, -, he⟩ <;> rw [he]
  · exact exec_completes i (s := s.present c rest) hinv.dec.line
  · exact ⟨_, rfl⟩
  · exact encoderMove_completes ⟨hinv.cfg, hinv.dec, hinv.enc⟩
  · exact ⟨_, rfl⟩
  · exact ⟨_, rfl⟩

/-- Settles O30: each domain by its own `iff`; the two integer domains are ranges of `natOf_eq_some_iff`. -/
theorem admissionDomains : Obligations.AdmissionDomains := by
  unfold Obligations.AdmissionDomains
  refine fun v => ⟨unitSample_iff, cvtOperand_iff, srAdmitted_standard_iff, fun n => ?_, fun n => ?_⟩
  · rw [wavRate_eq_some_iff, natOf_eq_some_iff, and_assoc]
  · rw [byteComponent_eq_some_iff, natOf_eq_some_iff, and_assoc]

/-- Settles O31: each refusal by its own equation; the raster's and DEC_SET_RATE's are clauses of O37 and O9. -/
theorem refusedOperands : Obligations.RefusedOperands := by
  unfold Obligations.RefusedOperands
  intro s
  have refuses {i : Instr} {why : RefusalReason} (h : exec i s = .next (s.refuse why)) :
      ∃ t, exec i s = .next t ∧ refusedWith s t why := ⟨_, h, refusedWith_refuse s why⟩
  refine ⟨fun h => ⟨(decSetRateResult s).2 h, refuses (exec_encEncode_refRate h)⟩, fun rows hb0 hrate hidle hshape hbad => ?_,
    fun h => refuses (exec_decSample_refRateUnset h), fun sr hsr h => refuses (exec_decSample_refSampleRange hsr h), fun h => ?_,
    fun h => ?_, fun h => refuses (exec_wavSerialize_refWavRate h),
    fun n l hrate hb0 hsize => refuses (exec_wavSerialize_refWavSize hrate hb0 hsize),
    fun n l hrate hb0 hsize hbad => refuses (exec_wavSerialize_refWavSample hrate hb0 hsize hbad)⟩
  · obtain ⟨-, -, -, hvalue, -⟩ := encEncodeResult s rows hb0
    refine hvalue hrate hidle hshape fun hbytes => ?_
    obtain ⟨row, hrow, c, hc, v, hv, hnone⟩ := hbad
    exact hbytes row hrow c hc v hv hnone
  · obtain ⟨hrgb, hyuv⟩ := exec_cvt_refused_of_triple h
    exact ⟨refuses hrgb, refuses hyuv⟩
  · obtain ⟨hval, hfreq⟩ := exec_cvt_refused_of_single h
    exact ⟨refuses hval, refuses hfreq⟩

/-- Settles O32: `step_markKept`. -/
theorem refusedMarkIsKept : Obligations.RefusedMarkIsKept := by
  unfold Obligations.RefusedMarkIsKept
  intro s t h
  obtain ⟨hkept, halone⟩ := step_markKept h
  exact ⟨hkept, halone⟩

/-- Settles O34: of the three ends of a command only OK changes anything that the statement names. -/
theorem onlyOkCommandsChangeState : Obligations.OnlyOkCommandsChangeState := by
  unfold Obligations.OnlyOkCommandsChangeState
  intro i s t h hchanged
  cases exec_commandEnd h with
  | refused why => exact absurd ⟨rfl, rfl, rfl⟩ hchanged
  | raised st => exact absurd ⟨rfl, rfl, rfl⟩ hchanged
  | done hok _ => exact hok

/-- Settles O33: the codes are the definition's, and a command that is not refused ends with one of them. -/
theorem statusCodesAreTheTable : Obligations.StatusCodesAreTheTable := by
  unfold Obligations.StatusCodesAreTheTable
  refine ⟨rfl, rfl, rfl, rfl, rfl, fun i s t h hnone => ?_⟩
  have code {u : State} {st : Status} : statusIs u st → ∃ r, u.resp = some r ∧ r.status.toNat ≤ 4 := by
    rintro ⟨r, hr, hst⟩
    exact ⟨r, hr, hst ▸ statusCode_le_four st⟩
  cases exec_commandEnd h with
  | refused why => exact absurd hnone (markRefused_ne_none _ why)
  | raised st => exact code (statusIs_returns s st)
  | done hok _ => exact code hok

end Sys2Proof.Proofs

/-! PROOFS. Reset and hazards (spec/70_reset_and_hazards.md R280, R281, R286, R301): the power-on state and DEC_RESET, the end of a started
line by the watchdog, and the end of an encode by a measure that each of its steps lowers. -/

namespace Sys2Proof.Proofs

open Sys2Proof Sys2Proof.Machine Sys2Proof.F64

/-! ## The reset values of the arrays and of the agents (R280) -/

/-- The buffers of `Memory.reset` read as 0.0 (10_state R30 to R32). -/
theorem buffersAt_reset {x : Nat} (hx : x < width) :
    lumaAt Memory.reset x = .ok F64.zero ∧ crAt Memory.reset x = .ok F64.zero ∧ cbAt Memory.reset x = .ok F64.zero :=
  ⟨memRead_of_lt _ _ hx, memRead_of_lt _ _ hx, memRead_of_lt _ _ hx⟩

/-- An IMG with no cell listed is black (10_state R33). -/
theorem pixelAt_of_img_nil {m : Memory} (h : m.img = []) {x y : Nat} (hx : x < width) (hy : y < height) :
    pixelAt m x y = .ok black := by
  rw [pixelAt, h, readImg_of_lt _ hx hy]
  rfl

/-- DEC_RESET clears IMG whatever RESET_KEEPS_BUFFERS is (41_sync_state_machine R140). -/
theorem decoderReset_img (keepsBuffers : Bool) (d : Decoder) : (decoderReset keepsBuffers d).mem.img = [] := by
  cases keepsBuffers <;> rfl

theorem configOk_standard : configOk Config.standard = true := by decide +kernel

theorem decoderOk_powerOn (cfg : Config) : DecoderOk cfg Decoder.reset where
  line := by decide
  rate := nofun
  dc := by decide +kernel
  previous := by decide +kernel
  freq := by decide +kernel
  mem := memoryOk_reset

/-! ## The end of a line (R301) -/

/-- The DEC_SAMPLE command of one sample of a stream (30_encoding R92). -/
def sampleCommand (raw : F64) : Command := { word := encode .decSample, a0 := raw, a1 := F64.zero, a2 := F64.zero, b0 := .none }

theorem sampleMoves_cons (raw : F64) (raws : List F64) :
    sampleMoves (raw :: raws) = .command (sampleCommand raw) :: sampleMoves raws := rfl

/-- The next sample of a stream: the step that takes it is a completed tick, with the rest of the script to come. -/
theorem step_sampleCommand {s : State} {sr raw : F64} {rest : List HostMove} (hline : s.dec.currentLine < height)
    (hsr : s.dec.sr = some sr) (hraw : unitSample raw = true) (hs : s.script = .command (sampleCommand raw) :: rest) :
    ∃ t, step s = .next t ∧ tickOf sr (s.present (sampleCommand raw) rest) t ∧ t.dec.sr = some sr ∧ t.script = rest := by
  obtain ⟨t, -, hexec, -, -, -, -, -, -, hsr'⟩ := decSampleCompletes (s.present (sampleCommand raw) rest) sr hsr hraw hline
  obtain ⟨-, hscript, -⟩ := exec_fixed hexec
  exact ⟨t, (stepRunsTheDecodedCommand s _ _ _ hs (decode_encode .decSample)).trans hexec, ⟨hsr, hraw, hexec⟩, hsr', hscript⟩

/-- While the line goes on each sample raises its counter, which stays within the watchdog's threshold: by induction over the stream. -/
theorem scanning_ends {s : State} {sr : F64} {raws : List F64} {rest : List HostMove} (hinv : Inv s)
    (hcount : lineCounterOk s.cfg.num s.dec) (hsr : s.dec.sr = some sr) (hst : s.dec.syncState = .scanning)
    (hs : s.script = sampleMoves raws ++ rest) (hraws : ∀ raw ∈ raws, unitSample raw = true)
    (hlong : lastLineSample s.cfg.num sr + 1 ≤ (s.dec.samplesSinceLineStart + raws.length : Nat)) :
    ∃ (k : Nat) (t : State), k ≤ raws.length ∧ Sys2Proof.core.run k s = .next t ∧ t.dec.syncState ≠ .scanning := by
  induction raws generalizing s with
  | nil =>
    have hwithin := hcount sr hsr hst
    rw [List.length_nil, Nat.add_zero] at hlong
    omega
  | cons raw raws ih =>
    rw [sampleMoves_cons, List.cons_append] at hs
    obtain ⟨u, hstep, htick, hsr', hs'⟩ := step_sampleCommand hinv.dec.line hsr (hraws _ (.head _)) hs
    by_cases hst' : u.dec.syncState = .scanning
    · obtain ⟨-, -, -, -, hcounter, -⟩ := scanArmEndsTheLine _ u sr htick hst
      have hcounter' : u.dec.samplesSinceLineStart = s.dec.samplesSinceLineStart + 1 := hcounter
      have hinv' := stepKeepsTheInvariant s u hinv hstep
      have hcount' := lineCounterStaysBelowTheWatchdog s u hinv hstep (hsr'.trans hsr.symm) hcount
      have hlong' : lastLineSample u.cfg.num sr + 1 ≤ (u.dec.samplesSinceLineStart + raws.length : Nat) := by
        rw [(step_agentsNext hstep).cfg, hcounter', Nat.add_assoc, Nat.add_comm 1]
        exact hlong
      obtain ⟨k, t, hk, hrun, hend⟩ :=
        ih hinv' hcount' hsr' hst' hs' (fun r hr => hraws r (.tail _ hr)) hlong'
      exact ⟨k + 1, t, Nat.succ_le_succ hk, (run_next hstep).trans hrun, hend⟩
    · exact ⟨1, u, Nat.succ_le_succ (Nat.zero_le _), run_next hstep, hst'⟩

/-! ## The end of an encode (60_exceptions R262, R286) -/

/-- A step of the encoder brings the encode on: it completes it, makes the next segment current, or emits a sample of this one. -/
inductive EncodeAdvances (e e' : Encoder) : Prop
  | completed (hidle : e'.busy = false)
  | nextSegment (hseg : e'.segIndex = e.segIndex + 1)
  | sameSegment (hseg : e'.segIndex = e.segIndex) (hrem : e'.segRemaining < e.segRemaining)

theorem encStep_advances {cfg : Config} {e e' : Encoder} {es : List Event} (h : encStep cfg e = .ok (e', es)) :
    EncodeAdvances e e' := by
  obtain ⟨g, e1, -, hemit, ⟨-, hnext⟩ | ⟨hmore, hr⟩⟩ := encStep_cases h
  · obtain ⟨-, hseg⟩ := emitSample_frame hemit
    rcases nextSegment_cases hnext with ⟨-, hr⟩ | ⟨-, g', -, hr⟩ <;> cases hr
    · exact .completed rfl
    · exact .nextSegment (congrArg (· + 1) hseg)
  · cases hr
    rcases emitSample_cases hemit with ⟨hzero, rfl⟩ | ⟨hpos, f, v, p, -, -, rfl⟩
    · exact absurd hzero hmore
    · exact .sameSegment rfl (Nat.sub_lt hpos Nat.one_pos)

/-- What a step that takes no command makes of a machine with an encode in progress: it takes a move that is none of the encoder's off the
script, or it is the encoder's step, which may take one off. -/
structure EncodeStep (s t : State) : Prop where
  script : t.script <:+ s.script
  enc : (t.enc = s.enc ∧ t.script.length < s.script.length) ∨ EncodeAdvances s.enc t.enc

/-- The encoder's move as such a step, the script being what the step's own move has left of it. -/
theorem encodeStep_of_encoderMove {s t : State} {script : List HostMove} (hbusy : s.enc.busy = true) (hscript : script <:+ s.script)
    (h : encoderMove { s with script := script } = .next t) : EncodeStep s t := by
  obtain ⟨e, es, hstep, rfl⟩ := encoderMove_of_busy (s := { s with script := script }) hbusy h
  exact ⟨hscript, .inr (encStep_advances hstep)⟩

theorem step_encodeStep {s t : State} (hbusy : s.enc.busy = true) (hmoves : ∀ m ∈ s.script, isCommand m = false)
    (h : step s = .next t) : EncodeStep s t := by
  cases hs : s.script with
  | nil => exact encodeStep_of_encoderMove hbusy (List.suffix_refl s.script) ((step_nil hs).symm.trans h)
  | cons m rest =>
    have hrest : rest <:+ s.script := hs ▸ List.suffix_cons m rest
    have hshorter : rest.length < s.script.length := by rw [hs]; exact Nat.lt_succ_self _
    cases m with
    | command c => exact absurd (hmoves (.command c) (hs ▸ .head _)) nofun
    | encStep => exact encodeStep_of_encoderMove hbusy hrest ((step_encStep hs).symm.trans h)
    | readEvent =>
      cases (step_readEvent hs).symm.trans h
      exact ⟨hrest, .inl ⟨rfl, hshorter⟩⟩
    | waitEncDone =>
      rw [step_waitEncDone hs] at h
      split at h
      · cases h
        exact ⟨hrest, .inl ⟨rfl, hshorter⟩⟩
      · exact encodeStep_of_encoderMove hbusy (List.suffix_refl s.script) h

/-- What an encode in progress has before it: the segments, then the samples of the current one, then the moves of the script, in
lexicographic order. -/
def encodeAhead (s : State) : Nat ×ₗ Nat ×ₗ Nat :=
  toLex (segmentTotal - s.enc.segIndex, toLex (s.enc.segRemaining, s.script.length))

theorem encodeAhead_lt {s t : State} (hstep : EncodeStep s t) (hbusy : t.enc.busy = true) (hseg : s.enc.segIndex < segmentTotal) :
    encodeAhead t < encodeAhead s := by
  simp only [encodeAhead, Prod.Lex.toLex_lt_toLex]
  rcases hstep.enc with ⟨henc, hshorter⟩ | hidle | hnext | ⟨hsame, hrem⟩
  · rw [henc]
    exact .inr ⟨rfl, .inr ⟨rfl, hshorter⟩⟩
  · cases hbusy.symm.trans hidle
  · exact .inl (by omega)
  · exact .inr ⟨congrArg (segmentTotal - ·) hsame, .inl hrem⟩

theorem runEnded_of_idle {s : State} (hmoves : ∀ m ∈ s.script, isCommand m = false) (hidle : s.enc.busy = false) :
    runEnded s = true := by
  have hnone : s.script.any isCommand = false := List.any_eq_false.mpr fun m hm => Bool.eq_false_iff.mp (hmoves m hm)
  simp only [runEnded, hnone, hidle, Bool.not_false, Bool.and_self]

/-- With no command left the run ends: the invariant gives every step an outcome, and `encodeAhead` falls until the encoder is idle. -/
theorem run_ends (s : State) (hinv : Inv s) (hmoves : ∀ m ∈ s.script, isCommand m = false) :
    ∃ (n : Nat) (t : State), Sys2Proof.core.run n s = .next t ∧ runEnded t = true := by
  cases hbusy : s.enc.busy with
  | false => exact ⟨0, s, rfl, runEnded_of_idle hmoves hbusy⟩
  | true =>
    obtain ⟨u, hstep⟩ := invariantStepsNeverStop s hinv
    have hadvance := step_encodeStep hbusy hmoves hstep
    have hmoves' : ∀ m ∈ u.script, isCommand m = false := fun m hm => hmoves m (hadvance.script.subset hm)
    cases hbusy' : u.enc.busy with
    | false => exact ⟨1, u, run_next hstep, runEnded_of_idle hmoves' hbusy'⟩
    | true =>
      have hless : encodeAhead u < encodeAhead s := encodeAhead_lt hadvance hbusy' (hinv.enc.segment hbusy)
      obtain ⟨n, t, hrun, hend⟩ := run_ends u (stepKeepsTheInvariant s u hinv hstep) hmoves'
      exact ⟨n + 1, t, (run_next hstep).trans hrun, hend⟩
termination_by encodeAhead s
decreasing_by exact hless

/-! ## The statements of 70_reset_and_hazards -/

/-- Settles O48: `run_ends`. -/
theorem everyEncodeCompletes : Obligations.EveryEncodeCompletes := by
  unfold Obligations.EveryEncodeCompletes
  exact run_ends

/-- Settles O24: `scanning_ends`. -/
theorem scanningEndsWithinTheWatchdogBound : Obligations.ScanningEndsWithinTheWatchdogBound := by
  unfold Obligations.ScanningEndsWithinTheWatchdogBound
  intro s sr raws rest hinv hcount hsr hst hs hraws hlong
  exact scanning_ends hinv hcount hsr hst hs hraws hlong

/-- Settles O7: the registers by their definition, and the arrays as `Memory.reset` reads. -/
theorem powerOnState : Obligations.PowerOnState := by
  unfold Obligations.PowerOnState
  exact ⟨rfl, rfl, rfl, rfl, rfl, rfl, rfl, rfl, rfl, fun x hx => buffersAt_reset hx, fun x hx y hy => pixelAt_of_img_nil rfl hx hy,
    rfl, rfl, rfl, rfl⟩

/-- Settles O8: `decoderReset` field by field, and its arrays for each value of RESET_KEEPS_BUFFERS. -/
theorem decResetResult : Obligations.DecResetResult := by
  unfold Obligations.DecResetResult
  intro s
  have hexec : exec .decReset s = .next (State.returns { s with dec := decoderReset s.cfg.resetKeepsBuffers s.dec } .ok) := rfl
  refine ⟨_, hexec, statusIs_returns _ _, rfl, rfl, rfl, rfl, rfl, rfl, rfl, rfl, rfl, rfl, rfl, rfl, rfl, rfl, fun hclear x hx => ?_,
    fun hkeep x => ?_, fun x hx y hy => pixelAt_of_img_nil (decoderReset_img _ _) hx hy⟩
  · rw [State.returns_dec, hclear]
    exact buffersAt_reset hx
  · rw [State.returns_dec, hkeep]
    exact ⟨rfl, rfl, rfl⟩

/-- Settles O58: the default configuration is in its ranges, and each agent's reset values have its invariant. -/
theorem powerOnStateHasTheInvariant : Obligations.PowerOnStateHasTheInvariant := by
  unfold Obligations.PowerOnStateHasTheInvariant
  exact ⟨configOk_standard, decoderOk_powerOn _, encoderOk_of_idle rfl rfl⟩

end Sys2Proof.Proofs
